-- ==== Sys2Proof/Word.lean ====
section
/-! DEFINITION. The widths the spec fixes: the 32-bit words of the channels (30_encoding.md R92), bytes, and
the 16-bit carriers of ring elements and samples, whose real widths `W` and `SW` are parameters of at most 16
(00_scope.md R5). -/

namespace Sys2Proof

/-- A word of a channel: operation word, payload word or response word (R92, R96, R97). -/
abbrev Word := BitVec 32

/-- A byte of the transport (R31). -/
abbrev Byte := BitVec 8

/-- An element of RB0: an unsigned value below `2^W`, `W <= 16` (R5, R94). -/
abbrev Elem := BitVec 16

/-- A sample of the frame buffer: an unsigned value below `2^SW`, `SW <= 16` (R5, R64, R94). -/
abbrev Sample := BitVec 16

end Sys2Proof
end

