-- ==== Sys2Proof/Config.lean ====
section
/-! DEFINITION. The implementation parameters of 00_scope.md R5, their constraints and defaults, and the one free
value of the model. -/

namespace Sys2Proof

/-- The parameters of R5. `w` is `W`, `r` is `R`, `sw` is `SW`, `fcw` is `FCW`; the others are spelt as the spec
spells them. They are fixed for the lifetime of an instance (R6). -/
structure Params where
  w : Nat
  cap : Nat
  rxCap : Nat
  txCap : Nat
  maxPkt : Nat
  putRetries : Nat
  r : Nat
  maxPos : Nat
  sw : Nat
  fcw : Nat
  continuous : Bool
  emptySentinel : Int
  deriving DecidableEq, Repr

/-- The constraint column of the table of R5. A machine whose parameters break it is outside the spec
(93_implementation_defined.md U13): every statement that needs it carries it as a premise (log 25). -/
abbrev Params.Ok (p : Params) : Prop :=
  (1 ≤ p.w ∧ p.w ≤ 16) ∧ 1 ≤ p.cap ∧ 1 ≤ p.rxCap ∧ 1 ≤ p.txCap ∧ (1 ≤ p.maxPkt ∧ p.maxPkt ≤ 255) ∧
  2 ≤ p.r ∧ (1 ≤ p.maxPos ∧ p.maxPos ≤ 65535) ∧ (1 ≤ p.sw ∧ p.sw ≤ 16) ∧ 1 ≤ p.fcw ∧
  (p.emptySentinel < 0 ∨ ((2 ^ p.w : Nat) ≤ p.emptySentinel ∧ 256 ≤ p.emptySentinel))

/-- The defaults of the table of R5; `cap` and `maxPos` are the source's scenario values, which the table quotes.
DESIGN CHOICE: `putRetries` is OPEN in the spec and is 1 here (log 1). No statement rests on these numbers. -/
def Params.default : Params where
  w := 8
  cap := 2
  rxCap := 64
  txCap := 64
  maxPkt := 64
  putRetries := 1
  r := 4
  maxPos := 3
  sw := 16
  fcw := 32
  continuous := false
  emptySentinel := -1

/-- FREE VALUE. What a reader of the `rxIdle` status output sees when the bit holds a given value: 10_state.md R33
and U3 give any read of `rxIdle` any value, so nothing constrains this function (DESIGN CHOICE, log 9). -/
opaque Config.rxIdlePin : Bool → Bool

end Sys2Proof
end

