-- ==== Sys2Proof/Syntax.lean ====
section
/-! DEFINITION. The fourteen operations of 30_encoding.md R91, one constructor per row of the opcode table. -/

namespace Sys2Proof

/-- An operation of the block with its argument (R90, R91). A packet's length operand `n` is the length of the list
(R95). -/
inductive Instr where
  /-- `RB.PUT v` (R120) -/
  | rbPut (v : Elem)
  /-- `RB.GET` (R121) -/
  | rbGet
  /-- `RB.ISFULL` (R122) -/
  | rbIsfull
  /-- `RB.ISEMPTY` (R123) -/
  | rbIsempty
  /-- `RB.LENGTH` (R124) -/
  | rbLength
  /-- `ST.PUTCHAR c` (R146) -/
  | stPutchar (c : Byte)
  /-- `ST.GETCHAR` (R144) -/
  | stGetchar
  /-- `ST.SUBMIT` (R143) -/
  | stSubmit
  /-- `ST.TXDONE` (R142) -/
  | stTxdone
  /-- `ST.RXPKT n, b0, ..., b(n-1)` (R150) -/
  | stRxpkt (pkt : List Byte)
  /-- `FB.TAKE` (R174) -/
  | fbTake
  /-- `FB.RESET` (R175) -/
  | fbReset
  /-- `FB.SAMPLE v` (R171) -/
  | fbSample (v : Sample)
  /-- `FB.FRAME` (R172) -/
  | fbFrame
  deriving DecidableEq, Repr

end Sys2Proof
end

