-- ==== Sys2Proof/WellFormed.lean ====
section
/-! DEFINITION. The legality conditions on operands: the last column of the table of 30_encoding.md R103, with R94
and R95. -/

namespace Sys2Proof

/-- The operand of the operation is in the range the parameters allow (R94, R95, R103). -/
def wellFormed (p : Params) : Instr → Bool
  | .rbPut v => decide (v.toNat < 2 ^ p.w)
  | .rbGet => true
  | .rbIsfull => true
  | .rbIsempty => true
  | .rbLength => true
  | .stPutchar _ => true
  | .stGetchar => true
  | .stSubmit => true
  | .stTxdone => true
  | .stRxpkt pkt => decide (pkt.length ≤ p.maxPkt)
  | .fbTake => true
  | .fbReset => true
  | .fbSample v => decide (v.toNat < 2 ^ p.sw)
  | .fbFrame => true

end Sys2Proof
end

