-- ==== Sys2Proof/Decode.lean ====
section
/-! DEFINITION. Decoding of operation words and the encoder (30_encoding.md R92 to R96, R103, R105, R107). The
decoder reads the words presented on one channel, in order; it is total, and every word that is no request is
rejected by name. -/

namespace Sys2Proof

/-! ## Fields of a word (R92) -/

/-- `UNIT = word[31:28]` (R92). -/
def unitOf (w : Word) : Nat := (w.extractLsb' 28 4).toNat

/-- `OP = word[27:24]` (R92). -/
def opOf (w : Word) : Nat := (w.extractLsb' 24 4).toNat

/-- `Z = word[23:16]` (R92). -/
def zOf (w : Word) : Byte := w.extractLsb' 16 8

/-- `ARG = word[15:0]` (R92). -/
def argOf (w : Word) : BitVec 16 := w.extractLsb' 0 16

/-- `ARG[7:0]` (R94, R95). -/
def argLow (w : Word) : Byte := w.extractLsb' 0 8

/-- `ARG[15:8]` (R94, R95). -/
def argHigh (w : Word) : Byte := w.extractLsb' 8 8

/-! ## Rejections -/

/-- Why a request is illegal, after the list in R105. -/
inductive DecodeError where
  /-- `UNIT` is not 1, 2 or 3 -/
  | noUnit
  /-- the unit has no row for `OP` -/
  | noOperation
  /-- `Z` is not zero -/
  | reservedNotZero
  /-- an N-format word with a non-zero `ARG` -/
  | argNotZero
  /-- non-zero `ARG[15:8]` in `ST.PUTCHAR` or `ST.RXPKT` -/
  | argHighNotZero
  /-- a value at or above `2^W` or `2^SW` -/
  | valueOutOfRange
  /-- `n > MAXPKT` -/
  | packetTooLong
  /-- a payload word with a bit above bit 7 set -/
  | malformedPayload
  deriving DecidableEq, Repr

/-- What a header word asks for: an operation of one word, or a packet of `n` payload words (R107). -/
inductive Header where
  | op (i : Instr)
  | packet (n : Nat)
  deriving DecidableEq, Repr

/-- A complete request: an operation, or an illegal one with the reason. -/
inductive Request where
  | op (i : Instr)
  | bad (e : DecodeError)
  deriving DecidableEq, Repr

/-! ## Decoding -/

/-- N-format: `ARG` must be zero (R93). -/
def decodeN (w : Word) (i : Instr) : Except DecodeError Header :=
  if argOf w = 0 then .ok (.op i) else .error .argNotZero

/-- V-format: the value must be in range, and is not truncated (R94). -/
def decodeV (w : Word) (bound : Nat) (mk : BitVec 16 → Instr) : Except DecodeError Header :=
  if (argOf w).toNat < bound then .ok (.op (mk (argOf w))) else .error .valueOutOfRange

/-- V-format with a byte: `ARG[15:8]` must be zero (R94). -/
def decodeByte (w : Word) (mk : Byte → Instr) : Except DecodeError Header :=
  if argHigh w = 0 then .ok (.op (mk (argLow w))) else .error .argHighNotZero

/-- L-format: `ARG[15:8]` must be zero and `n` at most `MAXPKT` (R95). -/
def decodeL (w : Word) (maxPkt : Nat) : Except DecodeError Header :=
  if argHigh w = 0 then
    if (argLow w).toNat ≤ maxPkt then .ok (.packet (argLow w).toNat) else .error .packetTooLong
  else .error .argHighNotZero

/-- A header word read by the map of R103; every word that selects no row is rejected (R105). -/
def decodeHeader (p : Params) (w : Word) : Except DecodeError Header :=
  if zOf w ≠ 0 then .error .reservedNotZero else
  match unitOf w with
  | 1 =>
    match opOf w with
    | 0 => decodeV w (2 ^ p.w) .rbPut
    | 1 => decodeN w .rbGet
    | 2 => decodeN w .rbIsfull
    | 3 => decodeN w .rbIsempty
    | 4 => decodeN w .rbLength
    | _ => .error .noOperation
  | 2 =>
    match opOf w with
    | 0 => decodeByte w .stPutchar
    | 1 => decodeN w .stGetchar
    | 2 => decodeN w .stSubmit
    | 8 => decodeN w .stTxdone
    | 9 => decodeL w p.maxPkt
    | _ => .error .noOperation
  | 3 =>
    match opOf w with
    | 0 => decodeN w .fbTake
    | 1 => decodeN w .fbReset
    | 8 => decodeV w (2 ^ p.sw) .fbSample
    | 9 => decodeN w .fbFrame
    | _ => .error .noOperation
  | _ => .error .noUnit

/-- A payload word of `ST.RXPKT`: `word[7:0]` is the byte, `word[31:8]` must be zero (R96). -/
def payloadByte (w : Word) : Option Byte :=
  if w.extractLsb' 8 24 = 0 then some (w.extractLsb' 0 8) else none

/-- The bytes of a packet's payload words, or nothing if one is malformed (R95). -/
def payloadBytes : List Word → Option (List Byte)
  | [] => some []
  | w :: ws =>
    match payloadByte w, payloadBytes ws with
    | some b, some bs => some (b :: bs)
    | _, _ => none

/-- The first request among the words presented on a channel, and the words left after it (R107). `none`: no
request is complete yet, since the operation is performed when its last payload word has been accepted (R95). An
illegal header is a request of length one; a packet with a malformed payload word is illegal as a whole (R95). -/
def decode (p : Params) : List Word → Option (Request × List Word)
  | [] => none
  | h :: t =>
    match decodeHeader p h with
    | .error e => some (.bad e, t)
    | .ok (.op i) => some (.op i, t)
    | .ok (.packet n) =>
      if n ≤ t.length then
        match payloadBytes (t.take n) with
        | some bs => some (.op (.stRxpkt bs), t.drop n)
        | none => some (.bad .malformedPayload, t.drop n)
      else none

/-! ## Encoding -/

/-- The one layout of R92, with the reserved field zero. -/
def headerWord (unit op : BitVec 4) (arg : BitVec 16) : Word := unit ++ op ++ 0#8 ++ arg

/-- A byte in its payload word (R96). -/
def payloadWord (b : Byte) : Word := b.setWidth 32

/-- The words of an operation, by the map of R103 (and R95, R96 for the packet). -/
def encode : Instr → List Word
  | .rbPut v => [headerWord 1 0 v]
  | .rbGet => [headerWord 1 1 0]
  | .rbIsfull => [headerWord 1 2 0]
  | .rbIsempty => [headerWord 1 3 0]
  | .rbLength => [headerWord 1 4 0]
  | .stPutchar c => [headerWord 2 0 (c.setWidth 16)]
  | .stGetchar => [headerWord 2 1 0]
  | .stSubmit => [headerWord 2 2 0]
  | .stTxdone => [headerWord 2 8 0]
  | .stRxpkt pkt => headerWord 2 9 (BitVec.ofNat 16 pkt.length) :: pkt.map payloadWord
  | .fbTake => [headerWord 3 0 0]
  | .fbReset => [headerWord 3 1 0]
  | .fbSample v => [headerWord 3 8 v]
  | .fbFrame => [headerWord 3 9 0]

/-! ## The rows of the map -/

/-- The row of the map of R103 an operation stands on: its `match` and its `mask`. -/
def opcodeRow : Instr → Word × Word
  | .rbPut _ => (0x10000000, 0xFFFF0000)
  | .rbGet => (0x11000000, 0xFFFFFFFF)
  | .rbIsfull => (0x12000000, 0xFFFFFFFF)
  | .rbIsempty => (0x13000000, 0xFFFFFFFF)
  | .rbLength => (0x14000000, 0xFFFFFFFF)
  | .stPutchar _ => (0x20000000, 0xFFFFFF00)
  | .stGetchar => (0x21000000, 0xFFFFFFFF)
  | .stSubmit => (0x22000000, 0xFFFFFFFF)
  | .stTxdone => (0x28000000, 0xFFFFFFFF)
  | .stRxpkt _ => (0x29000000, 0xFFFFFF00)
  | .fbTake => (0x30000000, 0xFFFFFFFF)
  | .fbReset => (0x31000000, 0xFFFFFFFF)
  | .fbSample _ => (0x38000000, 0xFFFF0000)
  | .fbFrame => (0x39000000, 0xFFFFFFFF)

/-- A word selects the row of an operation: `w AND mask = match` (R103). -/
abbrev selectsRow (w : Word) (i : Instr) : Prop := w &&& (opcodeRow i).2 = (opcodeRow i).1

/-! ## The opcode table's numbering, for the host -/

/-- The words of an instruction whose low `nbits` bits are `w`, bit 0 the least significant bit of the first word,
every bit above `nbits` zero, up to the longest request (one header and 255 payload words, R95). -/
def tableWords (nbits w : Nat) : List Word :=
  (List.range 256).map fun k => BitVec.ofNat 32 ((w % 2 ^ nbits) / 2 ^ (32 * k))

/-- The operation the decoder reads from those words, with the default parameters of R5. -/
def decodeTableWord (nbits w : Nat) : Option Instr :=
  match decode Params.default (tableWords nbits w) with
  | some (.op i, _) => some i
  | _ => none

end Sys2Proof
end

