-- ==== Sys2Proof/Machine/State.lean ====
section
/-! DEFINITION. The whole state of the block, the record of 10_state.md R51, its value after construction
(R48 to R50), and beside it the model's own fields: the parameters and the environment's side of the ports
(logs 1 to 4). Plain data throughout. -/

namespace Sys2Proof.Machine

/-! ## Names -/

/-- The channels of 30_encoding.md R99, R100 and R102. -/
inductive Channel where
  /-- `rb_p`, requests of the producer role `P` -/
  | rbP
  /-- `rb_c`, requests of the consumer role `C` -/
  | rbC
  /-- `st_m`, transport requests of the main loop -/
  | stM
  /-- `st_txdone`, transmit-complete events -/
  | stTxdone
  /-- `st_rx`, receive-data events -/
  | stRx
  /-- `fb_m`, frame-buffer requests of the main loop -/
  | fbM
  /-- `fb_sample`, data-valid edges -/
  | fbSample
  /-- `fb_frame`, completed-row edges -/
  | fbFrame
  deriving DecidableEq, Repr

/-- The agents of 00_scope.md R8. -/
inductive Agent where
  /-- `P`, RB0's producer role -/
  | producer
  /-- `C`, RB0's consumer role -/
  | consumer
  /-- `M`, the main loop -/
  | mainLoop
  /-- `I_tx`, the transmit-complete handler -/
  | txHandler
  /-- `I_rx`, the receive-data handler -/
  | rxHandler
  /-- `I_s`, the sample handler -/
  | sampleHandler
  /-- `I_f`, the frame-complete handler -/
  | frameHandler
  deriving DecidableEq, Repr

/-- A result of an operation, tagged (60_exceptions.md R200, 40_ringbuffer.md R121). -/
inductive Result where
  /-- `OK` with no value -/
  | ok
  /-- `OK(v)` -/
  | okValue (v : Nat)
  /-- `OK(n, samples)` of `FB.TAKE`, `n` the length of the list (30_encoding.md R98) -/
  | okFrame (samples : List Sample)
  /-- `FULL` -/
  | full
  /-- `EMPTY(EMPTY_SENTINEL)` -/
  | empty
  /-- `SATURATED` -/
  | saturated
  /-- `NONE` -/
  | noFrame
  /-- `OVERRUN` -/
  | overrun
  /-- `ILLEGAL` -/
  | illegal
  deriving DecidableEq, Repr

/-- The `putChar` sequencer (10_state.md R43): `PIdle`, or `PWait(c, k)`. -/
inductive PutSeq where
  | idle
  | wait (c : Byte) (k : Nat)
  deriving DecidableEq, Repr

/-! ## Storage -/

/-- A storage array: the written cells, as (index, value) pairs with strictly rising indices (`Cells.Wf` in Ops);
an index that is not listed is `unwritten` (R11). `Cells Byte` is a list of `Host.Cell`. -/
abbrev Cells (α : Type) := List (Nat × α)

/-- A RingBuffer instance (R20 to R25). Its capacity is a parameter, not state (R22). -/
structure RingBuffer (α : Type) where
  storage : Cells α
  count : Nat
  readCursor : Nat
  writeCursor : Nat
  deriving DecidableEq, Repr

/-- A row slot (R35 to R37). -/
structure Slot where
  data : Cells Sample
  length : Nat
  deriving DecidableEq, Repr

/-! ## The units -/

/-- Unit U2 (R31 to R34, R43). -/
structure SerialTransport where
  rx : RingBuffer Byte
  tx : RingBuffer Byte
  txIdle : Bool
  rxIdle : Bool
  putSeq : PutSeq
  deriving DecidableEq, Repr

/-- Unit U3 (R35 to R41). -/
structure FrameBuffer where
  slots : List Slot
  writeSlot : Nat
  readSlot : Nat
  overrun : Bool
  frameCount : Nat
  busy : Bool
  deriving DecidableEq, Repr

/-- The event log: the buffers handed to `hwTransmit`, oldest first (R44). -/
structure EventLog where
  hwtx : List (List Byte)
  deriving DecidableEq, Repr

/-! ## The model's own fields -/

/-- The words presented on each channel and not yet accepted, in order of presentation (log 2). -/
structure Ports where
  rbP : List Word
  rbC : List Word
  stM : List Word
  stTxdone : List Word
  stRx : List Word
  fbM : List Word
  fbSample : List Word
  fbFrame : List Word
  deriving DecidableEq, Repr

/-- What each response channel has carried, oldest first (R97, R99, R100, R102; log 4). -/
structure Answers where
  rbP : List Result
  rbC : List Result
  stM : List Result
  fbM : List Result
  deriving DecidableEq, Repr

/-- The environment's side: whose turn comes next (R71), the words it presents, the channel whose request is being
performed (log 3), and the answers it has got. -/
structure Env where
  schedule : List Channel
  ports : Ports
  origin : Channel
  answers : Answers
  deriving DecidableEq, Repr

/-- The machine: the block's record of R51 (`rb0`, `st`, `fb`, `log`), its parameters, and the environment. -/
structure State where
  params : Params
  rb0 : RingBuffer Elem
  st : SerialTransport
  fb : FrameBuffer
  log : EventLog
  env : Env
  deriving DecidableEq, Repr

/-! ## Outcomes other than a next state -/

/-- The machine stops. No state reachable from construction stops (R65, R67). -/
inductive Fault where
  /-- A storage or data cell that nothing has written is read (R11, U4, D33). Raised by every read of a cell; safe. -/
  | readUnwritten
  /-- A cursor or position names no cell of its array, which only a hand-built state can do (R28, R65). Raised by
  every access to a cell; safe. -/
  | noSuchCell
  /-- A slot index names no slot, which only a hand-built state can do (R38, R65). Raised by the operations of unit
  U3; safe. -/
  | noSuchSlot
  deriving DecidableEq, Repr

/-- No meaning for the request. -/
inductive Refusal where
  /-- The operation has no meaning in the model yet. Raised by no arm; safe. -/
  | notModelled (mnemonic : String)
  /-- An operation of agent `M` handed to `exec` while a `putChar` of `M` is in progress (U2): `M` is sequential and
  the channel accepts nothing (R43, R100). `step` never reaches it; safe. -/
  | putCharPending
  deriving DecidableEq, Repr

/-! ## Construction (R48 to R51, R230, R231) -/

/-- A RingBuffer instance after construction (R48). -/
def RingBuffer.construct (α : Type) : RingBuffer α where
  storage := []
  count := 0
  readCursor := 0
  writeCursor := 0

/-- The SerialTransport after construction (R49). -/
def SerialTransport.construct : SerialTransport where
  rx := RingBuffer.construct Byte
  tx := RingBuffer.construct Byte
  txIdle := true
  rxIdle := true
  putSeq := .idle

/-- The FrameAcquisitionBuffer with `r` slots after construction (R50). -/
def FrameBuffer.construct (r : Nat) : FrameBuffer where
  slots := List.replicate r { data := [], length := 0 }
  writeSlot := 0
  readSlot := 0
  overrun := false
  frameCount := 0
  busy := false

/-- No words presented, nobody's turn, nothing answered (DESIGN CHOICE, logs 2 to 4). -/
def Env.construct : Env where
  schedule := []
  ports := { rbP := [], rbC := [], stM := [], stTxdone := [], stRx := [], fbM := [], fbSample := [], fbFrame := [] }
  origin := .rbP
  answers := { rbP := [], rbC := [], stM := [], fbM := [] }

/-- The machine after construction with parameters `p` (R48 to R51). -/
def State.construct (p : Params) : State where
  params := p
  rb0 := RingBuffer.construct Elem
  st := SerialTransport.construct
  fb := FrameBuffer.construct p.r
  log := { hwtx := [] }
  env := Env.construct

/-- The machine right after reset: construction (R230) with the default parameters (log 1). -/
def State.reset : State := State.construct Params.default

end Sys2Proof.Machine
end

