-- ==== Sys2Proof/Machine/Ops.lean ====
section
/-! DEFINITION. The named operations over storage, rings, slots and the state that every meaning is built from. The
four access forms of 49_other_classes.md R181 are `RingBuffer.put`, `RingBuffer.get`, `storeSample` and `loadSamples`. The block
has no exception entry and no return (60_exceptions.md R213, R214): what stands in their place is the acceptance of
a request (`State.accept`) and its answer (`State.respond`). -/

namespace Sys2Proof.Machine

/-! ## Storage arrays (20_memory.md R60 to R67) -/

/-- The cell at an index; `none` is `unwritten` (R11). -/
def Cells.read {α : Type} : Cells α → Nat → Option α
  | [], _ => none
  | (j, v) :: m, i => if j = i then some v else Cells.read m i

/-- Store a value at an index, keeping the indices strictly rising. -/
def Cells.write {α : Type} : Cells α → Nat → α → Cells α
  | [], i, v => [(i, v)]
  | (j, u) :: m, i, v =>
    if i < j then (i, v) :: (j, u) :: m
    else if j = i then (i, v) :: m
    else (j, u) :: Cells.write m i v

/-- The canonical form of an array of `bound` cells: strictly rising indices, each below `bound`. -/
abbrev Cells.Wf {α : Type} (bound : Nat) (m : Cells α) : Prop :=
  (m.map Prod.fst).Pairwise (· < ·) ∧ ∀ c ∈ m, c.1 < bound

/-- `MemRead` on an array of `bound` cells (00_scope.md R10): an index outside the array and an `unwritten` cell
fault (log 5). -/
def loadCell {α : Type} (bound : Nat) (m : Cells α) (i : Nat) : Except Fault α :=
  if i < bound then
    match m.read i with
    | some v => .ok v
    | none => .error .readUnwritten
  else .error .noSuchCell

/-- `MemWrite` on an array of `bound` cells (00_scope.md R10): an index outside the array faults (log 5). -/
def storeCell {α : Type} (bound : Nat) (m : Cells α) (i : Nat) (v : α) : Except Fault (Cells α) :=
  if i < bound then .ok (m.write i v) else .error .noSuchCell

/-- The cells at `start`, `start + 1`, ... in ascending order, `n` of them. -/
def loadCells {α : Type} (bound : Nat) (m : Cells α) (start : Nat) : Nat → Except Fault (List α)
  | 0 => .ok []
  | n + 1 =>
    match loadCell bound m start with
    | .error e => .error e
    | .ok v =>
      match loadCells bound m (start + 1) n with
      | .error e => .error e
      | .ok vs => .ok (v :: vs)

/-! ## RingBuffer (40_ringbuffer.md R120, R121) -/

/-- A cursor or index moved on by one, modulo the size (R25, R38). -/
def advance (size i : Nat) : Nat := (i + 1) % size

/-- What `put` answers: `OK` (true) or `FULL` (false). -/
abbrev PutAnswer := Bool

/-- `q.put(v)` on an instance of capacity `cap` (R120). -/
def RingBuffer.put {α : Type} (cap : Nat) (v : α) (q : RingBuffer α) : Except Fault (RingBuffer α × PutAnswer) :=
  if q.count = cap then .ok (q, false)
  else
    match storeCell cap q.storage q.writeCursor v with
    | .error e => .error e
    | .ok m =>
      .ok ({ q with storage := m, writeCursor := advance cap q.writeCursor, count := q.count + 1 }, true)

/-- `q.get()` on an instance of capacity `cap` (R121): `none` is `EMPTY`. The cell read keeps its value (R24). -/
def RingBuffer.get {α : Type} (cap : Nat) (q : RingBuffer α) : Except Fault (RingBuffer α × Option α) :=
  if q.count = 0 then .ok (q, none)
  else
    match loadCell cap q.storage q.readCursor with
    | .error e => .error e
    | .ok v => .ok ({ q with readCursor := advance cap q.readCursor, count := q.count - 1 }, some v)

/-- `put` for each value in order, ignoring each answer: the loop of the receive notification (R150). -/
def RingBuffer.putAll {α : Type} (cap : Nat) : List α → RingBuffer α → Except Fault (RingBuffer α)
  | [], q => .ok q
  | v :: vs, q =>
    match q.put cap v with
    | .error e => .error e
    | .ok (q', _) => RingBuffer.putAll cap vs q'

/-- `n` times `get`, the values in the order they come: the drain loop of `submitIfReady` (R141). -/
def RingBuffer.drain {α : Type} (cap : Nat) : Nat → RingBuffer α → Except Fault (RingBuffer α × List α)
  | 0, q => .ok (q, [])
  | n + 1, q =>
    match q.get cap with
    | .error e => .error e
    | .ok (q', none) => .ok (q', [])
    | .ok (q', some v) =>
      match RingBuffer.drain cap n q' with
      | .error e => .error e
      | .ok (q'', vs) => .ok (q'', v :: vs)

/-! ## Updates of the state -/

/-- Write RB0. -/
def State.withRb0 (s : State) (q : RingBuffer Elem) : State := { s with rb0 := q }

/-- Write `st.rx`. -/
def State.withRx (s : State) (q : RingBuffer Byte) : State := { s with st := { s.st with rx := q } }

/-- Write `st.tx`. -/
def State.withTx (s : State) (q : RingBuffer Byte) : State := { s with st := { s.st with tx := q } }

/-- Write `st.txIdle`. -/
def State.withTxIdle (s : State) (b : Bool) : State := { s with st := { s.st with txIdle := b } }

/-- Write `st.putSeq`. -/
def State.withPutSeq (s : State) (q : PutSeq) : State := { s with st := { s.st with putSeq := q } }

/-- Write unit U3. -/
def State.withFb (s : State) (f : FrameBuffer) : State := { s with fb := f }

/-- `emit HWTX(buf)`: append to the transmit event log (00_scope.md R10, 10_state.md R44). -/
def State.emitHwtx (s : State) (buf : List Byte) : State := { s with log := { hwtx := s.log.hwtx ++ [buf] } }

/-! ## The ports' side -/

/-- The words waiting on a channel. -/
def Ports.get (p : Ports) : Channel → List Word
  | .rbP => p.rbP
  | .rbC => p.rbC
  | .stM => p.stM
  | .stTxdone => p.stTxdone
  | .stRx => p.stRx
  | .fbM => p.fbM
  | .fbSample => p.fbSample
  | .fbFrame => p.fbFrame

/-- Replace the words waiting on a channel. -/
def Ports.set (p : Ports) (ch : Channel) (ws : List Word) : Ports :=
  match ch with
  | .rbP => { p with rbP := ws }
  | .rbC => { p with rbC := ws }
  | .stM => { p with stM := ws }
  | .stTxdone => { p with stTxdone := ws }
  | .stRx => { p with stRx := ws }
  | .fbM => { p with fbM := ws }
  | .fbSample => { p with fbSample := ws }
  | .fbFrame => { p with fbFrame := ws }

/-- A result sent on the response channel that belongs to a channel; an event input has none (R110). -/
def Answers.push (a : Answers) (ch : Channel) (r : Result) : Answers :=
  match ch with
  | .rbP => { a with rbP := a.rbP ++ [r] }
  | .rbC => { a with rbC := a.rbC ++ [r] }
  | .stM => { a with stM := a.stM ++ [r] }
  | .fbM => { a with fbM := a.fbM ++ [r] }
  | .stTxdone => a
  | .stRx => a
  | .fbSample => a
  | .fbFrame => a

/-- What a channel's response side has carried so far; nothing for an event input. -/
def Answers.get (a : Answers) : Channel → List Result
  | .rbP => a.rbP
  | .rbC => a.rbC
  | .stM => a.stM
  | .fbM => a.fbM
  | .stTxdone => []
  | .stRx => []
  | .fbSample => []
  | .fbFrame => []

/-- `result r`: answer the agent that issued the operation (R200: the block records it nowhere else). -/
def State.respond (s : State) (r : Result) : State :=
  { s with env := { s.env with answers := s.env.answers.push s.env.origin r } }

/-- The request now performed comes from channel `ch`. -/
def State.withOrigin (s : State) (ch : Channel) : State := { s with env := { s.env with origin := ch } }

/-- The turn at the head of the schedule is used up. -/
def State.popTurn (s : State) : State := { s with env := { s.env with schedule := s.env.schedule.tail } }

/-- Accept a request from channel `ch`: its turn is used up, its words are taken (`rest` stays), and answers go back
to that channel. This is all the entry there is: the block saves nothing and switches nothing (R213). -/
def State.accept (s : State) (ch : Channel) (rest : List Word) : State :=
  { s with env :=
      { s.env with schedule := s.env.schedule.tail, ports := s.env.ports.set ch rest, origin := ch } }

/-- Present a request's words on a channel and give the channel a turn after all the turns given before. -/
def State.present (s : State) (ch : Channel) (ws : List Word) : State :=
  { s with env :=
      { s.env with schedule := s.env.schedule ++ [ch], ports := s.env.ports.set ch (s.env.ports.get ch ++ ws) } }

/-- A list of requests presented one after the other. -/
def State.presentAll (s : State) : List (Channel × List Word) → State
  | [] => s
  | (ch, ws) :: reqs => (s.present ch ws).presentAll reqs

/-- A reset input, where an implementation has one: the block goes to its construction state (R230, log 20). The
parameters stay (R6), and so does what the environment has presented and been answered. -/
def State.assertReset (s : State) : State := { State.construct s.params with env := s.env }

/-! ## Outcomes -/

/-- A computation that may fault, as the outcome of a step. -/
def settle (x : Except Fault State) : Host.Outcome State Fault Refusal :=
  match x with
  | .ok s => .next s
  | .error e => .fault e

end Sys2Proof.Machine
end

