-- ==== Sys2Proof/Machine/Operands.lean ====
section
/-! DEFINITION. Who may issue what, and the check every operation begins with: the channel takes the operation and
its operand is in range, or the request is illegal (30_encoding.md R99, R100, R102, R105; 60_exceptions.md R208,
R212, R216). -/

namespace Sys2Proof.Machine

/-- The agent behind a channel (00_scope.md R8; 30_encoding.md R99, R100, R102). -/
def Channel.agent : Channel → Agent
  | .rbP => .producer
  | .rbC => .consumer
  | .stM => .mainLoop
  | .fbM => .mainLoop
  | .stTxdone => .txHandler
  | .stRx => .rxHandler
  | .fbSample => .sampleHandler
  | .fbFrame => .frameHandler

/-- Whether a channel has a response channel; event inputs have none (R110). -/
def Channel.answers : Channel → Bool
  | .rbP => true
  | .rbC => true
  | .stM => true
  | .fbM => true
  | .stTxdone => false
  | .stRx => false
  | .fbSample => false
  | .fbFrame => false

/-- Whether a channel accepts an operation (R99, R100, R102). -/
def Channel.accepts (ch : Channel) : Instr → Bool
  | .rbPut _ => ch == .rbP
  | .rbGet => ch == .rbC
  | .rbIsfull => ch == .rbP || ch == .rbC
  | .rbIsempty => ch == .rbP || ch == .rbC
  | .rbLength => ch == .rbP || ch == .rbC
  | .stPutchar _ => ch == .stM
  | .stGetchar => ch == .stM
  | .stSubmit => ch == .stM
  | .stTxdone => ch == .stTxdone
  | .stRxpkt _ => ch == .stRx
  | .fbTake => ch == .fbM
  | .fbReset => ch == .fbM
  | .fbSample _ => ch == .fbSample
  | .fbFrame => ch == .fbFrame

/-- The channel an operation is issued on when nothing else is said: the only one that takes it, and `rb_c` for an
observer (R111). -/
def homeChannel : Instr → Channel
  | .rbPut _ => .rbP
  | .rbGet => .rbC
  | .rbIsfull => .rbC
  | .rbIsempty => .rbC
  | .rbLength => .rbC
  | .stPutchar _ => .stM
  | .stGetchar => .stM
  | .stSubmit => .stM
  | .stTxdone => .stTxdone
  | .stRxpkt _ => .stRx
  | .fbTake => .fbM
  | .fbReset => .fbM
  | .fbSample _ => .fbSample
  | .fbFrame => .fbFrame

/-- `M` waits for its own `putChar`: the sequencer is `PWait` (10_state.md R43). -/
def PutSeq.pending : PutSeq → Bool
  | .idle => false
  | .wait _ _ => true

/-- The request is legal: its channel takes the operation and its operand is in range (R105). -/
def State.legal (s : State) (i : Instr) : Bool := s.env.origin.accepts i && wellFormed s.params i

/-- An illegal request: no state changes; answered `ILLEGAL` on a channel with a response, dropped on an event input
(R105, R208). -/
def State.answerIllegal (s : State) : State := s.respond .illegal

/-- The frame of every operation. `ILLEGAL` is decided before any condition on the state is looked at (R212). An
operation of `M` while a `putChar` of `M` is in progress is no behaviour of the block (R43, R100, U2; log 7). -/
def perform (i : Instr) (s : State) (effect : Host.Outcome State Fault Refusal) : Host.Outcome State Fault Refusal :=
  if s.legal i then
    if s.env.origin.agent = .mainLoop ∧ s.st.putSeq.pending then .refused .putCharPending else effect
  else .next s.answerIllegal

end Sys2Proof.Machine
end

