-- ==== Sys2Proof/Machine/Flags.lean ====
section
/-! DEFINITION. The status outputs, valid at all times (10_state.md R26, R29; 30_encoding.md R99, R100, R102), and
the word forms of results and of the transmit event (R97, R98, R101; 60_exceptions.md R201). -/

namespace Sys2Proof.Machine

/-! ## Status outputs -/

/-- `q.full` (R26, R29). -/
def RingBuffer.full {α : Type} (cap : Nat) (q : RingBuffer α) : Bool := q.count == cap

/-- `q.empty` (R26, R29). -/
def RingBuffer.empty {α : Type} (q : RingBuffer α) : Bool := q.count == 0

/-- `q.length` (R29). -/
def RingBuffer.length {α : Type} (q : RingBuffer α) : Nat := q.count

/-- A status bit as the number an observer returns: 1 for true, 0 for false (R97). -/
def bitValue (b : Bool) : Nat := if b then 1 else 0

/-- The status outputs of the block (R99, R100, R102) and the `busy` pin. -/
structure StatusOutputs where
  full : Bool
  empty : Bool
  length : Nat
  txIdle : Bool
  rxIdle : Bool
  overrun : Bool
  frameCount : Nat
  busy : Bool
  deriving DecidableEq, Repr

/-- The levels of the outputs in a state. `rxIdle` is read through the free function of Config: the spec gives a
reader any value (R33, U3; log 9). -/
def State.outputs (s : State) : StatusOutputs where
  full := s.rb0.full s.params.cap
  empty := s.rb0.empty
  length := s.rb0.length
  txIdle := s.st.txIdle
  rxIdle := Config.rxIdlePin s.st.rxIdle
  overrun := s.fb.overrun
  frameCount := s.fb.frameCount
  busy := s.fb.busy

/-! ## Widths of the status outputs and registers (10_state.md R28, R37, R38) -/

/-- The width of a cursor or slot index over `size` places: `max(1, ceil(log2 size))`. -/
def indexWidth (size : Nat) : Nat := max 1 (Nat.clog 2 size)

/-- The width of a counter from 0 to `top`: `ceil(log2(top + 1))`. -/
def countWidth (top : Nat) : Nat := Nat.clog 2 (top + 1)

/-! ## Response words -/

/-- The status code of a result (R201). -/
def Result.status : Result → BitVec 4
  | .ok => 0x0
  | .okValue _ => 0x0
  | .okFrame _ => 0x0
  | .full => 0x1
  | .empty => 0x2
  | .saturated => 0x3
  | .noFrame => 0x4
  | .overrun => 0x5
  | .illegal => 0xF

/-- The value a result carries in `VAL`, as a number of any size (R97, R98). -/
def Result.value (p : Params) : Result → Nat
  | .ok => 0
  | .okValue v => v
  | .okFrame samples => samples.length
  | .full => 0
  | .empty => (BitVec.ofInt 16 p.emptySentinel).toNat
  | .saturated => 0
  | .noFrame => 0
  | .overrun => 0
  | .illegal => 0

/-- The payload words that follow a response: the samples of `FB.TAKE`, position 0 first (R96, R98). -/
def Result.payload : Result → List Word
  | .ok => []
  | .okValue _ => []
  | .okFrame samples => samples.map (·.setWidth 32)
  | .full => []
  | .empty => []
  | .saturated => []
  | .noFrame => []
  | .overrun => []
  | .illegal => []

/-- The layout of a response word: `STATUS[31:28]`, zeros, `VAL[15:0]` (R97). -/
def responseWord (status : BitVec 4) (val : BitVec 16) : Word := status ++ 0#12 ++ val

/-- The words of a response (R97, R98). A value above 65535 has no encoded form: R97 limits capacities to 65535 "if
this form is used" (log 18). -/
def Result.words (p : Params) (r : Result) : Option (List Word) :=
  if r.value p < 65536 then some (responseWord r.status (BitVec.ofNat 16 (r.value p)) :: r.payload) else none

/-- The words of the `st_hwtx` event of a buffer (R101): header `0x2F0000nn` and one payload word per byte. -/
def hwtxWords (buf : List Byte) : List Word :=
  headerWord 0x2 0xF (BitVec.ofNat 16 buf.length) :: buf.map payloadWord

end Sys2Proof.Machine
end

