-- ==== Sys2Proof/Machine/Frame.lean ====
section
/-! DEFINITION. Unit U3, the operations of the FrameAcquisitionBuffer (42_frame_buffer.md R170 to R178). -/

namespace Sys2Proof.Machine

/-- Store a sample at a slot's current length (R62, R171), or drop it when the slot is full (R207). -/
def storeSample (maxPos : Nat) (v : Sample) (sl : Slot) : Except Fault Slot :=
  if sl.length < maxPos then
    match storeCell maxPos sl.data sl.length v with
    | .error e => .error e
    | .ok m => .ok { data := m, length := sl.length + 1 }
  else .ok sl

/-- The samples of the frame a slot holds, positions ascending (R62, R174). -/
def loadSamples (maxPos : Nat) (sl : Slot) : Except Fault (List Sample) := loadCells maxPos sl.data 0 sl.length

/-- The slot with its `length` cleared; its data cells stay (R36, R172, R175). -/
def Slot.cleared (sl : Slot) : Slot := { sl with length := 0 }

/-- `fb.slots[k].length <- 0`. -/
def clearSlot (slots : List Slot) (k : Nat) : Except Fault (List Slot) :=
  match slots[k]? with
  | none => .error .noSuchSlot
  | some sl => .ok (slots.set k sl.cleared)

/-- The sample handler's effect on unit U3 (R171). -/
def FrameBuffer.sample (p : Params) (v : Sample) (f : FrameBuffer) : Except Fault FrameBuffer :=
  match f.slots[f.writeSlot]? with
  | none => .error .noSuchSlot
  | some sl =>
    match storeSample p.maxPos v sl with
    | .error e => .error e
    | .ok sl' => .ok { f with slots := f.slots.set f.writeSlot sl' }

/-- The frame-complete handler's effect on unit U3 (R172): the overrun test is 90_conflicts.md C1's, and `busy` is
asserted in the overrun branch only (log 10). -/
def FrameBuffer.frame (p : Params) (f : FrameBuffer) : Except Fault FrameBuffer :=
  let count := (f.frameCount + 1) % 2 ^ p.fcw
  let next := advance p.r f.writeSlot
  if next = f.readSlot then
    match clearSlot f.slots f.writeSlot with
    | .error e => .error e
    | .ok slots =>
      .ok { f with slots := slots, overrun := true, busy := f.busy || !p.continuous, frameCount := count }
  else
    match clearSlot f.slots next with
    | .error e => .error e
    | .ok slots => .ok { f with slots := slots, writeSlot := next, frameCount := count }

/-- `tryTake` on unit U3 (R174): `OVERRUN` first, then `NONE`, else the oldest frame. -/
def FrameBuffer.take (p : Params) (f : FrameBuffer) : Except Fault (FrameBuffer × Result) :=
  if f.overrun then .ok (f, .overrun)
  else if f.readSlot = f.writeSlot then .ok (f, .noFrame)
  else
    match f.slots[f.readSlot]? with
    | none => .error .noSuchSlot
    | some sl =>
      match loadSamples p.maxPos sl with
      | .error e => .error e
      | .ok dest => .ok ({ f with readSlot := advance p.r f.readSlot }, .okFrame dest)

/-- `reset()` on unit U3 (R175): every `length`, both indices, both flags and the counter; no data cell. -/
def FrameBuffer.reset (f : FrameBuffer) : FrameBuffer where
  slots := f.slots.map Slot.cleared
  writeSlot := 0
  readSlot := 0
  overrun := false
  frameCount := 0
  busy := false

/-- `FB.TAKE` (R174). -/
def execFbTake (s : State) : Host.Outcome State Fault Refusal :=
  perform .fbTake s <|
    match s.fb.take s.params with
    | .error e => .fault e
    | .ok (f, r) => .next ((s.withFb f).respond r)

/-- `FB.RESET` (R175). -/
def execFbReset (s : State) : Host.Outcome State Fault Refusal :=
  perform .fbReset s <| .next ((s.withFb s.fb.reset).respond .ok)

/-- `FB.SAMPLE v` (R171). -/
def execFbSample (v : Sample) (s : State) : Host.Outcome State Fault Refusal :=
  perform (.fbSample v) s <|
    match s.fb.sample s.params v with
    | .error e => .fault e
    | .ok f => .next (s.withFb f)

/-- `FB.FRAME` (R172). -/
def execFbFrame (s : State) : Host.Outcome State Fault Refusal :=
  perform .fbFrame s <|
    match s.fb.frame s.params with
    | .error e => .fault e
    | .ok f => .next (s.withFb f)

end Sys2Proof.Machine
end

