-- ==== Sys2Proof/Machine/RingBuffer.lean ====
section
/-! DEFINITION. Unit U1, the operations on RB0 (40_ringbuffer.md R120 to R124). -/

namespace Sys2Proof.Machine

/-- `RB.PUT v` (R120). -/
def execRbPut (v : Elem) (s : State) : Host.Outcome State Fault Refusal :=
  perform (.rbPut v) s <|
    match s.rb0.put s.params.cap v with
    | .error e => .fault e
    | .ok (q, stored) => .next ((s.withRb0 q).respond (if stored then .ok else .full))

/-- `RB.GET` (R121). -/
def execRbGet (s : State) : Host.Outcome State Fault Refusal :=
  perform .rbGet s <|
    match s.rb0.get s.params.cap with
    | .error e => .fault e
    | .ok (q, none) => .next ((s.withRb0 q).respond .empty)
    | .ok (q, some v) => .next ((s.withRb0 q).respond (.okValue v.toNat))

/-- `RB.ISFULL` (R122). -/
def execRbIsfull (s : State) : Host.Outcome State Fault Refusal :=
  perform .rbIsfull s <| .next (s.respond (.okValue (bitValue (s.rb0.full s.params.cap))))

/-- `RB.ISEMPTY` (R123). -/
def execRbIsempty (s : State) : Host.Outcome State Fault Refusal :=
  perform .rbIsempty s <| .next (s.respond (.okValue (bitValue s.rb0.empty)))

/-- `RB.LENGTH` (R124). -/
def execRbLength (s : State) : Host.Outcome State Fault Refusal :=
  perform .rbLength s <| .next (s.respond (.okValue s.rb0.length))

end Sys2Proof.Machine
end

