-- ==== Sys2Proof/Machine/Serial.lean ====
section
/-! DEFINITION. Unit U2, the operations of the SerialTransport (41_serial_transport.md R140 to R151), with the
sub-operations `submitIfReady` and `commit` and the phases of `putChar` that no word asks for. -/

namespace Sys2Proof.Machine

/-- `submitIfReady()` (R141). -/
def submitIfReady (s : State) : Except Fault State :=
  if s.st.txIdle then
    match s.st.tx.drain s.params.txCap (min s.st.tx.count s.params.maxPkt) with
    | .error e => .error e
    | .ok (q, buf) =>
      if buf.length ≥ 1 then .ok (((s.withTx q).emitHwtx buf).withTxIdle false) else .ok (s.withTx q)
  else .ok s

/-- `commit(c)`, the enqueue-and-maybe-kick sequence, called only when `tx` is not full (R145). -/
def commit (c : Byte) (s : State) : Except Fault State :=
  match s.st.tx.put s.params.txCap c with
  | .error e => .error e
  | .ok (q, _) => if s.st.txIdle then submitIfReady (s.withTx q) else .ok (s.withTx q)

/-- End a `putChar` whose byte has been committed: the sequencer is idle and the result is `OK`. -/
def putCharDone (x : Except Fault State) : Host.Outcome State Fault Refusal :=
  match x with
  | .error e => .fault e
  | .ok s => .next ((s.withPutSeq .idle).respond .ok)

/-- `ST.PUTCHAR c`, the issue phase (R146). -/
def putCharIssue (c : Byte) (s : State) : Host.Outcome State Fault Refusal :=
  if s.st.tx.count < s.params.txCap then putCharDone (commit c s)
  else .next (s.withPutSeq (.wait c s.params.putRetries))

/-- The retry phase, with `k + 1` retries left (R147). -/
def putCharRetry (c : Byte) (k : Nat) (s : State) : Host.Outcome State Fault Refusal :=
  if s.st.tx.count < s.params.txCap then putCharDone (commit c s)
  else .next (s.withPutSeq (.wait c k))

/-- The exhausted phase (R148): one forced `submitIfReady`, then the last test. -/
def putCharExhausted (c : Byte) (s : State) : Host.Outcome State Fault Refusal :=
  match submitIfReady s with
  | .error e => .fault e
  | .ok s' =>
    if s'.st.tx.count = s'.params.txCap then .next ((s'.withPutSeq .idle).respond .saturated)
    else putCharDone (commit c s')

/-- The step agent `M` takes while the sequencer is `PWait(c, k)` (R147, R148). -/
def putCharPhase (c : Byte) (k : Nat) (s : State) : Host.Outcome State Fault Refusal :=
  match k with
  | 0 => putCharExhausted c s
  | k + 1 => putCharRetry c k s

/-- `ST.PUTCHAR c` (R146). -/
def execStPutchar (c : Byte) (s : State) : Host.Outcome State Fault Refusal :=
  perform (.stPutchar c) s <| putCharIssue c s

/-- `ST.GETCHAR` (R144). -/
def execStGetchar (s : State) : Host.Outcome State Fault Refusal :=
  perform .stGetchar s <|
    match s.st.rx.get s.params.rxCap with
    | .error e => .fault e
    | .ok (q, none) => .next ((s.withRx q).respond .empty)
    | .ok (q, some b) => .next ((s.withRx q).respond (.okValue b.toNat))

/-- `ST.SUBMIT` (R143). -/
def execStSubmit (s : State) : Host.Outcome State Fault Refusal :=
  perform .stSubmit s <|
    match submitIfReady s with
    | .error e => .fault e
    | .ok s' => .next (s'.respond .ok)

/-- `ST.TXDONE`, the transmit-complete notification (R142): the transfer is no longer outstanding, then
`submitIfReady`. -/
def execStTxdone (s : State) : Host.Outcome State Fault Refusal :=
  perform .stTxdone s <| settle (submitIfReady (s.withTxIdle true))

/-- `ST.RXPKT`, the receive-data notification (R150): every byte is put in order, each answer ignored; what does not
fit is lost without a trace (R151, R206). -/
def execStRxpkt (pkt : List Byte) (s : State) : Host.Outcome State Fault Refusal :=
  perform (.stRxpkt pkt) s <|
    match s.st.rx.putAll s.params.rxCap pkt with
    | .error e => .fault e
    | .ok q => .next (s.withRx q)

end Sys2Proof.Machine
end

