-- ==== Sys2Proof/Machine/Dispatch.lean ====
section
/-! DEFINITION. The dispatch of the fourteen operations to their meanings, one arm each. -/

namespace Sys2Proof.Machine

def exec (i : Instr) (s : State) : Host.Outcome State Fault Refusal :=
  match i with
  | .rbPut v => Sys2Proof.Machine.execRbPut v s
  | .rbGet => Sys2Proof.Machine.execRbGet s
  | .rbIsfull => Sys2Proof.Machine.execRbIsfull s
  | .rbIsempty => Sys2Proof.Machine.execRbIsempty s
  | .rbLength => Sys2Proof.Machine.execRbLength s
  | .stPutchar c => Sys2Proof.Machine.execStPutchar c s
  | .stGetchar => Sys2Proof.Machine.execStGetchar s
  | .stSubmit => Sys2Proof.Machine.execStSubmit s
  | .stTxdone => Sys2Proof.Machine.execStTxdone s
  | .stRxpkt pkt => Sys2Proof.Machine.execStRxpkt pkt s
  | .fbTake => Sys2Proof.Machine.execFbTake s
  | .fbReset => Sys2Proof.Machine.execFbReset s
  | .fbSample v => Sys2Proof.Machine.execFbSample v s
  | .fbFrame => Sys2Proof.Machine.execFbFrame s

end Sys2Proof.Machine
end

