-- ==== Sys2Proof/Machine/Fetch.lean ====
section
/-! DEFINITION. What the next step is: whose turn it is, what that agent does, and which request its channel presents
(00_scope.md R7, R8; 20_memory.md R71, R77; 30_encoding.md R107). The order of turns is data (log 2), so a statement
about every state is a statement about every order. -/

namespace Sys2Proof.Machine

/-- What a turn comes to. -/
inductive Turn where
  /-- Nobody's turn, or the channel presents no complete request (logs 2 and 17). -/
  | idle (s : State)
  /-- The next phase of agent `M`'s `putChar` (R147, R148). -/
  | phase (c : Byte) (k : Nat) (s : State)
  /-- An illegal request has been accepted (R105). -/
  | illegal (s : State)
  /-- An operation has been accepted. -/
  | run (i : Instr) (s : State)
  deriving DecidableEq, Repr

/-- A turn of channel `ch`: agent `M` with a `putChar` in progress takes its next phase, whichever of its channels the
turn names, and accepts no word (R43, R100; log 8); otherwise the channel's next request is accepted. -/
def turnOf (ch : Channel) (s : State) : Turn :=
  match ch.agent, s.st.putSeq with
  | .mainLoop, .wait c k => .phase c k (s.popTurn.withOrigin .stM)
  | _, _ =>
    match decode s.params (s.env.ports.get ch) with
    | none => .idle s.popTurn
    | some (.bad _, rest) => .illegal (s.accept ch rest)
    | some (.op i, rest) => .run i (s.accept ch rest)

/-- The next turn of the schedule. -/
def nextTurn (s : State) : Turn :=
  match s.env.schedule with
  | [] => .idle s
  | ch :: _ => turnOf ch s

/-- The channel the host's numbering of a word stands on: the operation's own, and `rb_p` for an illegal word. -/
def fetchChannel (p : Params) (ws : List Word) : Channel :=
  match decode p ws with
  | some (.op i, _) => homeChannel i
  | _ => .rbP

/-- The words of the first request among `ws`. -/
def firstRequest (p : Params) (ws : List Word) : List Word :=
  match decode p ws with
  | some (_, rest) => ws.take (ws.length - rest.length)
  | none => ws

/-- The state whose very next step accepts the request `ws` on channel `ch`: its words stand first on the channel, its
turn comes first, and agent `M` is free where the channel is `M`'s (log 22). -/
def State.fetching (s : State) (ch : Channel) (ws : List Word) : State :=
  let s := if ch.agent = .mainLoop then s.withPutSeq .idle else s
  { s with env :=
      { s.env with schedule := ch :: s.env.schedule, ports := s.env.ports.set ch (ws ++ s.env.ports.get ch) } }

/-- `State.fetching` for an instruction as the opcode table numbers its bits. -/
def State.fetchTableWord (s : State) (nbits w : Nat) : State :=
  let ws := firstRequest s.params (tableWords nbits w)
  s.fetching (fetchChannel s.params ws) ws

end Sys2Proof.Machine
end

