-- ==== Sys2Proof/Machine/Step.lean ====
section
/-! DEFINITION. One step of the machine: one operation, or one phase of `putChar`, as one indivisible transition of
the whole state (00_scope.md R7). -/

namespace Sys2Proof.Machine

/-- The step the schedule asks for next. -/
def step (s : State) : Host.Outcome State Fault Refusal :=
  match nextTurn s with
  | .idle s' => .next s'
  | .phase c k s' => putCharPhase c k s'
  | .illegal s' => .next s'.answerIllegal
  | .run i s' => exec i s'

/-- `s` with an instruction placed where the next step accepts it (log 22). -/
def State.withFetchWord (s : State) (nbits w : Nat) : State := s.fetchTableWord nbits w

end Sys2Proof.Machine
end

