-- ==== Sys2Proof/Machine/Preempt.lean ====
section
/-! DEFINITION. Below the indivisible step (70_reset_and_hazards.md R238 to R240): `put` and `get` action by action,
their interleavings, a `getChar` preempted by whole packets, and `tryTake` split where R240 splits it. `step` uses none of
this: the block's operations are indivisible (R7). -/

namespace Sys2Proof.Machine

/-! ## One `put` against one `get` on one instance (R238) -/

/-- Where a `put` stands: before its test, store, cursor advance or increment, or at its end with its answer. -/
inductive PutAction where
  | test
  | store
  | advance
  | increment
  | done (stored : PutAnswer)
  deriving DecidableEq, Repr

/-- Where a `get` stands: before its test or read, before its cursor advance or decrement with the value it has read,
or at its end with its answer. -/
inductive GetAction (α : Type) where
  | test
  | read
  | advance (v : α)
  | decrement (v : α)
  | done (answer : Option α)
  deriving DecidableEq, Repr

/-- One action of `put(v)` (R120). -/
def PutAction.act {α : Type} (cap : Nat) (v : α) (q : RingBuffer α) : PutAction → Except Fault (PutAction × RingBuffer α)
  | .test => .ok (if q.count = cap then .done false else .store, q)
  | .store =>
    match storeCell cap q.storage q.writeCursor v with
    | .error e => .error e
    | .ok m => .ok (.advance, { q with storage := m })
  | .advance => .ok (.increment, { q with writeCursor := Machine.advance cap q.writeCursor })
  | .increment => .ok (.done true, { q with count := q.count + 1 })
  | .done b => .ok (.done b, q)

/-- One action of `get()` (R121). -/
def GetAction.act {α : Type} (cap : Nat) (q : RingBuffer α) : GetAction α → Except Fault (GetAction α × RingBuffer α)
  | .test => .ok (if q.count = 0 then .done none else .read, q)
  | .read =>
    match loadCell cap q.storage q.readCursor with
    | .error e => .error e
    | .ok v => .ok (.advance v, q)
  | .advance v => .ok (.decrement v, { q with readCursor := Machine.advance cap q.readCursor })
  | .decrement v => .ok (.done (some v), { q with count := q.count - 1 })
  | .done a => .ok (.done a, q)

/-- How many elements a `put` has published: its increment, the last action, publishes the one it stores. -/
def PutAction.published : PutAction → Nat
  | .done true => 1
  | .done false => 0
  | .test => 0
  | .store => 0
  | .advance => 0
  | .increment => 0

/-- How many elements a `get` has released: its decrement, the last action, releases the one it has read. -/
def GetAction.released {α : Type} : GetAction α → Nat
  | .done (some _) => 1
  | .done none => 0
  | .test => 0
  | .read => 0
  | .advance _ => 0
  | .decrement _ => 0

/-- A `put` and a `get` in progress on one instance. -/
structure PutGet (α : Type) where
  putAt : PutAction
  getAt : GetAction α
  ring : RingBuffer α
  deriving DecidableEq, Repr

/-- Both about to begin. -/
def PutGet.start {α : Type} (q : RingBuffer α) : PutGet α := { putAt := .test, getAt := .test, ring := q }

/-- The actions taken in the order of a list: `true` is the `put`'s turn, `false` the `get`'s. -/
def PutGet.run {α : Type} (cap : Nat) (v : α) : List Bool → PutGet α → Except Fault (PutGet α)
  | [], x => .ok x
  | true :: turns, x =>
    match x.putAt.act cap v x.ring with
    | .error e => .error e
    | .ok (a, q) => PutGet.run cap v turns { x with putAt := a, ring := q }
  | false :: turns, x =>
    match x.getAt.act cap x.ring with
    | .error e => .error e
    | .ok (a, q) => PutGet.run cap v turns { x with getAt := a, ring := q }

/-- The whole `put` before the whole `get`: the answers and the ring. -/
def putThenGet {α : Type} (cap : Nat) (v : α) (q : RingBuffer α) : Except Fault (PutAnswer × Option α × RingBuffer α) :=
  match q.put cap v with
  | .error e => .error e
  | .ok (q', stored) =>
    match q'.get cap with
    | .error e => .error e
    | .ok (q'', answer) => .ok (stored, answer, q'')

/-- The whole `get` before the whole `put`: the answers and the ring. -/
def getThenPut {α : Type} (cap : Nat) (v : α) (q : RingBuffer α) : Except Fault (PutAnswer × Option α × RingBuffer α) :=
  match q.get cap with
  | .error e => .error e
  | .ok (q', answer) =>
    match q'.put cap v with
    | .error e => .error e
    | .ok (q'', stored) => .ok (stored, answer, q'')

/-! ## A `getChar` preempted by the receive handler (R239) -/

/-- A `get` on `rx` in progress. -/
structure PreemptedGet (α : Type) where
  getAt : GetAction α
  ring : RingBuffer α
  deriving DecidableEq, Repr

/-- A `get` about to begin. -/
def PreemptedGet.start {α : Type} (q : RingBuffer α) : PreemptedGet α := { getAt := .test, ring := q }

/-- The `get`'s actions and the packets that fall between them, in the order of a list: `none` is the `get`'s next action,
`some pkt` a receive-data notification, which runs whole once it starts (R150, R239). -/
def PreemptedGet.run {α : Type} (cap : Nat) : List (Option (List α)) → PreemptedGet α → Except Fault (PreemptedGet α)
  | [], x => .ok x
  | none :: turns, x =>
    match x.getAt.act cap x.ring with
    | .error e => .error e
    | .ok (a, q) => PreemptedGet.run cap turns { getAt := a, ring := q }
  | some pkt :: turns, x =>
    match x.ring.putAll cap pkt with
    | .error e => .error e
    | .ok q => PreemptedGet.run cap turns { x with ring := q }

/-- A `get` preempted by one packet after `n` of its actions and then carried to its end, which takes at most the four
actions of R121. -/
def getAcrossPacket {α : Type} (cap : Nat) (pkt : List α) (n : Nat) (q : RingBuffer α) : Except Fault (PreemptedGet α) :=
  PreemptedGet.run cap (List.replicate n none ++ some pkt :: List.replicate 4 none) (PreemptedGet.start q)

/-- The packets `before` whole, then the whole `get`, then the packets `after` whole: the answer and the ring. With one
packet before and none after this is the order "packet first" of R239, the other way round "`getChar` first". -/
def getBetweenPackets {α : Type} (cap : Nat) (before after : List (List α)) (q : RingBuffer α) :
    Except Fault (Option α × RingBuffer α) :=
  match q.putAll cap before.flatten with
  | .error e => .error e
  | .ok q₁ =>
    match q₁.get cap with
    | .error e => .error e
    | .ok (q₂, answer) =>
      match q₂.putAll cap after.flatten with
      | .error e => .error e
      | .ok q₃ => .ok (answer, q₃)

/-! ## `tryTake` split at its test (R240) -/

/-- The test of a preemptible `tryTake`: whether it goes on to copy. -/
def FrameBuffer.takeTest (f : FrameBuffer) : Bool := !f.overrun && f.readSlot != f.writeSlot

/-- The rest of a preemptible `tryTake` whose test succeeded: copy, advance, answer. -/
def FrameBuffer.takeFinish (p : Params) (f : FrameBuffer) : Except Fault (FrameBuffer × Result) :=
  match f.slots[f.readSlot]? with
  | none => .error .noSuchSlot
  | some sl =>
    match loadSamples p.maxPos sl with
    | .error e => .error e
    | .ok dest => .ok ({ f with readSlot := advance p.r f.readSlot }, .okFrame dest)

end Sys2Proof.Machine
end

