-- ==== Sys2Proof/Machine/Pseudo.lean ====
section
/-! DEFINITION. The pseudo-operations of 30_encoding.md R112: fixed expansions into requests, each with the channel
it is presented on. They have no encoding and no meaning of their own. -/

namespace Sys2Proof.Machine

/-- An operation as a request on its own channel. -/
def request (i : Instr) : Channel × List Word := (homeChannel i, encode i)

/-- `FB.CYCLE v1, ..., vk`: the samples in order, then the frame-complete edge. -/
def fbCycle (vs : List Sample) : List (Channel × List Word) := vs.map (fun v => request (.fbSample v)) ++ [request .fbFrame]

/-- `FB.CYCLE` once for each list of samples. -/
def fbCycles : List (List Sample) → List (Channel × List Word)
  | [] => []
  | vs :: vss => fbCycle vs ++ fbCycles vss

/-- `ST.PUTS`: one `ST.PUTCHAR` for each byte. Each is run to its result before the next is issued because agent `M` is
sequential (R43). -/
def stPuts (cs : List Byte) : List (Channel × List Word) := cs.map fun c => request (.stPutchar c)

end Sys2Proof.Machine
end

