-- ==== Sys2Proof/Safety.lean ====
section
/-! DEFINITION. The terms claims are stated in: what the queues and the ring of frames hold, when the block is at rest,
and the invariant that holds of every state reachable from construction. -/

namespace Sys2Proof.Machine

/-! ## What the units hold -/

/-- The elements a queue holds, oldest first (10_state.md R27). -/
def RingBuffer.held {α : Type} (cap : Nat) (q : RingBuffer α) : List α :=
  (List.range q.count).filterMap fun i => q.storage.read ((q.readCursor + i) % cap)

/-- One of the first `n` cells a sequence of `get`s would read is `unwritten` (00_scope.md R11), which only a hand-built
state can have (20_memory.md R67). -/
abbrev RingBuffer.MeetsUnwritten {α : Type} (cap n : Nat) (q : RingBuffer α) : Prop :=
  ∃ i, i < n ∧ q.storage.read ((q.readCursor + i) % cap) = none

/-- The transmit stream: every byte handed to the hardware, then the bytes waiting in `tx` (41_serial_transport.md
R149). -/
def State.txStream (s : State) : List Byte := s.log.hwtx.flatten ++ s.st.tx.held s.params.txCap

/-- The samples a slot holds, position 0 first (10_state.md R37). -/
def Slot.samples (sl : Slot) : List Sample := (List.range sl.length).filterMap sl.data.read

/-- The slot with a given index; an empty one where there is none. -/
def FrameBuffer.slotAt (f : FrameBuffer) (k : Nat) : Slot := (f.slots[k]?).getD { data := [], length := 0 }

/-- How many completed frames wait: `(writeSlot - readSlot) mod R` (42_frame_buffer.md R170). -/
def FrameBuffer.waitingCount (p : Params) (f : FrameBuffer) : Nat := (f.writeSlot + p.r - f.readSlot) % p.r

/-- The completed frames waiting to be taken, oldest first (R170, R173). -/
def FrameBuffer.waiting (p : Params) (f : FrameBuffer) : List (List Sample) :=
  (List.range (f.waitingCount p)).map fun k => (f.slotAt ((f.readSlot + k) % p.r)).samples

/-- The samples of the frame in progress (R170). -/
def FrameBuffer.inProgress (f : FrameBuffer) : List Sample := (f.slotAt f.writeSlot).samples

/-- The block is at rest: no operation part-way, no transfer outstanding (70_reset_and_hazards.md R242). -/
abbrev State.atRest (s : State) : Prop := s.st.putSeq = .idle ∧ s.st.txIdle = true

/-! ## The invariant -/

/-- A queue as every reachable state has it (R23, R25, R27): canonical storage, counters in range, the cursor equation,
and every held cell written. -/
abbrev RingBuffer.Inv {α : Type} (cap : Nat) (q : RingBuffer α) : Prop :=
  Cells.Wf cap q.storage ∧ q.count ≤ cap ∧ q.readCursor < cap ∧ q.writeCursor < cap ∧
  q.writeCursor = (q.readCursor + q.count) % cap ∧
  ∀ i, i < q.count → (q.storage.read ((q.readCursor + i) % cap)).isSome = true

/-- Every stored value is below `2^width` (R94). -/
abbrev Cells.Below (width : Nat) (m : Cells (BitVec 16)) : Prop := ∀ c ∈ m, c.2.toNat < 2 ^ width

/-- A slot as every reachable state has it (R36, R37, R67): positions below `length` are written. -/
abbrev Slot.Inv (p : Params) (sl : Slot) : Prop :=
  Cells.Wf p.maxPos sl.data ∧ Cells.Below p.sw sl.data ∧ sl.length ≤ p.maxPos ∧
  ∀ i, i < sl.length → (sl.data.read i).isSome = true

/-- Unit U3 as every reachable state has it: `R` slots, indices in range (R38), the counter in its width (R40), an
overrun only with the ring full (R172), and `busy` only with an overrun in a non-continuous run (R41, by the spec's
decision D20, log 10). -/
abbrev FrameBuffer.Inv (p : Params) (f : FrameBuffer) : Prop :=
  f.slots.length = p.r ∧ (∀ sl ∈ f.slots, Slot.Inv p sl) ∧ f.writeSlot < p.r ∧ f.readSlot < p.r ∧
  f.frameCount < 2 ^ p.fcw ∧ (f.overrun = true → advance p.r f.writeSlot = f.readSlot) ∧
  (f.busy = true → f.overrun = true ∧ p.continuous = false)

/-- A `putChar` in progress has at most `PUT_RETRIES` retries left (R43). -/
def PutSeq.retriesLeft : PutSeq → Nat
  | .idle => 0
  | .wait _ k => k

/-- The block as every state reachable from construction has it. `txIdle = true` implies an empty `tx` (R34); every
buffer handed to the hardware has 1 to `MAXPKT` bytes (R44). -/
abbrev State.Inv (s : State) : Prop :=
  s.params.Ok ∧
  (RingBuffer.Inv s.params.cap s.rb0 ∧ Cells.Below s.params.w s.rb0.storage) ∧
  RingBuffer.Inv s.params.rxCap s.st.rx ∧ RingBuffer.Inv s.params.txCap s.st.tx ∧
  (s.st.txIdle = true → s.st.tx.count = 0) ∧
  s.st.putSeq.retriesLeft ≤ s.params.putRetries ∧
  FrameBuffer.Inv s.params s.fb ∧
  ∀ buf ∈ s.log.hwtx, 1 ≤ buf.length ∧ buf.length ≤ s.params.maxPkt

/-! ## Reachable states -/

/-- The states a block constructed with parameters `p` can be in: construction, any step, and any words and turns the
environment adds between steps (R8, R71). -/
inductive Reachable (p : Params) : State → Prop where
  | construct : Reachable p (State.construct p)
  | step {s t : State} : Reachable p s → step s = .next t → Reachable p t
  | present {s : State} (ch : Channel) (ws : List Word) : Reachable p s → Reachable p (s.present ch ws)
  | schedule {s : State} (turns : List Channel) :
      Reachable p s → Reachable p { s with env := { s.env with schedule := turns } }

/-! ## What the next step does -/

/-- The next step performs operation `i`: its channel's turn has come, presents it and takes it. -/
def State.runs (s : State) (i : Instr) : Prop := ∃ s', nextTurn s = .run i s' ∧ s'.legal i = true

/-- The byte of the `putChar` the next step works on, in its issue phase or in a later one. -/
def State.offeredByte (s : State) : Option Byte :=
  match nextTurn s with
  | .phase c _ _ => some c
  | .run (.stPutchar c) s' => if s'.legal (.stPutchar c) then some c else none
  | _ => none

/-- The byte whose `putChar` the next step ends with `OK`. -/
def State.acceptedByte (s : State) : List Byte :=
  match s.offeredByte, step s with
  | some c, .next t => if t.env.answers.stM = s.env.answers.stM ++ [.ok] then [c] else []
  | _, _ => []

/-- The bytes of all `putChar`s that end with `OK` in the next `n` steps, in order. -/
def State.acceptedBytes (s : State) : Nat → List Byte
  | 0 => []
  | n + 1 =>
    match step s with
    | .next t => s.acceptedByte ++ t.acceptedBytes n
    | _ => []

/-- The frame the next step completes and keeps: the one in progress, when an `FB.FRAME` finds a free slot. -/
def State.keptFrame (s : State) : List (List Sample) :=
  match nextTurn s with
  | .run .fbFrame s' =>
    if s'.legal .fbFrame && advance s.params.r s.fb.writeSlot != s.fb.readSlot then [s.fb.inProgress] else []
  | _ => []

/-- The frames completed and kept in the next `n` steps, in order. -/
def State.keptFrames (s : State) : Nat → List (List Sample)
  | 0 => []
  | n + 1 =>
    match step s with
    | .next t => s.keptFrame ++ t.keptFrames n
    | _ => []

/-- None of the next `n` steps performs `FB.RESET`. -/
def State.noReset (s : State) : Nat → Prop
  | 0 => True
  | n + 1 =>
    match step s with
    | .next t => ¬ s.runs .fbReset ∧ t.noReset n
    | _ => True

/-- The frames among a list of answers. -/
def framesOf (rs : List Result) : List (List Sample) :=
  rs.filterMap fun r =>
    match r with
    | .okFrame samples => some samples
    | _ => none

/-- The next state of an outcome, changed; a fault or a refusal as it is. -/
def mapNext (f : State → State) : Host.Outcome State Fault Refusal → Host.Outcome State Fault Refusal
  | .next s => .next (f s)
  | .fault e => .fault e
  | .refused r => .refused r

/-! ## Sequences of operations on one unit -/

/-- A sequence of `put`s (`some v`) and `get`s (`none`) on one queue: the queue after it, the values the successful
`put`s stored, and the values the successful `get`s returned (40_ringbuffer.md R125). -/
def RingBuffer.runOps {α : Type} (cap : Nat) : List (Option α) → RingBuffer α → Except Fault (RingBuffer α × List α × List α)
  | [], q => .ok (q, [], [])
  | some v :: ops, q =>
    match q.put cap v with
    | .error e => .error e
    | .ok (q', stored) =>
      match RingBuffer.runOps cap ops q' with
      | .error e => .error e
      | .ok (q'', puts, gets) => .ok (q'', if stored then v :: puts else puts, gets)
  | none :: ops, q =>
    match q.get cap with
    | .error e => .error e
    | .ok (q', answer) =>
      match RingBuffer.runOps cap ops q' with
      | .error e => .error e
      | .ok (q'', puts, gets) => .ok (q'', puts, answer.toList ++ gets)

/-- The samples of one frame in order. -/
def FrameBuffer.sampleAll (p : Params) : List Sample → FrameBuffer → Except Fault FrameBuffer
  | [], f => .ok f
  | v :: vs, f =>
    match f.sample p v with
    | .error e => .error e
    | .ok f' => FrameBuffer.sampleAll p vs f'

/-- `FB.CYCLE` once for each list of samples, with nothing taken between (30_encoding.md R112, 42_frame_buffer.md
R177). -/
def FrameBuffer.cycles (p : Params) : List (List Sample) → FrameBuffer → Except Fault FrameBuffer
  | [], f => .ok f
  | vs :: vss, f =>
    match f.sampleAll p vs with
    | .error e => .error e
    | .ok f' =>
      match f'.frame p with
      | .error e => .error e
      | .ok f'' => FrameBuffer.cycles p vss f''

end Sys2Proof.Machine
end

