-- ==== Sys2Proof/Certificates/Slice0/Obligations.lean ====
section
/-! DEFINITION. The statements about the machine, from the numbered rules of the spec. Where a statement rests on the
model's choice rather than on a rule, its docstring names the log entry. -/

open Sys2Proof Sys2Proof.Machine

/-! ## Encoding (30_encoding.md) -/

/-- R92 to R96, R103, R107: a well-formed operation's words, with anything after them, decode to that operation and
leave what follows. -/
def Obligations.DecodeOfEncode : Prop :=
  ∀ (p : Params) (i : Instr) (rest : List Word), p.maxPkt ≤ 255 → wellFormed p i = true →
    decode p (encode i ++ rest) = some (.op i, rest)

/-- R103, R105: words that decode to an operation are that operation's words, and its operand is in range. -/
def Obligations.EncodeOfDecode : Prop :=
  ∀ (p : Params) (ws : List Word) (i : Instr) (rest : List Word), decode p ws = some (.op i, rest) →
    wellFormed p i = true ∧ ws = encode i ++ rest

/-- R105's list: the header words that are no request, exactly. -/
def Obligations.IllegalHeaderWords : Prop :=
  ∀ (p : Params) (w : Word), (∃ e, decodeHeader p w = .error e) ↔
    ¬ (w.extractLsb' 16 8 = 0 ∧
      ((w.extractLsb' 28 4 = 1 ∧
          (w.extractLsb' 24 4 = 0 ∧ (w.extractLsb' 0 16).toNat < 2 ^ p.w ∨
           (w.extractLsb' 24 4).toNat ∈ [1, 2, 3, 4] ∧ w.extractLsb' 0 16 = 0)) ∨
       (w.extractLsb' 28 4 = 2 ∧
          (w.extractLsb' 24 4 = 0 ∧ w.extractLsb' 8 8 = 0 ∨
           (w.extractLsb' 24 4).toNat ∈ [1, 2, 8] ∧ w.extractLsb' 0 16 = 0 ∨
           w.extractLsb' 24 4 = 9 ∧ w.extractLsb' 8 8 = 0 ∧ (w.extractLsb' 0 8).toNat ≤ p.maxPkt)) ∨
       (w.extractLsb' 28 4 = 3 ∧
          ((w.extractLsb' 24 4).toNat ∈ [0, 1, 9] ∧ w.extractLsb' 0 16 = 0 ∨
           w.extractLsb' 24 4 = 8 ∧ (w.extractLsb' 0 16).toNat < 2 ^ p.sw))))

/-- R103: rows do not overlap, and a legal header word lies on its operation's row. -/
def Obligations.RowsAreDisjoint : Prop :=
  (∀ (w : Word) (i j : Instr), selectsRow w i → selectsRow w j → opcodeRow i = opcodeRow j) ∧
  (∀ (p : Params) (w : Word) (i : Instr), decodeHeader p w = .ok (.op i) → selectsRow w i) ∧
  (∀ (p : Params) (w : Word) (n : Nat), decodeHeader p w = .ok (.packet n) →
    selectsRow w (.stRxpkt []) ∧ n = (w.extractLsb' 0 8).toNat)

/-- R95, R107: a packet header is followed by exactly `n` words that are never read as headers; one malformed word
makes the whole request illegal, and a packet whose words are not all presented is no request yet. That a packet whose
words are not all presented is no request yet is log 17. -/
def Obligations.PacketPayloadIsCountedOff : Prop :=
  ∀ (p : Params) (n : Nat) (t : List Word), n ≤ p.maxPkt → p.maxPkt ≤ 255 →
    (t.length < n → decode p (headerWord 2 9 (BitVec.ofNat 16 n) :: t) = none) ∧
    (n ≤ t.length → (∃ w ∈ t.take n, w.extractLsb' 8 24 ≠ 0) →
      decode p (headerWord 2 9 (BitVec.ofNat 16 n) :: t) = some (.bad .malformedPayload, t.drop n)) ∧
    (n ≤ t.length → (∀ w ∈ t.take n, w.extractLsb' 8 24 = 0) →
      decode p (headerWord 2 9 (BitVec.ofNat 16 n) :: t) =
        some (.op (.stRxpkt ((t.take n).map (BitVec.extractLsb' 0 8))), t.drop n))

/-- Words written out from the map of R103 decode to their operations (a sanity check with the defaults of R5). -/
def Obligations.SampleWordsDecode : Prop :=
  decode Params.default [0x100000FF] = some (.op (.rbPut 255), []) ∧
  decode Params.default [0x20000041] = some (.op (.stPutchar 0x41), []) ∧
  decode Params.default [0x29000002, 0x00000078, 0x00000079, 0x21000000] =
    some (.op (.stRxpkt [0x78, 0x79]), [0x21000000]) ∧
  decode Params.default [0x38001234] = some (.op (.fbSample 0x1234), []) ∧
  decode Params.default [0x39000000] = some (.op .fbFrame, []) ∧
  decode Params.default [0x10000100] = some (.bad .valueOutOfRange, [])

/-- R97, R98, R201: the words of every result, its status in bits 31:28 and its value in bits 15:0. -/
def Obligations.ResponseWords : Prop :=
  ∀ p : Params,
    Result.words p .ok = some [0x00000000] ∧ Result.words p .full = some [0x10000000] ∧
    Result.words p .empty = some [0x20000000 ||| (BitVec.ofInt 16 p.emptySentinel).setWidth 32] ∧
    Result.words p .saturated = some [0x30000000] ∧ Result.words p .noFrame = some [0x40000000] ∧
    Result.words p .overrun = some [0x50000000] ∧ Result.words p .illegal = some [0xF0000000] ∧
    (∀ v, v < 65536 → Result.words p (.okValue v) = some [BitVec.ofNat 32 v]) ∧
    ∀ samples : List Sample, samples.length < 65536 →
      Result.words p (.okFrame samples) =
        some (BitVec.ofNat 32 samples.length :: samples.map (BitVec.setWidth 32))

/-- R101: the words of a transmit event, and its header is illegal as a request. -/
def Obligations.TransmitEventWords : Prop :=
  ∀ (p : Params) (buf : List Byte), buf.length ≤ 255 →
    hwtxWords buf = BitVec.ofNat 32 (0x2F000000 + buf.length) :: buf.map (BitVec.setWidth 32) ∧
    decodeHeader p (BitVec.ofNat 32 (0x2F000000 + buf.length)) = .error .noOperation

/-! ## The step and the ports -/

/-- R7, R107: when a channel whose agent is free has the turn and its words begin with a complete request, the step is
that operation's meaning after the request is accepted: turn used up, words taken, answers directed to that channel,
and nothing of the block changed by the acceptance. Schedule and ports are the model's form of the interleaving (log
2). -/
def Obligations.StepRunsDecodedOperation : Prop :=
  ∀ (s : State) (ch : Channel) (turns : List Channel) (i : Instr) (rest : List Word),
    s.env.schedule = ch :: turns → (ch.agent ≠ .mainLoop ∨ s.st.putSeq = .idle) →
    decode s.params (s.env.ports.get ch) = some (.op i, rest) →
    step s = exec i { s with
      env := { s.env with schedule := turns, ports := s.env.ports.set ch rest, origin := ch } }

/-- The same from the encoding: a channel on which a well-formed operation's words are presented performs it. -/
def Obligations.StepRunsEncodedOperation : Prop :=
  ∀ (s : State) (ch : Channel) (turns : List Channel) (i : Instr) (rest : List Word), s.params.Ok →
    wellFormed s.params i = true → s.env.schedule = ch :: turns →
    (ch.agent ≠ .mainLoop ∨ s.st.putSeq = .idle) → s.env.ports.get ch = encode i ++ rest →
    step s = exec i { s with
      env := { s.env with schedule := turns, ports := s.env.ports.set ch rest, origin := ch } }

/-- R105, R208, R182, R99: a request that no channel takes, or that this channel does not take, changes nothing of the
block; it is answered `ILLEGAL` on this channel where it has a response, and dropped otherwise. The answer `ILLEGAL`
is the spec's own category (log 6). -/
def Obligations.IllegalRequestsChangeNothing : Prop :=
  ∀ (s : State) (ch : Channel) (turns : List Channel) (req : Request) (rest : List Word),
    s.env.schedule = ch :: turns → (ch.agent ≠ .mainLoop ∨ s.st.putSeq = .idle) →
    decode s.params (s.env.ports.get ch) = some (req, rest) →
    (∀ i, req = .op i → ch.accepts i = false) →
    ∃ t, step s = .next t ∧ t.params = s.params ∧ t.rb0 = s.rb0 ∧ t.st = s.st ∧ t.fb = s.fb ∧ t.log = s.log ∧
      t.env.schedule = turns ∧ t.env.ports = s.env.ports.set ch rest ∧
      t.env.answers.get ch = (if ch.answers then s.env.answers.get ch ++ [.illegal] else []) ∧
      ∀ ch', ch' ≠ ch → t.env.answers.get ch' = s.env.answers.get ch'

/-- The model's choice (logs 2 and 17): with nobody's turn nothing changes; a turn of a channel that presents no complete
request is used up and changes nothing else. -/
def Obligations.IdleTurnsChangeNothing : Prop :=
  ∀ s : State,
    (s.env.schedule = [] → step s = .next s) ∧
    ∀ ch turns, s.env.schedule = ch :: turns → (ch.agent ≠ .mainLoop ∨ s.st.putSeq = .idle) →
      decode s.params (s.env.ports.get ch) = none →
      step s = .next { s with env := { s.env with schedule := turns } }

/-- R43, R100: while a `putChar` is in progress no step accepts a word of agent `M`, whichever channel has the turn. -/
def Obligations.MainLoopWordsWaitForPutChar : Prop :=
  ∀ (s t : State) (c : Byte) (k : Nat), s.st.putSeq = .wait c k → step s = .next t →
    t.env.ports.stM = s.env.ports.stM ∧ t.env.ports.fbM = s.env.ports.fbM ∧
    (∀ ch turns, s.env.schedule = ch :: turns → ch.agent ≠ .mainLoop → t.st.putSeq = .wait c k)

/-- R200, R65, R67: from a state with the invariant every step gives a next state; no operation stops the block. -/
def Obligations.NoStepStopsTheBlock : Prop :=
  ∀ s : State, s.Inv → ∃ t, step s = .next t

/-- Every step keeps the invariant: the cursor equation (R27), counters and indices in range (R23, R25, R37, R38, R40,
R43), held cells written (R67), an empty `tx` when idle (R34), packets of 1 to `MAXPKT` bytes (R44), an overrun only with the
ring full (R172), and `busy` only with an overrun in a run that is not continuous (R41; that clause rests on the spec's own
decision D20, log 10). -/
def Obligations.StepKeepsInvariant : Prop :=
  ∀ s t : State, s.Inv → step s = .next t → t.Inv

/-- Every block constructed with parameters in the ranges of R5 has the invariant, and so has the machine at reset. -/
def Obligations.ConstructionHasInvariant : Prop :=
  (∀ p : Params, p.Ok → (State.construct p).Inv) ∧ State.reset.Inv

/-- R27, R34, R67: whatever the environment presents and in whatever order it gives the turns, every state reached from
construction has the cursor equation in all three queues, an empty `tx` when the transport is idle, and a next step. -/
def Obligations.ReachableStates : Prop :=
  ∀ (p : Params) (s : State), p.Ok → Reachable p s →
    s.rb0.writeCursor = (s.rb0.readCursor + s.rb0.count) % p.cap ∧
    s.st.rx.writeCursor = (s.st.rx.readCursor + s.st.rx.count) % p.rxCap ∧
    s.st.tx.writeCursor = (s.st.tx.readCursor + s.st.tx.count) % p.txCap ∧
    (s.st.txIdle = true → s.st.tx.count = 0) ∧ ∃ t, step s = .next t

/-- No step is refused: the refusal of `exec` for an operation of `M` during its own `putChar` is never reached. -/
def Obligations.NoStepIsRefused : Prop :=
  ∀ (s : State) (r : Refusal), step s ≠ .refused r

/-- U2, R43: `exec` refuses exactly an operation of `M`, legal on its channel, during a `putChar` (the model's choice of a
refusal: log 7). -/
def Obligations.RefusedOnlyDuringPutChar : Prop :=
  ∀ (i : Instr) (s : State) (r : Refusal),
    exec i s = .refused r ↔
      r = .putCharPending ∧ s.env.origin.accepts i = true ∧ wellFormed s.params i = true ∧
      (s.env.origin = .stM ∨ s.env.origin = .fbM) ∧ ∃ c k, s.st.putSeq = .wait c k

/-- R22, R6: the capacities and the other parameters are written by no step. That `CONTINUOUS` is one of them, constant for a
run, is the spec's own decision D21 (log 14). -/
def Obligations.NoStepWritesAParameter : Prop :=
  ∀ s t : State, step s = .next t → t.params = s.params

/-- R51, R20: a step writes only the unit of the agent whose turn it is: RB0 by `P` and `C`; `rx` by `I_rx` and `M`; the
transmit side by `I_tx` and `M`; the sequencer by `M` alone; the frame buffer by `I_s`, `I_f` and `M`. A turn of `fb_m` writes
nothing of the transport while no `putChar` waits; while one waits, a turn of either channel of `M` is the transport's
next phase and writes neither `rx` nor the other units (log 8). -/
def Obligations.UnitsShareNoState : Prop :=
  ∀ (s t : State) (ch : Channel) (turns : List Channel), s.env.schedule = ch :: turns → step s = .next t →
    (ch ≠ .rbP ∧ ch ≠ .rbC → t.rb0 = s.rb0) ∧
    (ch ≠ .stRx ∧ ch ≠ .stM → t.st.rx = s.st.rx) ∧
    (ch ≠ .stTxdone ∧ ch ≠ .stM ∧ ch ≠ .fbM → t.st.tx = s.st.tx ∧ t.st.txIdle = s.st.txIdle ∧ t.log = s.log) ∧
    (ch ≠ .stM ∧ ch ≠ .fbM → t.st.putSeq = s.st.putSeq) ∧
    (ch ≠ .fbM ∧ ch ≠ .fbSample ∧ ch ≠ .fbFrame → t.fb = s.fb) ∧
    (s.st.putSeq = .idle → ch = .fbM → t.st = s.st ∧ t.log = s.log) ∧
    (s.st.putSeq ≠ .idle → ch = .stM ∨ ch = .fbM → t.rb0 = s.rb0 ∧ t.st.rx = s.st.rx ∧ t.fb = s.fb) ∧
    t.st.rxIdle = s.st.rxIdle

/-- R51: what the frame buffer becomes and answers does not depend on the other units' elements; for the two handlers, not
even on a `putChar` in progress (R214). -/
def Obligations.FrameBufferReadsOnlyItself : Prop :=
  ∀ (s₁ s₂ t₁ t₂ : State) (ch : Channel) (turns : List Channel), s₁.env.schedule = ch :: turns →
    ch = .fbM ∨ ch = .fbSample ∨ ch = .fbFrame → s₁.params = s₂.params → s₁.env = s₂.env → s₁.fb = s₂.fb →
    (ch = .fbM → s₁.st.putSeq = .idle ∧ s₂.st.putSeq = .idle) → step s₁ = .next t₁ → step s₂ = .next t₂ →
    t₁.fb = t₂.fb ∧ t₁.env = t₂.env

/-- R33, R41: no step reads `rxIdle` or `busy`, whatever they hold: changing them before the step changes nothing else,
and `rxIdle` is not written. `busy` drives the `busy` output, is asserted by an `FB.FRAME` that finds no free slot in a run
that is not continuous and by nothing else, and released by `FB.RESET` and by nothing else; when it is asserted and what
releases it are the spec's own decision D20 (log 10). -/
def Obligations.RxIdleAndBusyAreReadByNothing : Prop :=
  (∀ (s : State) (b : Bool),
    step { s with st := { s.st with rxIdle := b } } = mapNext (fun t => { t with st := { t.st with rxIdle := b } }) (step s) ∧
    ∃ b' : Bool, step { s with fb := { s.fb with busy := b } } =
      mapNext (fun t => { t with fb := { t.fb with busy := b' } }) (step s)) ∧
  (∀ s : State, s.outputs.busy = s.fb.busy) ∧
  ∀ s t : State, step s = .next t →
    (s.runs .fbFrame → (s.fb.writeSlot + 1) % s.params.r = s.fb.readSlot → s.params.continuous = false →
      t.fb.busy = true) ∧
    (s.fb.busy = false → t.fb.busy = true →
      s.runs .fbFrame ∧ (s.fb.writeSlot + 1) % s.params.r = s.fb.readSlot ∧ s.params.continuous = false) ∧
    (s.runs .fbReset → t.fb.busy = false) ∧
    (s.fb.busy = true → t.fb.busy = false → s.runs .fbReset)

/-! ## Unit U1, RingBuffer -/

/-- R120: `RB.PUT v` from the producer role on a queue with room stores at the write cursor, advances it modulo the
capacity, counts the element, answers `OK`, and changes nothing else. -/
def Obligations.RbPutStores : Prop :=
  ∀ (s : State) (v : Elem), s.env.origin = .rbP → v.toNat < 2 ^ s.params.w → s.rb0.count ≠ s.params.cap →
    s.rb0.writeCursor < s.params.cap →
    exec (.rbPut v) s = .next { s with
      rb0 := { s.rb0 with
        storage := Cells.write s.rb0.storage s.rb0.writeCursor v,
        writeCursor := (s.rb0.writeCursor + 1) % s.params.cap,
        count := s.rb0.count + 1 },
      env := { s.env with answers := { s.env.answers with rbP := s.env.answers.rbP ++ [.ok] } } }

/-- R120, R202: `RB.PUT` on a full queue answers `FULL` and changes no state element. -/
def Obligations.RbPutOnFullIsRejected : Prop :=
  ∀ (s : State) (v : Elem), s.env.origin = .rbP → v.toNat < 2 ^ s.params.w → s.rb0.count = s.params.cap →
    exec (.rbPut v) s = .next { s with
      env := { s.env with answers := { s.env.answers with rbP := s.env.answers.rbP ++ [.full] } } }

/-- R121: `RB.GET` from the consumer role returns the element at the read cursor, advances the cursor, and leaves the
cell as it was; on an empty queue it answers `EMPTY` and changes no state element. That the cell keeps its value is
the spec's decision D8 (log 15). -/
def Obligations.RbGetReturnsOldest : Prop :=
  ∀ s : State, s.env.origin = .rbC →
    (s.rb0.count = 0 → exec .rbGet s = .next { s with
      env := { s.env with answers := { s.env.answers with rbC := s.env.answers.rbC ++ [.empty] } } }) ∧
    ∀ v, s.rb0.count ≠ 0 → s.rb0.readCursor < s.params.cap →
      Cells.read s.rb0.storage s.rb0.readCursor = some v →
      exec .rbGet s = .next { s with
        rb0 := { s.rb0 with
          readCursor := (s.rb0.readCursor + 1) % s.params.cap, count := s.rb0.count - 1 },
        env := { s.env with answers := { s.env.answers with rbC := s.env.answers.rbC ++ [.okValue v.toNat] } } }

/-- R122 to R124: the observers, from either role, answer from `count` alone and write nothing. -/
def Obligations.ObserversAnswerFromCount : Prop :=
  ∀ s : State, s.env.origin = .rbP ∨ s.env.origin = .rbC →
    exec .rbIsfull s = .next (s.respond (.okValue (if s.rb0.count = s.params.cap then 1 else 0))) ∧
    exec .rbIsempty s = .next (s.respond (.okValue (if s.rb0.count = 0 then 1 else 0))) ∧
    exec .rbLength s = .next (s.respond (.okValue s.rb0.count))

/-- R26: full and empty are functions of `count` alone, and the cursors are equal in both cases. -/
def Obligations.FullAndEmptyComeFromCount : Prop :=
  ∀ (α : Type) (cap : Nat) (q : RingBuffer α),
    (q.full cap = true ↔ q.count = cap) ∧ (q.empty = true ↔ q.count = 0) ∧
    (RingBuffer.Inv cap q → q.full cap = true ∨ q.empty = true → q.readCursor = q.writeCursor)

/-- R29: the status outputs are `count == CAP`, `count == 0` and `count` in every state, they are what the observers of
RB0 answer, and after construction they are false, true and 0. -/
def Obligations.StatusOutputsOfAQueue : Prop :=
  (∀ (α : Type) (cap : Nat) (q : RingBuffer α),
    q.full cap = (q.count == cap) ∧ q.empty = (q.count == 0) ∧ q.length = q.count) ∧
  (∀ s : State, s.env.origin = .rbP ∨ s.env.origin = .rbC →
    exec .rbIsfull s = .next (s.respond (.okValue (if s.outputs.full then 1 else 0))) ∧
    exec .rbIsempty s = .next (s.respond (.okValue (if s.outputs.empty then 1 else 0))) ∧
    exec .rbLength s = .next (s.respond (.okValue s.outputs.length))) ∧
  ∀ (α : Type) (cap : Nat), 1 ≤ cap →
    (RingBuffer.construct α).full cap = false ∧ (RingBuffer.construct α).empty = true ∧ (RingBuffer.construct α).length = 0

/-- R25: each cursor stays below the capacity; `put` alone writes `writeCursor` and `get` alone `readCursor`, each by one
step modulo the capacity and only on success; with a capacity of 1 both are 0. -/
def Obligations.CursorsAdvanceModuloCapacity : Prop :=
  ∀ (α : Type) (cap : Nat) (q q' : RingBuffer α), RingBuffer.Inv cap q →
    (∀ v b, q.put cap v = .ok (q', b) →
      q'.readCursor = q.readCursor ∧
      q'.writeCursor = (if b then (q.writeCursor + 1) % cap else q.writeCursor) ∧ q'.writeCursor < cap) ∧
    (∀ a, q.get cap = .ok (q', a) →
      q'.writeCursor = q.writeCursor ∧
      q'.readCursor = (if a.isSome then (q.readCursor + 1) % cap else q.readCursor) ∧ q'.readCursor < cap) ∧
    (cap = 1 → q.readCursor = 0 ∧ q.writeCursor = 0)

/-- R125: for every capacity and every sequence of `put`s and `get`s from construction, what the successful `get`s return
followed by what the queue still holds is what the successful `put`s stored, in order. -/
def Obligations.QueueIsFirstInFirstOut : Prop :=
  ∀ (α : Type) (cap : Nat) (ops : List (Option α)), 1 ≤ cap →
    ∃ q puts gets, RingBuffer.runOps cap ops (RingBuffer.construct α) = .ok (q, puts, gets) ∧
      puts = gets ++ q.held cap ∧ gets <+: puts ∧ RingBuffer.Inv cap q

/-- R126: an empty queue takes capacity-many `put`s, is then full, and rejects the next one unchanged. -/
def Obligations.EmptyQueueTakesCapacityManyPuts : Prop :=
  ∀ (α : Type) (cap : Nat) (q : RingBuffer α) (vs : List α) (v : α), RingBuffer.Inv cap q → q.count = 0 → vs.length = cap →
    ∃ q', RingBuffer.runOps cap (vs.map some) q = .ok (q', vs, []) ∧ q'.held cap = vs ∧ q'.full cap = true ∧
      q'.put cap v = .ok (q', false)

/-- R126 on the machine: with RB0 empty, `CAP` requests `RB.PUT` presented on `rb_p` and given their turns are answered
`OK`, one more is answered `FULL`, and RB0 holds the first `CAP` values. -/
def Obligations.CapacityManyRequestsThenFull : Prop :=
  ∀ (s : State) (vs : List Elem) (v : Elem), s.Inv → s.rb0.count = 0 → s.env.schedule = [] → s.env.ports.rbP = [] →
    vs.length = s.params.cap → (∀ u ∈ vs ++ [v], u.toNat < 2 ^ s.params.w) →
    ∃ t, Sys2Proof.core.run (s.params.cap + 1) (s.presentAll ((vs ++ [v]).map fun u => request (.rbPut u))) = .next t ∧
      t.env.answers.rbP = s.env.answers.rbP ++ List.replicate s.params.cap .ok ++ [.full] ∧
      t.rb0.held t.params.cap = vs ∧ t.st = s.st ∧ t.fb = s.fb

/-! ## Unit U2, SerialTransport -/

/-- R145, R146: `ST.PUTCHAR` while idle with `tx` empty hands the byte to the hardware alone, once, and the transport is
`Sending`; the byte has passed through the cell at the write cursor. -/
def Obligations.PutCharWhileIdleKicks : Prop :=
  ∀ (s : State) (c : Byte), s.env.origin = .stM → s.st.putSeq = .idle → s.st.txIdle = true → s.st.tx.count = 0 →
    s.st.tx.readCursor = s.st.tx.writeCursor → s.st.tx.writeCursor < s.params.txCap → 1 ≤ s.params.maxPkt →
    exec (.stPutchar c) s = .next { s with
      st := { s.st with
        tx := { storage := Cells.write s.st.tx.storage s.st.tx.writeCursor c, count := 0,
                readCursor := (s.st.tx.readCursor + 1) % s.params.txCap,
                writeCursor := (s.st.tx.writeCursor + 1) % s.params.txCap },
        txIdle := false },
      log := { hwtx := s.log.hwtx ++ [[c]] },
      env := { s.env with answers := { s.env.answers with stM := s.env.answers.stM ++ [.ok] } } }

/-- R145, R146: `ST.PUTCHAR` while `Sending` joins the tail of `tx` when there is room, and starts waiting with a full
retry budget and no answer when there is none. The phases and the counting of retries are the spec's decision D17 (log
26). -/
def Obligations.PutCharWhileSending : Prop :=
  ∀ (s : State) (c : Byte), s.env.origin = .stM → s.st.putSeq = .idle → s.st.txIdle = false →
    (s.st.tx.count < s.params.txCap → s.st.tx.writeCursor < s.params.txCap →
      exec (.stPutchar c) s = .next { s with
        st := { s.st with
          tx := { s.st.tx with
            storage := Cells.write s.st.tx.storage s.st.tx.writeCursor c, count := s.st.tx.count + 1,
            writeCursor := (s.st.tx.writeCursor + 1) % s.params.txCap } },
        env := { s.env with answers := { s.env.answers with stM := s.env.answers.stM ++ [.ok] } } }) ∧
    (s.params.txCap ≤ s.st.tx.count →
      exec (.stPutchar c) s = .next { s with st := { s.st with putSeq := .wait c s.params.putRetries } })

/-- R147, R145: a turn of `M` while waiting with retries left. Still full: one retry is used and nothing else changes. Room
while `Sending`: the byte joins `tx`, the sequencer is idle and `st_m` is answered `OK`. Room while `Idle`: the byte joins `tx`
and the oldest bytes are submitted at once, so that with `tx` empty, as it is in every reachable state that is `Idle` (R34),
the byte goes out alone. The phases are the spec's decision D17 (log 26); that a turn of either channel of `M` takes the
phase is log 8. -/
def Obligations.PutCharRetryPhase : Prop :=
  ∀ (s : State) (ch : Channel) (turns : List Channel) (c : Byte) (k : Nat), s.env.schedule = ch :: turns →
    ch.agent = .mainLoop → s.st.putSeq = .wait c (k + 1) →
    (s.params.txCap ≤ s.st.tx.count →
      step s = .next { s with
        st := { s.st with putSeq := .wait c k }, env := { s.env with schedule := turns, origin := .stM } }) ∧
    (s.st.txIdle = false → s.st.tx.count < s.params.txCap → s.st.tx.writeCursor < s.params.txCap →
      step s = .next { s with
        st := { s.st with
          tx := { s.st.tx with
            storage := Cells.write s.st.tx.storage s.st.tx.writeCursor c, count := s.st.tx.count + 1,
            writeCursor := (s.st.tx.writeCursor + 1) % s.params.txCap },
          putSeq := .idle },
        env := { s.env with
          schedule := turns, origin := .stM,
          answers := { s.env.answers with stM := s.env.answers.stM ++ [.ok] } } }) ∧
    (s.st.txIdle = true → s.st.tx.count < s.params.txCap → RingBuffer.Inv s.params.txCap s.st.tx → 1 ≤ s.params.maxPkt →
      step s = .next { s with
        st := { s.st with
          tx := {
            storage := Cells.write s.st.tx.storage s.st.tx.writeCursor c,
            count := s.st.tx.count + 1 - min (s.st.tx.count + 1) s.params.maxPkt,
            readCursor := (s.st.tx.readCursor + min (s.st.tx.count + 1) s.params.maxPkt) % s.params.txCap,
            writeCursor := (s.st.tx.writeCursor + 1) % s.params.txCap },
          txIdle := false,
          putSeq := .idle },
        log := { hwtx := s.log.hwtx ++ [(s.st.tx.held s.params.txCap ++ [c]).take s.params.maxPkt] },
        env := { s.env with
          schedule := turns, origin := .stM,
          answers := { s.env.answers with stM := s.env.answers.stM ++ [.ok] } } })

/-- R148, R145, R204: the exhausted phase. Still full while `Sending`: `SATURATED`, and only the sequencer changes. Room made
by a handler while `Sending`: the byte joins `tx` and the answer is `OK`. `Idle` with `tx` empty, as two transmit-complete
notifications between two phases leave it: the byte goes out alone. `Idle` with bytes in `tx`, which only a hand-built state
has (R34): the forced submission hands over the oldest bytes and the byte joins what is left. The phases are the spec's
decision D17 (log 26); that a turn of either channel of `M` takes the phase is log 8. -/
def Obligations.PutCharExhaustedPhase : Prop :=
  ∀ (s : State) (ch : Channel) (turns : List Channel) (c : Byte), s.env.schedule = ch :: turns →
    ch.agent = .mainLoop → s.st.putSeq = .wait c 0 →
    (s.st.txIdle = false → s.st.tx.count = s.params.txCap →
      step s = .next { s with
        st := { s.st with putSeq := .idle },
        env := { s.env with
          schedule := turns, origin := .stM,
          answers := { s.env.answers with stM := s.env.answers.stM ++ [.saturated] } } }) ∧
    (s.st.txIdle = false → s.st.tx.count ≠ s.params.txCap → s.st.tx.writeCursor < s.params.txCap →
      step s = .next { s with
        st := { s.st with
          tx := { s.st.tx with
            storage := Cells.write s.st.tx.storage s.st.tx.writeCursor c, count := s.st.tx.count + 1,
            writeCursor := (s.st.tx.writeCursor + 1) % s.params.txCap },
          putSeq := .idle },
        env := { s.env with
          schedule := turns, origin := .stM,
          answers := { s.env.answers with stM := s.env.answers.stM ++ [.ok] } } }) ∧
    (s.st.txIdle = true → s.st.tx.count = 0 → RingBuffer.Inv s.params.txCap s.st.tx → 1 ≤ s.params.maxPkt →
      step s = .next { s with
        st := { s.st with
          tx := {
            storage := Cells.write s.st.tx.storage s.st.tx.writeCursor c,
            count := 0,
            readCursor := (s.st.tx.readCursor + 1) % s.params.txCap,
            writeCursor := (s.st.tx.writeCursor + 1) % s.params.txCap },
          txIdle := false,
          putSeq := .idle },
        log := { hwtx := s.log.hwtx ++ [[c]] },
        env := { s.env with
          schedule := turns, origin := .stM,
          answers := { s.env.answers with stM := s.env.answers.stM ++ [.ok] } } }) ∧
    (s.st.txIdle = true → s.st.tx.count ≠ 0 → RingBuffer.Inv s.params.txCap s.st.tx → 1 ≤ s.params.maxPkt →
      step s = .next { s with
        st := { s.st with
          tx := {
            storage := Cells.write s.st.tx.storage s.st.tx.writeCursor c,
            count := s.st.tx.count - min s.st.tx.count s.params.maxPkt + 1,
            readCursor := (s.st.tx.readCursor + min s.st.tx.count s.params.maxPkt) % s.params.txCap,
            writeCursor := (s.st.tx.writeCursor + 1) % s.params.txCap },
          txIdle := false,
          putSeq := .idle },
        log := { hwtx := s.log.hwtx ++ [(s.st.tx.held s.params.txCap).take s.params.maxPkt] },
        env := { s.env with
          schedule := turns, origin := .stM,
          answers := { s.env.answers with stM := s.env.answers.stM ++ [.ok] } } })

/-- R149: a `putChar` waiting with `k` retries left ends within `k + 1` turns of `M`, whatever the handlers do between them,
with exactly one answer, `OK` or `SATURATED`. The number of steps is the spec's own rendering, decision D17 (log 26), and a
turn of either channel of `M` counts, since either takes the next phase (log 8). -/
def Obligations.PutCharEndsInBoundedTurns : Prop :=
  ∀ (s : State) (c : Byte) (k : Nat), s.Inv → s.st.putSeq = .wait c k →
    k + 1 ≤ (s.env.schedule.filter fun ch => ch.agent == .mainLoop).length →
    ∃ j t, j ≤ s.env.schedule.length ∧ Sys2Proof.core.run j s = .next t ∧ t.st.putSeq = .idle ∧
      (t.env.answers.stM = s.env.answers.stM ++ [.ok] ∨ t.env.answers.stM = s.env.answers.stM ++ [.saturated])

/-- R149: over any run, the bytes handed to the hardware followed by the bytes in `tx` grow by exactly the bytes of the
`putChar`s that ended with `OK`, in order. -/
def Obligations.TransmitStreamIsTheAcceptedBytes : Prop :=
  ∀ (n : Nat) (s t : State), s.Inv → Sys2Proof.core.run n s = .next t → t.txStream = s.txStream ++ s.acceptedBytes n

/-- R144: `ST.GETCHAR` returns the oldest byte of `rx`, or `EMPTY` with no change; it touches nothing on the transmit
side. -/
def Obligations.GetCharReturnsOldestByte : Prop :=
  ∀ s : State, s.env.origin = .stM → s.st.putSeq = .idle →
    (s.st.rx.count = 0 → exec .stGetchar s = .next { s with
      env := { s.env with answers := { s.env.answers with stM := s.env.answers.stM ++ [.empty] } } }) ∧
    ∀ b, s.st.rx.count ≠ 0 → s.st.rx.readCursor < s.params.rxCap →
      Cells.read s.st.rx.storage s.st.rx.readCursor = some b →
      exec .stGetchar s = .next { s with
        st := { s.st with
          rx := { s.st.rx with
            readCursor := (s.st.rx.readCursor + 1) % s.params.rxCap, count := s.st.rx.count - 1 } },
        env := { s.env with answers := { s.env.answers with stM := s.env.answers.stM ++ [.okValue b.toNat] } } }

/-- R143: in every state with the invariant `ST.SUBMIT` answers `OK` and changes nothing. -/
def Obligations.SubmitChangesNothing : Prop :=
  ∀ s : State, s.Inv → s.env.origin = .stM → s.st.putSeq = .idle →
    exec .stSubmit s = .next { s with
      env := { s.env with answers := { s.env.answers with stM := s.env.answers.stM ++ [.ok] } } }

/-- R141, R142: a transmit-complete notification leaves the transport idle when `tx` is empty; otherwise it hands the
hardware the `min(count, MAXPKT)` oldest bytes, oldest first, and the transport is `Sending`. Nothing else changes. -/
def Obligations.TxDoneSubmitsTheOldestBytes : Prop :=
  ∀ s : State, s.env.origin = .stTxdone → RingBuffer.Inv s.params.txCap s.st.tx → 1 ≤ s.params.maxPkt →
    (s.st.tx.count = 0 → exec .stTxdone s = .next { s with st := { s.st with txIdle := true } }) ∧
    (s.st.tx.count ≠ 0 →
      exec .stTxdone s = .next { s with
        st := { s.st with
          tx := { s.st.tx with
            readCursor := (s.st.tx.readCursor + min s.st.tx.count s.params.maxPkt) % s.params.txCap,
            count := s.st.tx.count - min s.st.tx.count s.params.maxPkt },
          txIdle := false },
        log := { hwtx := s.log.hwtx ++ [(s.st.tx.held s.params.txCap).take s.params.maxPkt] } })

/-- R150, R206: a packet's first bytes that fit join `rx` in order and the others are lost; every cell the stored bytes do
not take reads as before, and nothing outside `rx` changes, so nothing tells of the loss. -/
def Obligations.RxPacketStoresWhatFits : Prop :=
  ∀ (s : State) (pkt : List Byte), s.env.origin = .stRx → pkt.length ≤ s.params.maxPkt →
    RingBuffer.Inv s.params.rxCap s.st.rx →
    ∃ q, exec (.stRxpkt pkt) s = .next { s with st := { s.st with rx := q } } ∧
      q.held s.params.rxCap = s.st.rx.held s.params.rxCap ++ pkt.take (s.params.rxCap - s.st.rx.count) ∧
      q.count = s.st.rx.count + min pkt.length (s.params.rxCap - s.st.rx.count) ∧
      q.readCursor = s.st.rx.readCursor ∧
      q.writeCursor = (s.st.rx.writeCursor + min pkt.length (s.params.rxCap - s.st.rx.count)) % s.params.rxCap ∧
      ∀ a, (∀ j, j < min pkt.length (s.params.rxCap - s.st.rx.count) →
          a ≠ (s.st.rx.writeCursor + j) % s.params.rxCap) →
        Cells.read q.storage a = Cells.read s.st.rx.storage a

/-- R140: the transport leaves `Idle` only by handing at least one byte to the hardware, leaves `Sending` only by a
transmit-complete notification, hands over nothing while a transfer is outstanding, and starts in `Idle`; the status output
`txIdle` is the flag (R32). -/
def Obligations.TransmitStateMachine : Prop :=
  (∀ p : Params, (State.construct p).st.txIdle = true) ∧
  (∀ s : State, s.outputs.txIdle = s.st.txIdle) ∧
  ∀ s t : State, step s = .next t →
    (s.st.txIdle = true → t.st.txIdle = false →
      ∃ buf, t.log.hwtx = s.log.hwtx ++ [buf] ∧ 1 ≤ buf.length) ∧
    (s.st.txIdle = false → t.st.txIdle = true → s.runs .stTxdone) ∧
    (t.log.hwtx = s.log.hwtx ∨
      ∃ buf, t.log.hwtx = s.log.hwtx ++ [buf] ∧ t.st.txIdle = false ∧ (s.st.txIdle = true ∨ s.runs .stTxdone))

/-! ## Unit U3, FrameAcquisitionBuffer -/

/-- R171, R207: `FB.SAMPLE v` stores at the current length of the slot in progress and counts the sample; on a full slot the
sample is dropped and no state element changes. -/
def Obligations.SampleIsStoredByPosition : Prop :=
  ∀ (s : State) (v : Sample) (sl : Slot), s.env.origin = .fbSample → v.toNat < 2 ^ s.params.sw →
    s.fb.slots[s.fb.writeSlot]? = some sl →
    (sl.length < s.params.maxPos →
      exec (.fbSample v) s = .next { s with
        fb := { s.fb with
          slots := s.fb.slots.set s.fb.writeSlot
            { data := Cells.write sl.data sl.length v, length := sl.length + 1 } } }) ∧
    (s.params.maxPos ≤ sl.length → exec (.fbSample v) s = .next s)

/-- R172, R40: `FB.FRAME` with a free slot advances `writeSlot` to a slot whose `length` it clears, and counts the frame
modulo `2^FCW`. The clearing is the spec's decision D19 (log 13); that `busy` stays as it is in this branch is its decision
D20 (log 10). -/
def Obligations.FrameAdvancesToAClearedSlot : Prop :=
  ∀ (s : State) (sl : Slot), s.env.origin = .fbFrame →
    (s.fb.writeSlot + 1) % s.params.r ≠ s.fb.readSlot →
    s.fb.slots[(s.fb.writeSlot + 1) % s.params.r]? = some sl →
    exec .fbFrame s = .next { s with
      fb := { s.fb with
        slots := s.fb.slots.set ((s.fb.writeSlot + 1) % s.params.r) { sl with length := 0 },
        writeSlot := (s.fb.writeSlot + 1) % s.params.r,
        frameCount := (s.fb.frameCount + 1) % 2 ^ s.params.fcw } }

/-- R172, C1: `FB.FRAME` with no free slot sets `overrun`, asserts `busy` unless `CONTINUOUS`, clears the slot in progress and
counts the frame. That `busy` is asserted in this branch only is the spec's own decision D20 (log 10). -/
def Obligations.FrameOverrunsWithNoFreeSlot : Prop :=
  ∀ (s : State) (sl : Slot), s.env.origin = .fbFrame →
    (s.fb.writeSlot + 1) % s.params.r = s.fb.readSlot → s.fb.slots[s.fb.writeSlot]? = some sl →
    exec .fbFrame s = .next { s with
      fb := { s.fb with
        slots := s.fb.slots.set s.fb.writeSlot { sl with length := 0 },
        overrun := true,
        busy := s.fb.busy || !s.params.continuous,
        frameCount := (s.fb.frameCount + 1) % 2 ^ s.params.fcw } }

/-- R174, R212: `FB.TAKE` answers `OVERRUN` whenever `overrun` is set, else `NONE` when no frame waits, with no
change; else the samples of slot `readSlot`, positions ascending, and `readSlot` advances. That the take is one step
and keeps the slot is the spec's decision D23 (log 11). -/
def Obligations.TakeResults : Prop :=
  ∀ s : State, s.env.origin = .fbM → s.st.putSeq = .idle →
    (s.fb.overrun = true → exec .fbTake s = .next { s with
      env := { s.env with answers := { s.env.answers with fbM := s.env.answers.fbM ++ [.overrun] } } }) ∧
    (s.fb.overrun = false → s.fb.readSlot = s.fb.writeSlot → exec .fbTake s = .next { s with
      env := { s.env with answers := { s.env.answers with fbM := s.env.answers.fbM ++ [.noFrame] } } }) ∧
    ∀ sl, s.fb.overrun = false → s.fb.readSlot ≠ s.fb.writeSlot → s.fb.slots[s.fb.readSlot]? = some sl →
      Slot.Inv s.params sl →
      exec .fbTake s = .next { s with
        fb := { s.fb with readSlot := (s.fb.readSlot + 1) % s.params.r },
        env := { s.env with
          answers := { s.env.answers with fbM := s.env.answers.fbM ++ [.okFrame sl.samples] } } }

/-- R175: `FB.RESET` clears both indices, every slot's `length`, `overrun`, `frameCount` and `busy`, keeps every data cell, and
answers `OK`, in any state. That it clears `busy` is the spec's own decision D20 (log 10). -/
def Obligations.ResetClearsTheFrameBuffer : Prop :=
  ∀ s : State, s.env.origin = .fbM → s.st.putSeq = .idle →
    exec .fbReset s = .next { s with
      fb := { slots := s.fb.slots.map fun sl => { sl with length := 0 }, writeSlot := 0, readSlot := 0,
              overrun := false, frameCount := 0, busy := false },
      env := { s.env with answers := { s.env.answers with fbM := s.env.answers.fbM ++ [.ok] } } }

/-- R75, R173: over any run without `FB.RESET`, the frames waiting at the start followed by the frames completed and kept are
the frames delivered followed by the frames waiting at the end, in order. A frame completed with no free slot is not kept
(R172). -/
def Obligations.FramesAreTakenInCompletionOrder : Prop :=
  ∀ (n : Nat) (s t : State), s.Inv → s.noReset n → Sys2Proof.core.run n s = .next t →
    ∃ results, t.env.answers.fbM = s.env.answers.fbM ++ results ∧
      s.fb.waiting s.params ++ s.keptFrames n = framesOf results ++ t.fb.waiting t.params

/-- R170, R171: a sample joins the end of the frame in progress, or is dropped when `MAXPOS` are there; the waiting frames do
not change. -/
def Obligations.SamplesJoinTheFrameInProgress : Prop :=
  ∀ (p : Params) (f f' : FrameBuffer) (v : Sample), FrameBuffer.Inv p f → f.sample p v = .ok f' →
    f'.inProgress = f.inProgress ++ (if f.inProgress.length < p.maxPos then [v] else []) ∧
    f'.waiting p = f.waiting p

/-- R176: while `overrun` is set, a frame-complete edge discards the frame in progress, counts it and moves neither
index; the waiting frames stay. That neither handler tests the flag is the spec's decision D30 (log 27). -/
def Obligations.OverrunDiscardsEveryFurtherFrame : Prop :=
  ∀ (p : Params) (f f' : FrameBuffer), FrameBuffer.Inv p f → f.overrun = true → f.frame p = .ok f' →
    f'.overrun = true ∧ f'.writeSlot = f.writeSlot ∧ f'.readSlot = f.readSlot ∧ f'.inProgress = [] ∧
    f'.waiting p = f.waiting p ∧ f'.frameCount = (f.frameCount + 1) % 2 ^ p.fcw

/-- R39: `overrun` is set by an `FB.FRAME` that finds no free slot and by nothing else, cleared by `FB.RESET` and by nothing else, left
set by an `FB.TAKE`, which fails without consuming, and is a status output. -/
def Obligations.OverrunIsSticky : Prop :=
  (∀ s t : State, step s = .next t →
    (s.runs .fbFrame → (s.fb.writeSlot + 1) % s.params.r = s.fb.readSlot → t.fb.overrun = true) ∧
    (s.fb.overrun = false → t.fb.overrun = true →
      s.runs .fbFrame ∧ (s.fb.writeSlot + 1) % s.params.r = s.fb.readSlot) ∧
    (s.runs .fbReset → t.fb.overrun = false) ∧
    (s.fb.overrun = true → t.fb.overrun = false → s.runs .fbReset) ∧
    (s.fb.overrun = true → s.runs .fbTake →
      t.fb = s.fb ∧ t.env.answers.fbM = s.env.answers.fbM ++ [.overrun])) ∧
  ∀ s : State, s.outputs.overrun = s.fb.overrun

/-- R40: the frame counter moves by one modulo `2^FCW` at every `FB.FRAME`, is cleared by `FB.RESET`, is otherwise kept, and is
a status output. One counter, its width and its wrap are the spec's decision D22 (log 27). -/
def Obligations.FrameCounterCountsEveryCompletion : Prop :=
  (∀ s : State, s.outputs.frameCount = s.fb.frameCount) ∧
  ∀ s t : State, step s = .next t →
    (s.runs .fbFrame → t.fb.frameCount = (s.fb.frameCount + 1) % 2 ^ s.params.fcw) ∧
    (s.runs .fbReset → t.fb.frameCount = 0) ∧
    (¬ s.runs .fbFrame → ¬ s.runs .fbReset → t.fb.frameCount = s.fb.frameCount)

/-- R177: from a ring with nothing waiting and no overrun, `R - 1` frame cycles without a take leave `overrun` clear, and the
`R`-th sets it. -/
def Obligations.RingOfFramesOverrunsAtTheRthCycle : Prop :=
  ∀ (p : Params) (f : FrameBuffer) (vss : List (List Sample)), FrameBuffer.Inv p f → f.readSlot = f.writeSlot →
    f.overrun = false → (∀ vs ∈ vss, ∀ v ∈ vs, v.toNat < 2 ^ p.sw) →
    ∃ f', f.cycles p vss = .ok f' ∧
      (vss.length + 1 = p.r → f'.overrun = false ∧ f'.waitingCount p = p.r - 1) ∧
      (vss.length = p.r → f'.overrun = true)

/-! ## Storage -/

/-- R24, R36, R61, R62: a step changes a cell only by the access forms of R181. A cell of RB0 changes only at the write cursor and
only by a `RB.PUT`; of `tx` only at its write cursor and only by a `putChar`'s byte; of `rx` only at the cells a packet's bytes
take; of a slot only at the current length of the slot in progress and only by an `FB.SAMPLE`. -/
def Obligations.CellsChangeOnlyWhereAnOperationStores : Prop :=
  ∀ s t : State, s.Inv → step s = .next t →
    (∀ a, Cells.read t.rb0.storage a ≠ Cells.read s.rb0.storage a →
      a = s.rb0.writeCursor ∧ ∃ v, s.runs (.rbPut v) ∧ Cells.read t.rb0.storage a = some v) ∧
    (∀ a, Cells.read t.st.tx.storage a ≠ Cells.read s.st.tx.storage a →
      a = s.st.tx.writeCursor ∧ ∃ c, s.offeredByte = some c ∧ Cells.read t.st.tx.storage a = some c) ∧
    (∀ a, Cells.read t.st.rx.storage a ≠ Cells.read s.st.rx.storage a →
      ∃ pkt j, s.runs (.stRxpkt pkt) ∧ j < min pkt.length (s.params.rxCap - s.st.rx.count) ∧
        a = (s.st.rx.writeCursor + j) % s.params.rxCap ∧ Cells.read t.st.rx.storage a = pkt[j]?) ∧
    (∀ k a, Cells.read (t.fb.slotAt k).data a ≠ Cells.read (s.fb.slotAt k).data a →
      k = s.fb.writeSlot ∧ a = (s.fb.slotAt k).length ∧
        ∃ v, s.runs (.fbSample v) ∧ Cells.read (t.fb.slotAt k).data a = some v)

/-- R11, U4, D33: an operation that reads an `unwritten` cell, which only a hand-built state can make it do, faults and gives
no value (log 5): the `get` of `RB.GET` and of `ST.GETCHAR`; the slot load of `FB.TAKE`; the drain of `tx` in `ST.TXDONE`, in
`ST.SUBMIT`, and in the issue, retry and exhausted phases of `putChar`. -/
def Obligations.UnwrittenCellsFault : Prop :=
  (∀ s : State, s.env.origin = .rbC → s.rb0.count ≠ 0 → s.rb0.readCursor < s.params.cap →
    Cells.read s.rb0.storage s.rb0.readCursor = none → exec .rbGet s = .fault .readUnwritten) ∧
  (∀ s : State, s.env.origin = .stM → s.st.putSeq = .idle → s.st.rx.count ≠ 0 → s.st.rx.readCursor < s.params.rxCap →
    Cells.read s.st.rx.storage s.st.rx.readCursor = none → exec .stGetchar s = .fault .readUnwritten) ∧
  (∀ (s : State) (sl : Slot), s.env.origin = .fbM → s.st.putSeq = .idle → s.fb.overrun = false →
    s.fb.readSlot ≠ s.fb.writeSlot → s.fb.slots[s.fb.readSlot]? = some sl → sl.length ≤ s.params.maxPos →
    (∃ i, i < sl.length ∧ Cells.read sl.data i = none) → exec .fbTake s = .fault .readUnwritten) ∧
  (∀ s : State, s.st.tx.readCursor < s.params.txCap →
    RingBuffer.MeetsUnwritten s.params.txCap (min s.st.tx.count s.params.maxPkt) s.st.tx →
    (s.env.origin = .stTxdone → exec .stTxdone s = .fault .readUnwritten) ∧
    (s.env.origin = .stM → s.st.putSeq = .idle → s.st.txIdle = true → exec .stSubmit s = .fault .readUnwritten) ∧
    ∀ c, s.st.txIdle = true → putCharPhase c 0 s = .fault .readUnwritten) ∧
  ∀ (s : State) (c : Byte), s.st.txIdle = true → s.st.tx.readCursor < s.params.txCap →
    s.st.tx.writeCursor < s.params.txCap → s.st.tx.count < s.params.txCap →
    RingBuffer.MeetsUnwritten s.params.txCap (min (s.st.tx.count + 1) s.params.maxPkt)
      { s.st.tx with storage := Cells.write s.st.tx.storage s.st.tx.writeCursor c } →
    (s.env.origin = .stM → s.st.putSeq = .idle → exec (.stPutchar c) s = .fault .readUnwritten) ∧
    (∀ k, putCharPhase c (k + 1) s = .fault .readUnwritten) ∧
    (s.st.tx.count = 0 → putCharPhase c 0 s = .fault .readUnwritten)

/-- R48, R50: the values after construction of the three queues and of the frame buffer, for any parameters. Zero for the cursors
and false for `busy` are the spec's own decisions D7 and D24 (logs 15 and 20). -/
def Obligations.ValuesAfterConstruction : Prop :=
  ∀ p : Params,
    let s := State.construct p
    (s.rb0.count = 0 ∧ s.rb0.readCursor = 0 ∧ s.rb0.writeCursor = 0 ∧ ∀ a, Cells.read s.rb0.storage a = none) ∧
    (s.st.rx.count = 0 ∧ s.st.rx.readCursor = 0 ∧ s.st.rx.writeCursor = 0 ∧ ∀ a, Cells.read s.st.rx.storage a = none) ∧
    (s.st.tx.count = 0 ∧ s.st.tx.readCursor = 0 ∧ s.st.tx.writeCursor = 0 ∧ ∀ a, Cells.read s.st.tx.storage a = none) ∧
    s.st.txIdle = true ∧ s.st.putSeq = .idle ∧ s.log.hwtx = [] ∧
    s.fb.slots.length = p.r ∧ (∀ k a, (s.fb.slotAt k).length = 0 ∧ Cells.read (s.fb.slotAt k).data a = none) ∧
    s.fb.writeSlot = 0 ∧ s.fb.readSlot = 0 ∧ s.fb.overrun = false ∧ s.fb.frameCount = 0 ∧ s.fb.busy = false

/-! ## Below the indivisible step -/

/-- R238, R239: every interleaving of the actions of one `put` with those of one `get` that ends gives the answers and the
queue of one of the two orders of the whole operations, no interleaving faults, and at every point `count`, which is all an
observer reads, is exact: it counts what the `put` has published and the `get` has not released. Whole packets that fall
between the actions of a `getChar` give what some of them first, then the whole `getChar`, then the others give. A single
packet comes first where it precedes the test, or where the test found data and the `getChar` has not ended; it comes
last otherwise. The actions are the model's rendering of the numbered steps (log 11). -/
def Obligations.PutAndGetInterleaveAsWholeOperations : Prop :=
  (∀ (α : Type) (cap : Nat) (v : α) (q : RingBuffer α) (turns : List Bool), RingBuffer.Inv cap q →
    ∃ x, PutGet.run cap v turns (PutGet.start q) = .ok x ∧
      (∀ stored answer, x.putAt = .done stored → x.getAt = .done answer →
        putThenGet cap v q = .ok (stored, answer, x.ring) ∨ getThenPut cap v q = .ok (stored, answer, x.ring)) ∧
      x.ring.count + x.getAt.released = q.count + x.putAt.published) ∧
  (∀ (α : Type) (cap : Nat) (q : RingBuffer α) (turns : List (Option (List α))), RingBuffer.Inv cap q →
    ∃ x, PreemptedGet.run cap turns (PreemptedGet.start q) = .ok x ∧
      ∀ answer, x.getAt = .done answer →
        ∃ before after, before ++ after = turns.filterMap id ∧
          getBetweenPackets cap before after q = .ok (answer, x.ring)) ∧
  ∀ (α : Type) (cap : Nat) (q : RingBuffer α) (pkt : List α) (n : Nat), RingBuffer.Inv cap q →
    ∃ answer q', getAcrossPacket cap pkt n q = .ok { getAt := .done answer, ring := q' } ∧
      (n = 0 ∨ q.count ≠ 0 ∧ n < 4 → getBetweenPackets cap [pkt] [] q = .ok (answer, q')) ∧
      (1 ≤ n ∧ q.count = 0 ∨ 4 ≤ n → getBetweenPackets cap [] [pkt] q = .ok (answer, q'))

/-- R240: a `tryTake` preempted between its test and its copy by a frame-complete edge that finds no free slot delivers the same
frame as an uninterrupted one and leaves `overrun` set, which neither order of the whole operations does. -/
def Obligations.PreemptedTakeLeavesASpuriousOverrun : Prop :=
  ∀ (p : Params) (f f₁ : FrameBuffer), FrameBuffer.Inv p f → f.takeTest = true →
    (f.writeSlot + 1) % p.r = f.readSlot → f.frame p = .ok f₁ →
    ∃ f₂ f₃ frame, f₁.takeFinish p = .ok (f₂, .okFrame frame) ∧ f₂.overrun = true ∧
      f.take p = .ok (f₃, .okFrame frame) ∧ f₃.overrun = false ∧
      (∀ f₄, f₃.frame p = .ok f₄ → f₄.overrun = false) ∧ f₁.take p = .ok (f₁, .overrun)
end

