-- ==== Sys2Proof/Laws/Cells.lean ====
section
/-! SUPPORT. Storage arrays: a read after a write, the canonical form, and what the two access operations can do. -/

namespace Sys2Proof.Machine

variable {α : Type}

@[simp] theorem Cells.read_nil (i : Nat) : Cells.read ([] : Cells α) i = none := rfl

/-- A write is read back at its own index. -/
@[simp] theorem Cells.read_write_self (m : Cells α) (i : Nat) (v : α) : (Cells.write m i v).read i = some v := by
  induction m with
  | nil => simp [Cells.write, Cells.read]
  | cons c m ih =>
    obtain ⟨j, u⟩ := c
    unfold Cells.write
    split
    · simp [Cells.read]
    · split
      · simp [Cells.read]
      · next h => simp [Cells.read, h, ih]

/-- A write leaves every other index alone. -/
theorem Cells.read_write_of_ne (m : Cells α) {i k : Nat} (v : α) (h : k ≠ i) :
    (Cells.write m i v).read k = m.read k := by
  have h' : i ≠ k := fun e => h e.symm
  induction m with
  | nil => simp [Cells.write, Cells.read, h']
  | cons c m ih =>
    obtain ⟨j, u⟩ := c
    unfold Cells.write
    split
    · simp [Cells.read, h']
    · split
      · next hj => subst hj; simp [Cells.read, h']
      · simp [Cells.read, ih]

/-- The cells after a write are the one written and old ones. -/
theorem Cells.mem_write {m : Cells α} {i : Nat} {v : α} {c : Nat × α} (h : c ∈ Cells.write m i v) :
    c = (i, v) ∨ c ∈ m := by
  induction m with
  | nil => simpa [Cells.write] using h
  | cons d m ih =>
    obtain ⟨j, u⟩ := d
    unfold Cells.write at h
    split at h
    · simpa using h
    · split at h
      · rcases List.mem_cons.mp h with h | h
        · exact .inl h
        · exact .inr (List.mem_cons_of_mem _ h)
      · rcases List.mem_cons.mp h with h | h
        · exact .inr (h ▸ List.mem_cons_self)
        · exact (ih h).imp id (List.mem_cons_of_mem _)

/-- A write inside the array keeps the canonical form. -/
theorem Cells.write_wf {m : Cells α} {bound i : Nat} (v : α) (h : Cells.Wf bound m) (hi : i < bound) :
    Cells.Wf bound (Cells.write m i v) := by
  refine ⟨?_, fun c hc => ?_⟩
  · have hs := h.1
    clear h
    induction m with
    | nil => simp [Cells.write]
    | cons d m ih =>
      obtain ⟨j, u⟩ := d
      simp only [List.map_cons, List.pairwise_cons] at hs
      unfold Cells.write
      split
      · next hij =>
        simp only [List.map_cons, List.pairwise_cons, List.mem_cons]
        refine ⟨?_, hs.1, hs.2⟩
        rintro k (rfl | hk)
        · exact hij
        · exact Nat.lt_trans hij (hs.1 k hk)
      · split
        · next _ hj => subst hj; simpa using hs
        · next hlt hne =>
          simp only [List.map_cons, List.pairwise_cons]
          refine ⟨?_, ih hs.2⟩
          intro k hk
          obtain ⟨c, hc, rfl⟩ := List.mem_map.mp hk
          rcases Cells.mem_write hc with rfl | hc
          · simp only; omega
          · exact hs.1 _ (List.mem_map_of_mem hc)
  · rcases Cells.mem_write hc with rfl | hc
    · exact hi
    · exact h.2 c hc

/-- A write of a value in range keeps every value in range. -/
theorem Cells.write_below {m : Cells (BitVec 16)} {width i : Nat} {v : BitVec 16} (h : Cells.Below width m)
    (hv : v.toNat < 2 ^ width) : Cells.Below width (Cells.write m i v) := by
  intro c hc
  rcases Cells.mem_write hc with rfl | hc
  · exact hv
  · exact h c hc

/-- A cell that reads as a value is in the list. -/
theorem Cells.mem_of_read {m : Cells α} {i : Nat} {v : α} (h : m.read i = some v) : (i, v) ∈ m := by
  induction m with
  | nil => simp at h
  | cons d m ih =>
    obtain ⟨j, u⟩ := d
    simp only [Cells.read] at h
    split at h
    · next hj => subst hj; simp_all
    · exact List.mem_cons_of_mem _ (ih h)

/-- Two arrays in canonical form that read alike at every index are the same data. -/
theorem Cells.eq_of_read_eq {m m' : Cells α} {bound : Nat} (h : Cells.Wf bound m) (h' : Cells.Wf bound m')
    (e : ∀ i, m.read i = m'.read i) : m = m' := by
  have hs := h.1
  have hs' := h'.1
  clear h h'
  induction m generalizing m' with
  | nil =>
    cases m' with
    | nil => rfl
    | cons d m' => have := e d.1; simp [Cells.read] at this
  | cons d m ih =>
    cases m' with
    | nil => have := e d.1; simp [Cells.read] at this
    | cons d' m' =>
      obtain ⟨j, u⟩ := d
      obtain ⟨j', u'⟩ := d'
      simp only [List.map_cons, List.pairwise_cons] at hs hs'
      have hread : ∀ (n : Cells α) (k : Nat), (∀ x ∈ n.map Prod.fst, k < x) → n.read k = none := by
        intro n k hk
        cases hr : n.read k with
        | none => rfl
        | some v => exact absurd (hk k (List.mem_map_of_mem (Cells.mem_of_read hr))) (Nat.lt_irrefl k)
      have hj : j = j' := by
        have e1 := e j
        have e2 := e j'
        simp only [Cells.read] at e1 e2
        by_contra hne
        rcases Nat.lt_or_gt_of_ne hne with hlt | hlt
        · have : Cells.read m' j = none := hread m' j fun x hx => Nat.lt_trans hlt (hs'.1 x hx)
          simp [Ne.symm hne, this] at e1
        · have : Cells.read m j' = none := hread m j' fun x hx => Nat.lt_trans hlt (hs.1 x hx)
          simp [hne, this] at e2
      subst hj
      have hu : u = u' := by have e1 := e j; simpa [Cells.read] using e1
      subst hu
      congr 1
      refine ih (fun i => ?_) hs.2 hs'.2
      by_cases hij : j = i
      · subst hij
        rw [hread m j hs.1, hread m' j hs'.1]
      · simpa [Cells.read, hij] using e i

/-- Everything a read of a cell can answer. -/
theorem loadCell_eq_ok {bound i : Nat} {m : Cells α} {v : α} :
    loadCell bound m i = .ok v ↔ i < bound ∧ m.read i = some v := by
  unfold loadCell
  split
  · next h => split <;> simp_all
  · next h => simp [h]

/-- Everything a store can answer. -/
theorem storeCell_eq_ok {bound i : Nat} {m m' : Cells α} {v : α} :
    storeCell bound m i v = .ok m' ↔ i < bound ∧ m' = m.write i v := by
  unfold storeCell
  split <;> simp_all [eq_comm]

@[simp] theorem loadCells_zero (bound : Nat) (m : Cells α) (start : Nat) : loadCells bound m start 0 = .ok [] := rfl

/-- A run of written cells inside the array is read whole, in order. -/
theorem loadCells_eq_ok {bound start n : Nat} {m : Cells α} (hb : start + n ≤ bound)
    (hw : ∀ i, i < n → (m.read (start + i)).isSome = true) :
    loadCells bound m start n = .ok ((List.range n).filterMap fun i => m.read (start + i)) := by
  induction n generalizing start with
  | zero => rfl
  | succ n ih =>
    obtain ⟨v, hv⟩ := Option.isSome_iff_exists.mp (hw 0 (Nat.succ_pos n))
    have h0 : loadCell bound m start = .ok v := loadCell_eq_ok.mpr ⟨by omega, by simpa using hv⟩
    have ih' := @ih (start + 1) (by omega) (fun i hi => by
      have := hw (i + 1) (by omega)
      rwa [show start + 1 + i = start + (i + 1) by omega])
    simp only [loadCells, h0, ih', List.range_succ_eq_map, List.filterMap_cons, List.filterMap_map]
    simp only [Nat.add_zero] at hv
    simp only [Nat.add_zero, hv]
    refine congrArg Except.ok (congrArg (List.cons v) ?_)
    refine List.filterMap_congr fun i _ => ?_
    simp [Nat.add_assoc, Nat.add_comm 1]

/-- A run in which one cell is unwritten is not read: it faults, whatever stands before that cell. -/
theorem loadCells_unwritten {bound start n : Nat} {m : Cells α} (hb : start + n ≤ bound)
    (h : ∃ i, i < n ∧ m.read (start + i) = none) : loadCells bound m start n = .error .readUnwritten := by
  induction n generalizing start with
  | zero => obtain ⟨i, hi, -⟩ := h; omega
  | succ n ih =>
    have hs : start < bound := by omega
    unfold loadCells
    cases hv : Cells.read m start with
    | none => simp [loadCell, hv, hs]
    | some v =>
      simp only [loadCell, hv, hs, if_true]
      rw [ih (by omega)]
      obtain ⟨i, hi, he⟩ := h
      cases i with
      | zero => rw [Nat.add_zero, hv] at he; cases he
      | succ i => exact ⟨i, by omega, by rw [← he]; congr 1; omega⟩

end Sys2Proof.Machine
end

