-- ==== Sys2Proof/Laws/Decode.lean ====
section
/-! SUPPORT. The fields of an encoded header word, payload words, and the decoding of a header. -/

namespace Sys2Proof

@[simp] theorem unitOf_headerWord (u o : BitVec 4) (a : BitVec 16) : unitOf (headerWord u o a) = u.toNat := by
  refine congrArg BitVec.toNat (BitVec.eq_of_getLsbD_eq fun i hi => ?_)
  simp only [headerWord, BitVec.getLsbD_extractLsb', BitVec.getLsbD_append, hi, decide_true, Bool.true_and]
  rw [if_neg (by omega), if_neg (by omega), if_neg (by omega)]
  congr 1
  omega

@[simp] theorem opOf_headerWord (u o : BitVec 4) (a : BitVec 16) : opOf (headerWord u o a) = o.toNat := by
  refine congrArg BitVec.toNat (BitVec.eq_of_getLsbD_eq fun i hi => ?_)
  simp only [headerWord, BitVec.getLsbD_extractLsb', BitVec.getLsbD_append, hi, decide_true, Bool.true_and]
  rw [if_neg (by omega), if_neg (by omega), if_pos (by omega)]
  congr 1
  omega

@[simp] theorem zOf_headerWord (u o : BitVec 4) (a : BitVec 16) : zOf (headerWord u o a) = 0 := by
  refine BitVec.eq_of_getLsbD_eq fun i hi => ?_
  simp only [zOf, headerWord, BitVec.getLsbD_extractLsb', BitVec.getLsbD_append, hi, decide_true, Bool.true_and]
  rw [if_neg (by omega), if_pos (by omega)]
  simp

@[simp] theorem argOf_headerWord (u o : BitVec 4) (a : BitVec 16) : argOf (headerWord u o a) = a := by
  refine BitVec.eq_of_getLsbD_eq fun i hi => ?_
  simp only [argOf, headerWord, BitVec.getLsbD_extractLsb', BitVec.getLsbD_append, hi, decide_true, Bool.true_and]
  rw [if_pos (by omega)]
  congr 1
  omega

@[simp] theorem argLow_headerWord (u o : BitVec 4) (a : BitVec 16) :
    argLow (headerWord u o a) = a.extractLsb' 0 8 := by
  refine BitVec.eq_of_getLsbD_eq fun i hi => ?_
  simp only [argLow, headerWord, BitVec.getLsbD_extractLsb', BitVec.getLsbD_append, hi, decide_true, Bool.true_and]
  rw [if_pos (by omega)]

@[simp] theorem argHigh_headerWord (u o : BitVec 4) (a : BitVec 16) :
    argHigh (headerWord u o a) = a.extractLsb' 8 8 := by
  refine BitVec.eq_of_getLsbD_eq fun i hi => ?_
  simp only [argHigh, headerWord, BitVec.getLsbD_extractLsb', BitVec.getLsbD_append, hi, decide_true, Bool.true_and]
  rw [if_pos (by omega)]

/-- A word is its four fields. -/
theorem headerWord_fields (w : Word) (hz : zOf w = 0) :
    headerWord (w.extractLsb' 28 4) (w.extractLsb' 24 4) (argOf w) = w := by
  refine BitVec.eq_of_getLsbD_eq fun i hi => ?_
  simp only [headerWord, argOf, BitVec.getLsbD_extractLsb', BitVec.getLsbD_append]
  split
  · next h => simp [h]
  · next h =>
    split
    · next h8 =>
      have hb := congrArg (fun x => BitVec.getLsbD x (i - 16)) hz
      simp only [zOf, BitVec.getLsbD_extractLsb', h8, decide_true, Bool.true_and] at hb
      rw [show 16 + (i - 16) = i by omega] at hb
      rw [hb]
      simp
    · next h8 =>
      split
      · next h4 => simp only [h4, decide_true, Bool.true_and]; congr 1; omega
      · next h4 =>
        simp only [show i - 16 - 8 - 4 < 4 by omega, decide_true, Bool.true_and]
        congr 1
        omega

@[simp] theorem payloadByte_payloadWord (b : Byte) : payloadByte (payloadWord b) = some b := by
  have h1 : (payloadWord b).extractLsb' 8 24 = 0 := by
    refine BitVec.eq_of_getLsbD_eq fun i hi => ?_
    simp [payloadWord, BitVec.getLsbD_extractLsb']
  have h2 : (payloadWord b).extractLsb' 0 8 = b := by
    refine BitVec.eq_of_getLsbD_eq fun i hi => ?_
    simp [payloadWord, hi]
    omega
  simp [payloadByte, h1, h2]

/-- A well-formed payload word is its byte's (R96). -/
theorem payloadByte_eq_some {w : Word} {b : Byte} : payloadByte w = some b ↔ w = payloadWord b := by
  constructor
  · intro h
    unfold payloadByte at h
    split at h
    · next hz =>
      cases h
      refine BitVec.eq_of_getLsbD_eq fun i hi => ?_
      simp only [payloadWord, BitVec.getLsbD_setWidth, hi, decide_true, Bool.true_and, BitVec.getLsbD_extractLsb',
        Nat.zero_add]
      by_cases h8 : i < 8
      · simp [h8]
      · have hb := congrArg (fun x => BitVec.getLsbD x (i - 8)) hz
        simp only [BitVec.getLsbD_extractLsb', show i - 8 < 24 by omega, decide_true, Bool.true_and] at hb
        rw [show 8 + (i - 8) = i by omega] at hb
        rw [hb]
        simp [h8]
    · cases h
  · rintro rfl
    exact payloadByte_payloadWord b

@[simp] theorem payloadBytes_map (bs : List Byte) : payloadBytes (bs.map payloadWord) = some bs := by
  induction bs with
  | nil => rfl
  | cons b bs ih => simp [payloadBytes, ih]

theorem payloadBytes_eq_some {ws : List Word} {bs : List Byte} :
    payloadBytes ws = some bs ↔ ws = bs.map payloadWord := by
  constructor
  · intro h
    induction ws generalizing bs with
    | nil => cases h; rfl
    | cons w ws ih =>
      unfold payloadBytes at h
      split at h
      · next b bs' hb hbs =>
        cases h
        rw [List.map_cons, ← payloadByte_eq_some.mp hb, ← ih hbs]
      · cases h
  · rintro rfl
    exact payloadBytes_map bs

/-- A request of one word is decoded from its header alone (R107). -/
theorem decode_op {p : Params} {h : Word} {t : List Word} {i : Instr} (hh : decodeHeader p h = .ok (.op i)) :
    decode p (h :: t) = some (.op i, t) := by
  simp [decode, hh]

/-- An illegal header is a request of length one (R105, R107). -/
theorem decode_bad {p : Params} {h : Word} {t : List Word} {e : DecodeError} (hh : decodeHeader p h = .error e) :
    decode p (h :: t) = some (.bad e, t) := by
  simp [decode, hh]

end Sys2Proof
end

