-- ==== Sys2Proof/Laws/State.lean ====
section
/-! SUPPORT. One lemma per field for every update of the state, all by `rfl`, and the laws of the ports. -/

namespace Sys2Proof.Machine

variable (s : State)

/-! ### `State.withRb0` -/

@[simp] theorem State.withRb0_params (q : RingBuffer Elem) : (s.withRb0 q).params = s.params := rfl
@[simp] theorem State.withRb0_rb0 (q : RingBuffer Elem) : (s.withRb0 q).rb0 = q := rfl
@[simp] theorem State.withRb0_st (q : RingBuffer Elem) : (s.withRb0 q).st = s.st := rfl
@[simp] theorem State.withRb0_fb (q : RingBuffer Elem) : (s.withRb0 q).fb = s.fb := rfl
@[simp] theorem State.withRb0_log (q : RingBuffer Elem) : (s.withRb0 q).log = s.log := rfl
@[simp] theorem State.withRb0_env (q : RingBuffer Elem) : (s.withRb0 q).env = s.env := rfl

/-! ### `State.withRx` -/

@[simp] theorem State.withRx_params (q : RingBuffer Byte) : (s.withRx q).params = s.params := rfl
@[simp] theorem State.withRx_rb0 (q : RingBuffer Byte) : (s.withRx q).rb0 = s.rb0 := rfl
@[simp] theorem State.withRx_st (q : RingBuffer Byte) : (s.withRx q).st = { s.st with rx := q } := rfl
@[simp] theorem State.withRx_fb (q : RingBuffer Byte) : (s.withRx q).fb = s.fb := rfl
@[simp] theorem State.withRx_log (q : RingBuffer Byte) : (s.withRx q).log = s.log := rfl
@[simp] theorem State.withRx_env (q : RingBuffer Byte) : (s.withRx q).env = s.env := rfl

/-! ### `State.withTx` -/

@[simp] theorem State.withTx_params (q : RingBuffer Byte) : (s.withTx q).params = s.params := rfl
@[simp] theorem State.withTx_rb0 (q : RingBuffer Byte) : (s.withTx q).rb0 = s.rb0 := rfl
@[simp] theorem State.withTx_st (q : RingBuffer Byte) : (s.withTx q).st = { s.st with tx := q } := rfl
@[simp] theorem State.withTx_fb (q : RingBuffer Byte) : (s.withTx q).fb = s.fb := rfl
@[simp] theorem State.withTx_log (q : RingBuffer Byte) : (s.withTx q).log = s.log := rfl
@[simp] theorem State.withTx_env (q : RingBuffer Byte) : (s.withTx q).env = s.env := rfl

/-! ### `State.withTxIdle` -/

@[simp] theorem State.withTxIdle_params (b : Bool) : (s.withTxIdle b).params = s.params := rfl
@[simp] theorem State.withTxIdle_rb0 (b : Bool) : (s.withTxIdle b).rb0 = s.rb0 := rfl
@[simp] theorem State.withTxIdle_st (b : Bool) : (s.withTxIdle b).st = { s.st with txIdle := b } := rfl
@[simp] theorem State.withTxIdle_fb (b : Bool) : (s.withTxIdle b).fb = s.fb := rfl
@[simp] theorem State.withTxIdle_log (b : Bool) : (s.withTxIdle b).log = s.log := rfl
@[simp] theorem State.withTxIdle_env (b : Bool) : (s.withTxIdle b).env = s.env := rfl

/-! ### `State.withPutSeq` -/

@[simp] theorem State.withPutSeq_params (q : PutSeq) : (s.withPutSeq q).params = s.params := rfl
@[simp] theorem State.withPutSeq_rb0 (q : PutSeq) : (s.withPutSeq q).rb0 = s.rb0 := rfl
@[simp] theorem State.withPutSeq_st (q : PutSeq) : (s.withPutSeq q).st = { s.st with putSeq := q } := rfl
@[simp] theorem State.withPutSeq_fb (q : PutSeq) : (s.withPutSeq q).fb = s.fb := rfl
@[simp] theorem State.withPutSeq_log (q : PutSeq) : (s.withPutSeq q).log = s.log := rfl
@[simp] theorem State.withPutSeq_env (q : PutSeq) : (s.withPutSeq q).env = s.env := rfl

/-! ### `State.withFb` -/

@[simp] theorem State.withFb_params (f : FrameBuffer) : (s.withFb f).params = s.params := rfl
@[simp] theorem State.withFb_rb0 (f : FrameBuffer) : (s.withFb f).rb0 = s.rb0 := rfl
@[simp] theorem State.withFb_st (f : FrameBuffer) : (s.withFb f).st = s.st := rfl
@[simp] theorem State.withFb_fb (f : FrameBuffer) : (s.withFb f).fb = f := rfl
@[simp] theorem State.withFb_log (f : FrameBuffer) : (s.withFb f).log = s.log := rfl
@[simp] theorem State.withFb_env (f : FrameBuffer) : (s.withFb f).env = s.env := rfl

/-! ### `State.emitHwtx` -/

@[simp] theorem State.emitHwtx_params (buf : List Byte) : (s.emitHwtx buf).params = s.params := rfl
@[simp] theorem State.emitHwtx_rb0 (buf : List Byte) : (s.emitHwtx buf).rb0 = s.rb0 := rfl
@[simp] theorem State.emitHwtx_st (buf : List Byte) : (s.emitHwtx buf).st = s.st := rfl
@[simp] theorem State.emitHwtx_fb (buf : List Byte) : (s.emitHwtx buf).fb = s.fb := rfl
@[simp] theorem State.emitHwtx_log (buf : List Byte) : (s.emitHwtx buf).log = { hwtx := s.log.hwtx ++ [buf] } := rfl
@[simp] theorem State.emitHwtx_env (buf : List Byte) : (s.emitHwtx buf).env = s.env := rfl

/-! ### `State.respond` -/

@[simp] theorem State.respond_params (r : Result) : (s.respond r).params = s.params := rfl
@[simp] theorem State.respond_rb0 (r : Result) : (s.respond r).rb0 = s.rb0 := rfl
@[simp] theorem State.respond_st (r : Result) : (s.respond r).st = s.st := rfl
@[simp] theorem State.respond_fb (r : Result) : (s.respond r).fb = s.fb := rfl
@[simp] theorem State.respond_log (r : Result) : (s.respond r).log = s.log := rfl
@[simp] theorem State.respond_env (r : Result) :
    (s.respond r).env =
      { s.env with answers := s.env.answers.push s.env.origin r } := rfl

/-! ### `State.answerIllegal` -/

@[simp] theorem State.answerIllegal_params : s.answerIllegal.params = s.params := rfl
@[simp] theorem State.answerIllegal_rb0 : s.answerIllegal.rb0 = s.rb0 := rfl
@[simp] theorem State.answerIllegal_st : s.answerIllegal.st = s.st := rfl
@[simp] theorem State.answerIllegal_fb : s.answerIllegal.fb = s.fb := rfl
@[simp] theorem State.answerIllegal_log : s.answerIllegal.log = s.log := rfl
@[simp] theorem State.answerIllegal_env :
    s.answerIllegal.env =
      { s.env with answers := s.env.answers.push s.env.origin .illegal } := rfl

/-! ### `State.withOrigin` -/

@[simp] theorem State.withOrigin_params (ch : Channel) : (s.withOrigin ch).params = s.params := rfl
@[simp] theorem State.withOrigin_rb0 (ch : Channel) : (s.withOrigin ch).rb0 = s.rb0 := rfl
@[simp] theorem State.withOrigin_st (ch : Channel) : (s.withOrigin ch).st = s.st := rfl
@[simp] theorem State.withOrigin_fb (ch : Channel) : (s.withOrigin ch).fb = s.fb := rfl
@[simp] theorem State.withOrigin_log (ch : Channel) : (s.withOrigin ch).log = s.log := rfl
@[simp] theorem State.withOrigin_env (ch : Channel) : (s.withOrigin ch).env = { s.env with origin := ch } := rfl

/-! ### `State.popTurn` -/

@[simp] theorem State.popTurn_params : s.popTurn.params = s.params := rfl
@[simp] theorem State.popTurn_rb0 : s.popTurn.rb0 = s.rb0 := rfl
@[simp] theorem State.popTurn_st : s.popTurn.st = s.st := rfl
@[simp] theorem State.popTurn_fb : s.popTurn.fb = s.fb := rfl
@[simp] theorem State.popTurn_log : s.popTurn.log = s.log := rfl
@[simp] theorem State.popTurn_env : s.popTurn.env = { s.env with schedule := s.env.schedule.tail } := rfl

/-! ### `State.accept` -/

@[simp] theorem State.accept_params (ch : Channel) (rest : List Word) : (s.accept ch rest).params = s.params := rfl
@[simp] theorem State.accept_rb0 (ch : Channel) (rest : List Word) : (s.accept ch rest).rb0 = s.rb0 := rfl
@[simp] theorem State.accept_st (ch : Channel) (rest : List Word) : (s.accept ch rest).st = s.st := rfl
@[simp] theorem State.accept_fb (ch : Channel) (rest : List Word) : (s.accept ch rest).fb = s.fb := rfl
@[simp] theorem State.accept_log (ch : Channel) (rest : List Word) : (s.accept ch rest).log = s.log := rfl
@[simp] theorem State.accept_env (ch : Channel) (rest : List Word) :
    (s.accept ch rest).env =
      { schedule := s.env.schedule.tail, ports := s.env.ports.set ch rest, origin := ch, answers := s.env.answers } := rfl

/-! ### `State.present` -/

@[simp] theorem State.present_params (ch : Channel) (ws : List Word) : (s.present ch ws).params = s.params := rfl
@[simp] theorem State.present_rb0 (ch : Channel) (ws : List Word) : (s.present ch ws).rb0 = s.rb0 := rfl
@[simp] theorem State.present_st (ch : Channel) (ws : List Word) : (s.present ch ws).st = s.st := rfl
@[simp] theorem State.present_fb (ch : Channel) (ws : List Word) : (s.present ch ws).fb = s.fb := rfl
@[simp] theorem State.present_log (ch : Channel) (ws : List Word) : (s.present ch ws).log = s.log := rfl
@[simp] theorem State.present_env (ch : Channel) (ws : List Word) :
    (s.present ch ws).env =
      { s.env with schedule := s.env.schedule ++ [ch], ports := s.env.ports.set ch (s.env.ports.get ch ++ ws) } := rfl

/-! ### Ports and answers -/

@[simp] theorem Ports.get_set_self (p : Ports) (ch : Channel) (ws : List Word) : (p.set ch ws).get ch = ws := by
  cases ch <;> rfl

theorem Ports.get_set_of_ne (p : Ports) {ch ch' : Channel} (ws : List Word) (h : ch' ≠ ch) :
    (p.set ch ws).get ch' = p.get ch' := by
  cases ch <;> cases ch' <;> first | rfl | exact absurd rfl h

@[simp] theorem Ports.set_get_self (p : Ports) (ch : Channel) : p.set ch (p.get ch) = p := by
  cases ch <;> rfl

@[simp] theorem Ports.set_set_self (p : Ports) (ch : Channel) (ws ws' : List Word) :
    (p.set ch ws).set ch ws' = p.set ch ws' := by
  cases ch <;> rfl

/-- A response channel carries the new result after the earlier ones. -/
theorem Answers.get_push_self (a : Answers) {ch : Channel} (r : Result) (h : ch.answers = true) :
    (a.push ch r).get ch = a.get ch ++ [r] := by
  cases ch <;> first | rfl | exact absurd h (by decide)

/-- No other response channel changes. -/
theorem Answers.get_push_of_ne (a : Answers) {ch ch' : Channel} (r : Result) (h : ch' ≠ ch) :
    (a.push ch r).get ch' = a.get ch' := by
  cases ch <;> cases ch' <;> first | rfl | exact absurd rfl h

/-- An event input has no response: what is sent there is dropped. -/
theorem Answers.push_event (a : Answers) {ch : Channel} (r : Result) (h : ch.answers = false) : a.push ch r = a := by
  cases ch <;> first | rfl | exact absurd h (by decide)

end Sys2Proof.Machine
end

