-- ==== Sys2Proof/Laws/Frame.lean ====
section
/-! SUPPORT. What the operations of unit U3 do to a frame buffer that has the invariant of R35 to R41. -/

namespace Sys2Proof.Machine

variable {p : Params} {f : FrameBuffer}

theorem FrameBuffer.construct_inv (hp : 2 ≤ p.r) : FrameBuffer.Inv p (FrameBuffer.construct p.r) := by
  refine ⟨by simp [FrameBuffer.construct], ?_, by simp only [FrameBuffer.construct]; omega,
    by simp only [FrameBuffer.construct]; omega, Nat.two_pow_pos _, by simp [FrameBuffer.construct],
    by simp [FrameBuffer.construct]⟩
  intro sl hsl
  simp only [FrameBuffer.construct, List.mem_replicate] at hsl
  obtain ⟨-, rfl⟩ := hsl
  exact ⟨⟨List.Pairwise.nil, by simp⟩, by simp, Nat.zero_le _, by simp⟩

/-- A slot index in range names a slot. -/
theorem FrameBuffer.slot_of_lt {k : Nat} (hl : f.slots.length = p.r) (hk : k < p.r) :
    f.slots[k]? = some (f.slotAt k) := by
  simp [FrameBuffer.slotAt, List.getElem?_eq_getElem (by omega : k < f.slots.length)]

theorem FrameBuffer.slotAt_inv {k : Nat} (hf : FrameBuffer.Inv p f) (hk : k < p.r) : Slot.Inv p (f.slotAt k) :=
  hf.2.1 _ (List.mem_of_getElem? (FrameBuffer.slot_of_lt hf.1 hk))

/-- The slot read after one slot is replaced. -/
theorem FrameBuffer.slotAt_set {k j : Nat} {sl : Slot} (slots : List Slot) (hk : k < slots.length)
    (hs : f.slots = slots.set k sl) :
    f.slotAt j = if j = k then sl else (slots[j]?).getD { data := [], length := 0 } := by
  rw [FrameBuffer.slotAt, hs, List.getElem?_set]
  by_cases h : j = k
  · subst h; simp [hk]
  · rw [if_neg (fun e => h e.symm), if_neg h]

/-- Every sample of a slot with the invariant is read, in order (R62, R67). -/
theorem loadSamples_ok {sl : Slot} (h : Slot.Inv p sl) : loadSamples p.maxPos sl = .ok sl.samples := by
  have := loadCells_eq_ok (bound := p.maxPos) (start := 0) (n := sl.length) (m := sl.data)
    (by have := h.2.2.1; omega) (by simpa using h.2.2.2)
  simpa [loadSamples, Slot.samples] using this

/-- A slot with room takes the sample at its current length; a full slot drops it (R171). -/
theorem storeSample_ok {v : Sample} {sl : Slot} :
    storeSample p.maxPos v sl =
      .ok (if sl.length < p.maxPos then { data := Cells.write sl.data sl.length v, length := sl.length + 1 } else sl) := by
  by_cases h : sl.length < p.maxPos <;> simp [storeSample, storeCell, h]

/-- A stored sample joins the slot's samples at the end. -/
theorem Slot.samples_store (sl : Slot) (v : Sample) :
    Slot.samples { data := Cells.write sl.data sl.length v, length := sl.length + 1 } = sl.samples ++ [v] := by
  unfold Slot.samples
  simp only [List.range_succ, List.filterMap_append]
  congr 1
  · refine List.filterMap_congr fun i hm => Cells.read_write_of_ne _ _ ?_
    have := List.mem_range.mp hm
    omega
  · simp

theorem Slot.store_inv {sl : Slot} {v : Sample} (h : Slot.Inv p sl) (hl : sl.length < p.maxPos)
    (hv : v.toNat < 2 ^ p.sw) :
    Slot.Inv p { data := Cells.write sl.data sl.length v, length := sl.length + 1 } := by
  refine ⟨Cells.write_wf v h.1 hl, Cells.write_below h.2.1 hv, hl, fun i hi => ?_⟩
  simp only at hi ⊢
  by_cases hc : i = sl.length
  · subst hc; simp
  · rw [Cells.read_write_of_ne _ _ hc]; exact h.2.2.2 i (by omega)

@[simp] theorem Slot.cleared_samples (sl : Slot) : sl.cleared.samples = [] := rfl

@[simp] theorem Slot.cleared_data (sl : Slot) : sl.cleared.data = sl.data := rfl

@[simp] theorem Slot.cleared_length (sl : Slot) : sl.cleared.length = 0 := rfl

theorem Slot.cleared_inv {sl : Slot} (h : Slot.Inv p sl) : Slot.Inv p sl.cleared :=
  ⟨h.1, h.2.1, Nat.zero_le _, by simp⟩

/-- The sample handler on a frame buffer with the invariant: only the slot in progress can change (R171, R42). -/
theorem FrameBuffer.sample_ok (v : Sample) (hf : FrameBuffer.Inv p f) :
    f.sample p v = .ok { f with
      slots := f.slots.set f.writeSlot
        (if (f.slotAt f.writeSlot).length < p.maxPos then
          { data := Cells.write (f.slotAt f.writeSlot).data (f.slotAt f.writeSlot).length v,
            length := (f.slotAt f.writeSlot).length + 1 }
        else f.slotAt f.writeSlot) } := by
  simp [FrameBuffer.sample, FrameBuffer.slot_of_lt hf.1 hf.2.2.1, storeSample_ok]

/-- The frame-complete handler with no free slot: the frame is counted and lost, the flag set (R172). -/
theorem FrameBuffer.frame_overrun (hf : FrameBuffer.Inv p f) (h : (f.writeSlot + 1) % p.r = f.readSlot) :
    f.frame p = .ok { f with
      slots := f.slots.set f.writeSlot (f.slotAt f.writeSlot).cleared, overrun := true,
      busy := f.busy || !p.continuous, frameCount := (f.frameCount + 1) % 2 ^ p.fcw } := by
  simp [FrameBuffer.frame, advance, h, clearSlot, FrameBuffer.slot_of_lt hf.1 hf.2.2.1]

/-- The frame-complete handler with a free slot: `writeSlot` advances to a cleared slot (R172). -/
theorem FrameBuffer.frame_advance (hf : FrameBuffer.Inv p f) (h : (f.writeSlot + 1) % p.r ≠ f.readSlot) :
    f.frame p = .ok { f with
      slots := f.slots.set ((f.writeSlot + 1) % p.r) (f.slotAt ((f.writeSlot + 1) % p.r)).cleared,
      writeSlot := (f.writeSlot + 1) % p.r, frameCount := (f.frameCount + 1) % 2 ^ p.fcw } := by
  have hlt : (f.writeSlot + 1) % p.r < p.r := Nat.mod_lt _ (by have := hf.2.2.1; omega)
  simp [FrameBuffer.frame, advance, h, clearSlot, FrameBuffer.slot_of_lt hf.1 hlt]

theorem FrameBuffer.take_overrun (h : f.overrun = true) : f.take p = .ok (f, .overrun) := by
  simp [FrameBuffer.take, h]

theorem FrameBuffer.take_none (h : f.overrun = false) (he : f.readSlot = f.writeSlot) :
    f.take p = .ok (f, .noFrame) := by
  simp [FrameBuffer.take, h, he]

/-- `tryTake` with a frame waiting and no overrun: the samples of slot `readSlot`, and `readSlot` advances (R174). -/
theorem FrameBuffer.take_ok (hf : FrameBuffer.Inv p f) (h : f.overrun = false) (hne : f.readSlot ≠ f.writeSlot) :
    f.take p = .ok ({ f with readSlot := (f.readSlot + 1) % p.r }, .okFrame (f.slotAt f.readSlot).samples) := by
  simp [FrameBuffer.take, h, hne, advance, FrameBuffer.slot_of_lt hf.1 hf.2.2.2.1,
    loadSamples_ok (FrameBuffer.slotAt_inv hf hf.2.2.2.1)]

theorem FrameBuffer.slots_set_inv {k : Nat} {sl : Slot} (hf : FrameBuffer.Inv p f) (hsl : Slot.Inv p sl) :
    (f.slots.set k sl).length = p.r ∧ ∀ x ∈ f.slots.set k sl, Slot.Inv p x := by
  refine ⟨by simp [hf.1], fun x hx => ?_⟩
  rcases List.mem_or_eq_of_mem_set hx with hx | rfl
  · exact hf.2.1 x hx
  · exact hsl

/-- The sample handler keeps the invariant. -/
theorem FrameBuffer.sample_inv {v : Sample} {f' : FrameBuffer} (hf : FrameBuffer.Inv p f) (hv : v.toNat < 2 ^ p.sw)
    (h : f.sample p v = .ok f') : FrameBuffer.Inv p f' := by
  rw [FrameBuffer.sample_ok v hf] at h
  cases h
  have hsl := FrameBuffer.slotAt_inv hf hf.2.2.1
  obtain ⟨h1, h2⟩ := FrameBuffer.slots_set_inv (k := f.writeSlot) hf
    (sl := if (f.slotAt f.writeSlot).length < p.maxPos then
        { data := Cells.write (f.slotAt f.writeSlot).data (f.slotAt f.writeSlot).length v,
          length := (f.slotAt f.writeSlot).length + 1 }
      else f.slotAt f.writeSlot) (by
        split
        · next hl => exact Slot.store_inv hsl hl hv
        · exact hsl)
  exact ⟨h1, h2, hf.2.2⟩

/-- The frame-complete handler keeps the invariant. -/
theorem FrameBuffer.frame_inv {f' : FrameBuffer} (hf : FrameBuffer.Inv p f) (h : f.frame p = .ok f') :
    FrameBuffer.Inv p f' := by
  have hr : 0 < p.r := by have := hf.2.2.1; omega
  by_cases hn : (f.writeSlot + 1) % p.r = f.readSlot
  · rw [FrameBuffer.frame_overrun hf hn] at h
    cases h
    obtain ⟨h1, h2⟩ := FrameBuffer.slots_set_inv (k := f.writeSlot) hf
      (Slot.cleared_inv (FrameBuffer.slotAt_inv hf hf.2.2.1))
    refine ⟨h1, h2, hf.2.2.1, hf.2.2.2.1, Nat.mod_lt _ (Nat.two_pow_pos _), fun _ => hn, fun hb => ⟨rfl, ?_⟩⟩
    simp only [Bool.or_eq_true, Bool.not_eq_true'] at hb
    exact hb.elim (fun h => (hf.2.2.2.2.2.2 h).2) id
  · rw [FrameBuffer.frame_advance hf hn] at h
    cases h
    have hlt : (f.writeSlot + 1) % p.r < p.r := Nat.mod_lt _ hr
    obtain ⟨h1, h2⟩ := FrameBuffer.slots_set_inv (k := (f.writeSlot + 1) % p.r) hf
      (Slot.cleared_inv (FrameBuffer.slotAt_inv hf hlt))
    refine ⟨h1, h2, hlt, hf.2.2.2.1, Nat.mod_lt _ (Nat.two_pow_pos _), fun ho => ?_, hf.2.2.2.2.2.2⟩
    exact absurd (hf.2.2.2.2.2.1 ho) hn

/-- `tryTake` keeps the invariant. -/
theorem FrameBuffer.take_inv {f' : FrameBuffer} {r : Result} (hf : FrameBuffer.Inv p f) (h : f.take p = .ok (f', r)) :
    FrameBuffer.Inv p f' := by
  cases ho : f.overrun with
  | true => rw [FrameBuffer.take_overrun ho] at h; cases h; exact hf
  | false =>
    by_cases he : f.readSlot = f.writeSlot
    · rw [FrameBuffer.take_none ho he] at h; cases h; exact hf
    · rw [FrameBuffer.take_ok hf ho he] at h
      cases h
      refine ⟨hf.1, hf.2.1, hf.2.2.1, Nat.mod_lt _ (by have := hf.2.2.1; omega), hf.2.2.2.2.1, ?_, hf.2.2.2.2.2.2⟩
      simp [ho]

/-- `reset()` keeps the invariant, whatever the indices and flags were (R175). -/
theorem FrameBuffer.reset_inv (hp : 0 < p.r) (hl : f.slots.length = p.r) (hs : ∀ sl ∈ f.slots, Slot.Inv p sl) :
    FrameBuffer.Inv p f.reset := by
  refine ⟨by simp [FrameBuffer.reset, hl], ?_, hp, hp, Nat.two_pow_pos _, by simp [FrameBuffer.reset],
    by simp [FrameBuffer.reset]⟩
  intro sl hsl
  simp only [FrameBuffer.reset, List.mem_map] at hsl
  obtain ⟨sl', hm, rfl⟩ := hsl
  exact Slot.cleared_inv (hs sl' hm)

end Sys2Proof.Machine
end

