-- ==== Sys2Proof/Laws/PerInstr.lean ====
section
/-! SUPPORT. Statements about every operation as syntax, one lemma per constructor. -/

namespace Sys2Proof.Laws

/-- A header word with any argument, masked to its upper half. -/
theorem headerWord_mask_high (u o : BitVec 4) (a : BitVec 16) :
    headerWord u o a &&& 0xFFFF0000#32 = headerWord u o 0 := by
  refine BitVec.eq_of_getLsbD_eq fun i hi => ?_
  simp only [headerWord, BitVec.getLsbD_and, BitVec.getLsbD_append]
  split
  · next h =>
    have : (0xFFFF0000#32).getLsbD i = false := by interval_cases i <;> rfl
    simp [this]
  · next h =>
    have : (0xFFFF0000#32).getLsbD i = true := by interval_cases i <;> rfl
    simp [this]

/-- A header word whose argument is a byte, masked to all but that byte. -/
theorem headerWord_mask_byte (u o : BitVec 4) (a : BitVec 16) (ha : a.toNat < 256) :
    headerWord u o a &&& 0xFFFFFF00#32 = headerWord u o 0 := by
  refine BitVec.eq_of_getLsbD_eq fun i hi => ?_
  simp only [headerWord, BitVec.getLsbD_and, BitVec.getLsbD_append]
  split
  · next h =>
    by_cases h8 : i < 8
    · have : (0xFFFFFF00#32).getLsbD i = false := by interval_cases i <;> rfl
      simp [this]
    · have : a.getLsbD i = false :=
        Nat.testBit_lt_two_pow (Nat.lt_of_lt_of_le (show a.toNat < 2 ^ 8 from ha)
          (Nat.pow_le_pow_right (by omega) (by omega : 8 ≤ i)))
      simp [this]
  · next h =>
    have : (0xFFFFFF00#32).getLsbD i = true := by interval_cases i <;> rfl
    simp [this]

/-- An operation's header word selects the operation's own row, for every packet a header can count. -/
def EncodesOnRow.Statement (i : Instr) : Prop :=
  (∀ pkt, i = .stRxpkt pkt → pkt.length < 256) → ∃ h t, encode i = h :: t ∧ selectsRow h i

theorem EncodesOnRow.rbPut (v : Elem) : EncodesOnRow.Statement (.rbPut v) := fun _ =>
  ⟨_, _, rfl, headerWord_mask_high 1 0 v⟩
theorem EncodesOnRow.rbGet : EncodesOnRow.Statement .rbGet := fun _ => ⟨_, _, rfl, by decide⟩
theorem EncodesOnRow.rbIsfull : EncodesOnRow.Statement .rbIsfull := fun _ => ⟨_, _, rfl, by decide⟩
theorem EncodesOnRow.rbIsempty : EncodesOnRow.Statement .rbIsempty := fun _ => ⟨_, _, rfl, by decide⟩
theorem EncodesOnRow.rbLength : EncodesOnRow.Statement .rbLength := fun _ => ⟨_, _, rfl, by decide⟩
theorem EncodesOnRow.stPutchar (c : Byte) : EncodesOnRow.Statement (.stPutchar c) := fun _ =>
  ⟨_, _, rfl, headerWord_mask_byte 2 0 _ (by simp only [BitVec.toNat_setWidth]; omega)⟩
theorem EncodesOnRow.stGetchar : EncodesOnRow.Statement .stGetchar := fun _ => ⟨_, _, rfl, by decide⟩
theorem EncodesOnRow.stSubmit : EncodesOnRow.Statement .stSubmit := fun _ => ⟨_, _, rfl, by decide⟩
theorem EncodesOnRow.stTxdone : EncodesOnRow.Statement .stTxdone := fun _ => ⟨_, _, rfl, by decide⟩
theorem EncodesOnRow.stRxpkt (pkt : List Byte) : EncodesOnRow.Statement (.stRxpkt pkt) := fun h =>
  ⟨_, _, rfl, headerWord_mask_byte 2 9 _ (by have := h pkt rfl; simp only [BitVec.toNat_ofNat]; omega)⟩
theorem EncodesOnRow.fbTake : EncodesOnRow.Statement .fbTake := fun _ => ⟨_, _, rfl, by decide⟩
theorem EncodesOnRow.fbReset : EncodesOnRow.Statement .fbReset := fun _ => ⟨_, _, rfl, by decide⟩
theorem EncodesOnRow.fbSample (v : Sample) : EncodesOnRow.Statement (.fbSample v) := fun _ =>
  ⟨_, _, rfl, headerWord_mask_high 3 8 v⟩
theorem EncodesOnRow.fbFrame : EncodesOnRow.Statement .fbFrame := fun _ => ⟨_, _, rfl, by decide⟩

end Sys2Proof.Laws
end

