-- ==== Sys2Proof/Laws/Perform.lean ====
section
/-! SUPPORT. The check every operation begins with, and what the schedule's next turn can be. -/

namespace Sys2Proof.Machine

/-- Everything `perform` can answer. -/
theorem perform_cases (i : Instr) (s : State) (effect : Host.Outcome State Fault Refusal) :
    (s.legal i = false ∧ perform i s effect = .next s.answerIllegal) ∨
    (s.legal i = true ∧ s.env.origin.agent = .mainLoop ∧ s.st.putSeq.pending = true ∧
      perform i s effect = .refused .putCharPending) ∨
    (s.legal i = true ∧ ¬ (s.env.origin.agent = .mainLoop ∧ s.st.putSeq.pending = true) ∧
      perform i s effect = effect) := by
  unfold perform
  split
  · split
    · next h1 h2 => exact .inr (.inl ⟨h1, h2.1, h2.2, rfl⟩)
    · next h1 h2 => exact .inr (.inr ⟨h1, h2, rfl⟩)
  · next h => exact .inl ⟨by simpa using h, rfl⟩

/-- An illegal request has no effect but its answer (R105). -/
theorem perform_illegal {i : Instr} {s : State} (h : s.legal i = false) (effect : Host.Outcome State Fault Refusal) :
    perform i s effect = .next s.answerIllegal := by
  simp [perform, h]

/-- A legal operation of an agent that is free has its effect. -/
theorem perform_legal {i : Instr} {s : State} (h : s.legal i = true) (hf : s.st.putSeq = .idle)
    (effect : Host.Outcome State Fault Refusal) : perform i s effect = effect := by
  simp [perform, h, hf, PutSeq.pending]

/-- A legal operation of a handler or of an RB0 role has its effect, whatever the sequencer holds. -/
theorem perform_legal_of_not_main {i : Instr} {s : State} (h : s.legal i = true) (ha : s.env.origin.agent ≠ .mainLoop)
    (effect : Host.Outcome State Fault Refusal) : perform i s effect = effect := by
  simp [perform, h, ha]

/-- Every meaning is `perform` of its own operation. -/
theorem exec_eq_perform (i : Instr) (s : State) : ∃ effect, exec i s = perform i s effect := by
  cases i <;> exact ⟨_, rfl⟩

/-- An illegal operation changes nothing and is answered or dropped (R105). -/
theorem exec_illegal {i : Instr} {s : State} (h : s.legal i = false) : exec i s = .next s.answerIllegal := by
  obtain ⟨effect, he⟩ := exec_eq_perform i s
  rw [he, perform_illegal h]

/-- Everything a turn can come to. -/
theorem turnOf_cases (ch : Channel) (s : State) :
    (∃ c k, ch.agent = .mainLoop ∧ s.st.putSeq = .wait c k ∧ turnOf ch s = .phase c k (s.popTurn.withOrigin .stM)) ∨
    ((ch.agent ≠ .mainLoop ∨ s.st.putSeq = .idle) ∧
      (decode s.params (s.env.ports.get ch) = none ∧ turnOf ch s = .idle s.popTurn ∨
       (∃ e rest, decode s.params (s.env.ports.get ch) = some (.bad e, rest) ∧
          turnOf ch s = .illegal (s.accept ch rest)) ∨
       ∃ i rest, decode s.params (s.env.ports.get ch) = some (.op i, rest) ∧ turnOf ch s = .run i (s.accept ch rest))) := by
  unfold turnOf
  split
  · next c k ha hp => exact .inl ⟨c, k, ha, hp, rfl⟩
  · next hne =>
    refine .inr ⟨?_, ?_⟩
    · cases hp : s.st.putSeq with
      | idle => exact .inr rfl
      | wait c k => exact .inl fun ha => hne c k ha hp
    · split
      · next h => exact .inl ⟨h, rfl⟩
      · next e rest h => exact .inr (.inl ⟨e, rest, h, rfl⟩)
      · next i rest h => exact .inr (.inr ⟨i, rest, h, rfl⟩)

/-- Nobody's turn: nothing happens. -/
theorem step_of_no_turn {s : State} (h : s.env.schedule = []) : step s = .next s := by
  simp [step, nextTurn, h]

/-- The step of a channel's turn is the turn's. -/
theorem nextTurn_of_schedule {s : State} {ch : Channel} {rest : List Channel} (h : s.env.schedule = ch :: rest) :
    nextTurn s = turnOf ch s := by
  simp [nextTurn, h]

end Sys2Proof.Machine
end

