-- ==== Sys2Proof/Laws/RingBuffer.lean ====
section
/-! SUPPORT. What `put`, `get` and their loops do to a queue that has the invariant of R23, R25 and R27: everything they
can answer, the invariant kept, and the elements held. -/

namespace Sys2Proof.Machine

variable {α : Type} {cap : Nat} {q q' : RingBuffer α}

theorem RingBuffer.construct_inv (h : 1 ≤ cap) : RingBuffer.Inv cap (RingBuffer.construct α) := by
  refine ⟨⟨List.Pairwise.nil, by simp [RingBuffer.construct]⟩, ?_⟩
  simp only [RingBuffer.construct]
  exact ⟨by omega, by omega, by omega, by simp, by omega⟩

/-- `put` on a full queue is rejected and changes nothing. -/
theorem RingBuffer.put_full (v : α) (h : q.count = cap) : q.put cap v = .ok (q, false) := by simp [RingBuffer.put, h]

/-- `put` on a queue that is not full stores at the write cursor. -/
theorem RingBuffer.put_ok (v : α) (h : q.count ≠ cap) (hw : q.writeCursor < cap) :
    q.put cap v = .ok ({ q with storage := Cells.write q.storage q.writeCursor v,
                                writeCursor := (q.writeCursor + 1) % cap, count := q.count + 1 }, true) := by
  simp [RingBuffer.put, h, storeCell, hw, advance]

/-- `get` on an empty queue answers `EMPTY` and changes nothing. -/
theorem RingBuffer.get_empty (h : q.count = 0) : q.get cap = .ok (q, none) := by simp [RingBuffer.get, h]

/-- `get` on a queue whose read cell is written returns it and moves the read cursor. -/
theorem RingBuffer.get_ok {v : α} (h : q.count ≠ 0) (hr : q.readCursor < cap) (hv : Cells.read q.storage q.readCursor = some v) :
    q.get cap = .ok ({ q with readCursor := (q.readCursor + 1) % cap, count := q.count - 1 }, some v) := by
  simp [RingBuffer.get, h, loadCell, hr, hv, advance]

/-- Everything `put` can do. -/
theorem RingBuffer.put_cases {v : α} {b : Bool} (h : q.put cap v = .ok (q', b)) :
    (q.count = cap ∧ q' = q ∧ b = false) ∨
    (q.count ≠ cap ∧ q.writeCursor < cap ∧ b = true ∧
      q' = { q with storage := Cells.write q.storage q.writeCursor v,
                    writeCursor := (q.writeCursor + 1) % cap, count := q.count + 1 }) := by
  by_cases hc : q.count = cap
  · rw [RingBuffer.put_full v hc] at h
    cases h
    exact .inl ⟨hc, rfl, rfl⟩
  · by_cases hw : q.writeCursor < cap
    · rw [RingBuffer.put_ok v hc hw] at h
      cases h
      exact .inr ⟨hc, hw, rfl, rfl⟩
    · simp [RingBuffer.put, hc, storeCell, hw] at h

/-- Everything `get` can do. -/
theorem RingBuffer.get_cases {a : Option α} (h : q.get cap = .ok (q', a)) :
    (q.count = 0 ∧ q' = q ∧ a = none) ∨
    (∃ v, q.count ≠ 0 ∧ q.readCursor < cap ∧ Cells.read q.storage q.readCursor = some v ∧ a = some v ∧
      q' = { q with readCursor := (q.readCursor + 1) % cap, count := q.count - 1 }) := by
  by_cases hc : q.count = 0
  · rw [RingBuffer.get_empty hc] at h
    cases h
    exact .inl ⟨hc, rfl, rfl⟩
  · unfold RingBuffer.get at h
    rw [if_neg hc] at h
    split at h
    · cases h
    · next v hv =>
      obtain ⟨hr, hv⟩ := loadCell_eq_ok.mp hv
      cases h
      exact .inr ⟨v, hc, hr, hv, rfl, rfl⟩

theorem mod_add_ne {a i c cap : Nat} (hi : i < c) (hc : c < cap) : (a + i) % cap ≠ (a + c) % cap := by
  intro h
  have h2 : i ≡ c [MOD cap] := Nat.ModEq.add_left_cancel' a h
  rw [Nat.ModEq, Nat.mod_eq_of_lt (by omega), Nat.mod_eq_of_lt hc] at h2
  omega

/-- `put` keeps the invariant. -/
theorem RingBuffer.put_inv {v : α} {b : Bool} (hi : RingBuffer.Inv cap q) (h : q.put cap v = .ok (q', b)) : RingBuffer.Inv cap q' := by
  obtain ⟨-, rfl, -⟩ | ⟨hc, hw, -, rfl⟩ := RingBuffer.put_cases h
  · exact hi
  obtain ⟨wf, hcnt, hr, -, heq, hheld⟩ := hi
  refine ⟨Cells.write_wf v wf hw, by simp only; omega, hr, Nat.mod_lt _ (by omega), ?_, ?_⟩
  · simp only
    rw [heq, Nat.mod_add_mod, Nat.add_assoc]
  · simp only
    intro i hlt
    by_cases hic : i = q.count
    · subst hic
      rw [← heq, Cells.read_write_self]
      rfl
    · rw [Cells.read_write_of_ne _ _ (by rw [heq]; exact mod_add_ne (by omega) (by omega))]
      exact hheld i (by omega)

/-- `get` keeps the invariant. -/
theorem RingBuffer.get_inv {a : Option α} (hi : RingBuffer.Inv cap q) (h : q.get cap = .ok (q', a)) : RingBuffer.Inv cap q' := by
  obtain ⟨-, rfl, -⟩ | ⟨v, hc, hr, -, -, rfl⟩ := RingBuffer.get_cases h
  · exact hi
  obtain ⟨wf, hcnt, -, hw, heq, hheld⟩ := hi
  refine ⟨wf, by simp only; omega, Nat.mod_lt _ (by omega), hw, ?_, ?_⟩
  · simp only
    rw [Nat.mod_add_mod, heq]
    congr 1
    omega
  · simp only
    intro i hlt
    rw [Nat.mod_add_mod, Nat.add_assoc]
    exact hheld (1 + i) (by omega)

/-- A queue with the invariant holds `count` elements. -/
theorem RingBuffer.held_length (hi : RingBuffer.Inv cap q) : (q.held cap).length = q.count := by
  have h := hi.2.2.2.2.2
  unfold RingBuffer.held
  have key : ∀ n, n ≤ q.count →
      ((List.range n).filterMap fun i => Cells.read q.storage ((q.readCursor + i) % cap)).length = n := by
    intro n
    induction n with
    | zero => intro _; rfl
    | succ n ih =>
      intro hn
      obtain ⟨v, hv⟩ := Option.isSome_iff_exists.mp (h n (by omega))
      rw [List.range_succ, List.filterMap_append, List.length_append, ih (by omega)]
      simp [hv]
  exact key _ (Nat.le_refl _)

/-- A successful `put` appends its value to the held elements. -/
theorem RingBuffer.put_held {v : α} (hi : RingBuffer.Inv cap q) (h : q.put cap v = .ok (q', true)) :
    q'.held cap = q.held cap ++ [v] := by
  obtain ⟨-, -, hb⟩ | ⟨hc, hw, -, rfl⟩ := RingBuffer.put_cases h
  · cases hb
  obtain ⟨-, hcnt, hr, -, heq, -⟩ := hi
  unfold RingBuffer.held
  simp only [List.range_succ, List.filterMap_append]
  congr 1
  · refine List.filterMap_congr fun i hm => ?_
    have hlt := List.mem_range.mp hm
    exact Cells.read_write_of_ne _ _ (by rw [heq]; exact mod_add_ne hlt (by omega))
  · simp [← heq]

/-- A `get` that returns a value removes the oldest held element. -/
theorem RingBuffer.get_held {v : α} (h : q.get cap = .ok (q', some v)) :
    q.held cap = v :: q'.held cap := by
  obtain ⟨-, -, hb⟩ | ⟨u, hc, hr, hv, hu, rfl⟩ := RingBuffer.get_cases h
  · cases hb
  cases hu
  unfold RingBuffer.held
  obtain ⟨n, hn⟩ : ∃ n, q.count = n + 1 := ⟨q.count - 1, by omega⟩
  simp only [hn, List.range_succ_eq_map, List.filterMap_cons, Nat.add_zero, Nat.mod_eq_of_lt hr, hv,
    List.filterMap_map, Nat.add_sub_cancel]
  congr 1
  refine List.filterMap_congr fun i _ => ?_
  simp only [Function.comp_apply, Nat.mod_add_mod]
  congr 2
  omega

/-- A queue with the invariant answers every `put`. -/
theorem RingBuffer.put_total (v : α) (hi : RingBuffer.Inv cap q) :
    ∃ q', q.put cap v = .ok (q', decide (q.count ≠ cap)) ∧ RingBuffer.Inv cap q' := by
  by_cases h : q.count = cap
  · exact ⟨q, by rw [RingBuffer.put_full v h]; simp [h], hi⟩
  · have e := RingBuffer.put_ok v h hi.2.2.2.1
    exact ⟨_, by rw [e]; simp [h], RingBuffer.put_inv hi e⟩

/-- A queue with the invariant answers every `get`, with its oldest element if it has one. -/
theorem RingBuffer.get_total (hi : RingBuffer.Inv cap q) : ∃ q', q.get cap = .ok (q', (q.held cap).head?) ∧ RingBuffer.Inv cap q' := by
  by_cases h : q.count = 0
  · refine ⟨q, ?_, hi⟩
    rw [RingBuffer.get_empty h]
    simp [RingBuffer.held, h]
  · obtain ⟨v, hv⟩ := Option.isSome_iff_exists.mp (hi.2.2.2.2.2 0 (by omega))
    rw [Nat.add_zero, Nat.mod_eq_of_lt hi.2.2.1] at hv
    have e := RingBuffer.get_ok h hi.2.2.1 hv
    exact ⟨_, by rw [e, RingBuffer.get_held e]; rfl, RingBuffer.get_inv hi e⟩

/-- The receive loop stores the first values that fit and loses the others; it leaves the read cursor and moves the write
cursor by one for each value stored. -/
theorem RingBuffer.putAll_spec (vs : List α) (hi : RingBuffer.Inv cap q) :
    ∃ q', q.putAll cap vs = .ok q' ∧ RingBuffer.Inv cap q' ∧ q'.held cap = q.held cap ++ vs.take (cap - q.count) ∧
      q'.count = q.count + min vs.length (cap - q.count) ∧ q'.readCursor = q.readCursor ∧
      q'.writeCursor = (q.writeCursor + min vs.length (cap - q.count)) % cap := by
  induction vs generalizing q with
  | nil => exact ⟨q, rfl, hi, by simp, by simp, rfl, by simp [Nat.mod_eq_of_lt hi.2.2.2.1]⟩
  | cons v vs ih =>
    obtain ⟨q₁, h₁, hi₁⟩ := RingBuffer.put_total v hi
    obtain ⟨q₂, h₂, hi₂, hh₂, hc₂, hr₂, hw₂⟩ := ih hi₁
    refine ⟨q₂, by simp [RingBuffer.putAll, h₁, h₂], hi₂, ?_⟩
    by_cases h : q.count = cap
    · obtain ⟨-, rfl, -⟩ | ⟨hc, -⟩ := RingBuffer.put_cases h₁
      · rw [hh₂, hc₂, hr₂, hw₂, h]
        simp
      · exact absurd h hc
    · have hle := hi.2.1
      simp only [ne_eq, h, not_false_eq_true, decide_true] at h₁
      rw [hh₂, RingBuffer.put_held hi h₁]
      obtain ⟨hf, -, -⟩ | ⟨-, -, -, rfl⟩ := RingBuffer.put_cases h₁
      · exact absurd hf h
      · obtain ⟨m, hm⟩ : ∃ m, cap - q.count = m + 1 := ⟨cap - q.count - 1, by omega⟩
        simp only at hc₂ hr₂ hw₂
        rw [hc₂, hr₂, hw₂, hm, List.take_succ_cons, show cap - (q.count + 1) = m by omega]
        refine ⟨by simp, by simp only [List.length_cons]; omega, rfl, ?_⟩
        rw [Nat.mod_add_mod, List.length_cons, Nat.add_min_add_right]
        congr 1
        omega

/-- Two packets one after the other are one packet of both. -/
theorem RingBuffer.putAll_append (vs ws : List α) :
    q.putAll cap (vs ++ ws) = (q.putAll cap vs).bind fun q' => q'.putAll cap ws := by
  induction vs generalizing q with
  | nil => rfl
  | cons v vs ih =>
    simp only [List.cons_append, RingBuffer.putAll]
    cases q.put cap v with
    | error e => rfl
    | ok x => exact ih

/-- The drain loop takes the `n` oldest elements, oldest first, and moves only the read cursor and the count. -/
theorem RingBuffer.drain_spec (n : Nat) (hi : RingBuffer.Inv cap q) (hn : n ≤ q.count) :
    ∃ q' vs, q.drain cap n = .ok (q', vs) ∧ RingBuffer.Inv cap q' ∧ q.held cap = vs ++ q'.held cap ∧ vs.length = n ∧
      q' = { q with readCursor := (q.readCursor + n) % cap, count := q.count - n } := by
  induction n generalizing q with
  | zero => exact ⟨q, [], rfl, hi, rfl, rfl, by simp [Nat.mod_eq_of_lt hi.2.2.1]⟩
  | succ n ih =>
    obtain ⟨v, hv⟩ := Option.isSome_iff_exists.mp (hi.2.2.2.2.2 0 (by omega))
    rw [Nat.add_zero, Nat.mod_eq_of_lt hi.2.2.1] at hv
    have e := RingBuffer.get_ok (by omega) hi.2.2.1 hv
    obtain ⟨q₂, vs, h₂, hi₂, hh₂, hl, rfl⟩ := ih (RingBuffer.get_inv hi e) (by simp only; omega)
    refine ⟨_, v :: vs, by simp [RingBuffer.drain, e, h₂], hi₂, by rw [RingBuffer.get_held e, hh₂]; rfl, by simp [hl], ?_⟩
    simp only [Nat.mod_add_mod]
    congr 1
    · omega
    · congr 1
      omega

/-- A drain that meets an unwritten cell faults. -/
theorem RingBuffer.drain_unwritten {n : Nat} (hn : n ≤ q.count) (hr : q.readCursor < cap) (h : q.MeetsUnwritten cap n) :
    q.drain cap n = .error .readUnwritten := by
  induction n generalizing q with
  | zero => obtain ⟨i, hi, -⟩ := h; omega
  | succ n ih =>
    have hc : q.count ≠ 0 := by omega
    cases hv : Cells.read q.storage q.readCursor with
    | none => simp [RingBuffer.drain, RingBuffer.get, loadCell, hv, hr, hc]
    | some v =>
      simp only [RingBuffer.drain, RingBuffer.get_ok hc hr hv]
      rw [ih (by simp only; omega) (Nat.mod_lt _ (by omega))]
      obtain ⟨i, hi, he⟩ := h
      cases i with
      | zero => rw [Nat.add_zero, Nat.mod_eq_of_lt hr, hv] at he; cases he
      | succ i =>
        refine ⟨i, by omega, ?_⟩
        simp only [Nat.mod_add_mod]
        rw [← he]
        congr 2
        omega

/-- `put` of a value in range keeps every stored value in range. -/
theorem RingBuffer.put_below {r r' : RingBuffer Elem} {width : Nat} {v : Elem} {b : Bool} (hb : Cells.Below width r.storage)
    (hv : v.toNat < 2 ^ width) (h : r.put cap v = .ok (r', b)) : Cells.Below width r'.storage := by
  obtain ⟨-, rfl, -⟩ | ⟨-, -, -, rfl⟩ := RingBuffer.put_cases h
  · exact hb
  · exact Cells.write_below hb hv

/-- `get` stores nothing. -/
theorem RingBuffer.get_storage {a : Option α} (h : q.get cap = .ok (q', a)) : q'.storage = q.storage := by
  obtain ⟨-, rfl, -⟩ | ⟨-, -, -, -, -, rfl⟩ := RingBuffer.get_cases h <;> rfl

end Sys2Proof.Machine
end

