-- ==== Sys2Proof/Laws/Serial.lean ====
section
/-! SUPPORT. What the transport's shared operations `submitIfReady` and `commit` do to a state whose `tx` has the queue
invariant. -/

namespace Sys2Proof.Machine

/-- Everything `submitIfReady` can do (R141): nothing while `Sending`, nothing with `tx` empty, else one packet of the
oldest bytes goes to the hardware and the transport is `Sending`. -/
theorem submitIfReady_spec (s : State) (hi : RingBuffer.Inv s.params.txCap s.st.tx) (hp : 1 ≤ s.params.maxPkt) :
    ∃ s', submitIfReady s = .ok s' ∧
      (s.st.txIdle = false ∧ s' = s ∨
       s.st.txIdle = true ∧ s.st.tx.count = 0 ∧ s' = s ∨
       s.st.txIdle = true ∧ s.st.tx.count ≠ 0 ∧ ∃ q buf,
        RingBuffer.Inv s.params.txCap q ∧ s.st.tx.held s.params.txCap = buf ++ q.held s.params.txCap ∧
        buf.length = min s.st.tx.count s.params.maxPkt ∧
        q = { s.st.tx with readCursor := (s.st.tx.readCursor + buf.length) % s.params.txCap,
                           count := s.st.tx.count - buf.length } ∧
        s' = ((s.withTx q).emitHwtx buf).withTxIdle false) := by
  cases hidle : s.st.txIdle with
  | false => exact ⟨s, by simp [submitIfReady, hidle], .inl ⟨rfl, rfl⟩⟩
  | true =>
    by_cases hc : s.st.tx.count = 0
    · refine ⟨s, ?_, .inr (.inl ⟨rfl, hc, rfl⟩)⟩
      simp only [submitIfReady, hidle, hc, Nat.zero_min, RingBuffer.drain]
      rfl
    · obtain ⟨q, buf, hd, hiq, hh, hl, hq⟩ :=
        RingBuffer.drain_spec (min s.st.tx.count s.params.maxPkt) hi (Nat.min_le_left _ _)
      refine ⟨_, ?_, .inr (.inr ⟨rfl, hc, q, buf, hiq, hh, hl, by rw [hl]; exact hq, rfl⟩)⟩
      have h1 : 1 ≤ buf.length := by rw [hl]; omega
      simp [submitIfReady, hidle, hd, h1]

/-- From `Idle` with bytes in `tx`, `submitIfReady` hands over the `min(count, MAXPKT)` oldest, and `tx` loses them. -/
theorem submitIfReady_idle {s : State} (hi : RingBuffer.Inv s.params.txCap s.st.tx) (hp : 1 ≤ s.params.maxPkt)
    (h : s.st.txIdle = true) (hc : s.st.tx.count ≠ 0) :
    submitIfReady s = .ok (((s.withTx { s.st.tx with
      readCursor := (s.st.tx.readCursor + min s.st.tx.count s.params.maxPkt) % s.params.txCap,
      count := s.st.tx.count - min s.st.tx.count s.params.maxPkt }).emitHwtx
        ((s.st.tx.held s.params.txCap).take s.params.maxPkt)).withTxIdle false) := by
  obtain ⟨t, e, ⟨hh, -⟩ | ⟨-, hn, -⟩ | ⟨-, hn, q, buf, -, hh, hl, hqe, rfl⟩⟩ := submitIfReady_spec s hi hp
  · rw [h] at hh; cases hh
  · exact absurd hn hc
  · have hlen := RingBuffer.held_length hi
    have hb : (s.st.tx.held s.params.txCap).take s.params.maxPkt = buf := by
      rw [hh, List.length_append] at hlen
      rw [hh]
      rcases Nat.le_total s.st.tx.count s.params.maxPkt with hle | hle
      · have hq : q.held s.params.txCap = [] := List.eq_nil_of_length_eq_zero (by omega)
        rw [hq, List.append_nil]
        exact List.take_of_length_le (by omega)
      · rw [List.take_append_of_le_length (by omega)]
        exact List.take_of_length_le (by omega)
    rw [e, hqe, hl, hb]

/-- From `Idle`, `submitIfReady` faults when a cell it would take is unwritten. -/
theorem submitIfReady_unwritten {s : State} (hi : s.st.txIdle = true) (hr : s.st.tx.readCursor < s.params.txCap)
    (h : RingBuffer.MeetsUnwritten s.params.txCap (min s.st.tx.count s.params.maxPkt) s.st.tx) :
    submitIfReady s = .error .readUnwritten := by
  simp [submitIfReady, hi, RingBuffer.drain_unwritten (Nat.min_le_left _ _) hr h]

/-- A successful `submitIfReady` keeps the transmit stream: bytes only move from `tx` to the hardware. -/
theorem submitIfReady_txStream {s s' : State} (hi : RingBuffer.Inv s.params.txCap s.st.tx) (hp : 1 ≤ s.params.maxPkt)
    (h : submitIfReady s = .ok s') : s'.txStream = s.txStream := by
  obtain ⟨t, ht, ⟨-, rfl⟩ | ⟨-, -, rfl⟩ | ⟨-, -, q, buf, -, hh, -, -, rfl⟩⟩ := submitIfReady_spec s hi hp <;>
    (rw [ht] at h; cases h)
  · rfl
  · rfl
  · simp [State.txStream, hh]

/-- Everything `commit(c)` can do when `tx` has room (R145): the byte joins `tx`, and if the transport was `Idle` it is
submitted at once. -/
theorem commit_spec (c : Byte) (s : State) (hi : RingBuffer.Inv s.params.txCap s.st.tx)
    (hroom : s.st.tx.count < s.params.txCap) (hp : 1 ≤ s.params.maxPkt) :
    ∃ q s', s.st.tx.put s.params.txCap c = .ok (q, true) ∧ RingBuffer.Inv s.params.txCap q ∧
      q.held s.params.txCap = s.st.tx.held s.params.txCap ++ [c] ∧ commit c s = .ok s' ∧
      (s.st.txIdle = false ∧ s' = s.withTx q ∨
       s.st.txIdle = true ∧ submitIfReady (s.withTx q) = .ok s') := by
  obtain ⟨q, hput, hiq⟩ := RingBuffer.put_total c hi
  have hne : s.st.tx.count ≠ s.params.txCap := by omega
  simp only [ne_eq, hne, not_false_eq_true, decide_true] at hput
  have hh := RingBuffer.put_held hi hput
  cases hidle : s.st.txIdle with
  | false => exact ⟨q, _, hput, hiq, hh, by simp [commit, hput, hidle], .inl ⟨rfl, rfl⟩⟩
  | true =>
    obtain ⟨t, ht, -⟩ := submitIfReady_spec (s.withTx q) hiq hp
    exact ⟨q, t, hput, hiq, hh, by simp [commit, hput, hidle, ht], .inr ⟨rfl, ht⟩⟩

/-- A `commit` appends its byte to the transmit stream. -/
theorem commit_txStream {c : Byte} {s s' : State} (hi : RingBuffer.Inv s.params.txCap s.st.tx)
    (hroom : s.st.tx.count < s.params.txCap) (hp : 1 ≤ s.params.maxPkt) (h : commit c s = .ok s') :
    s'.txStream = s.txStream ++ [c] := by
  obtain ⟨q, t, -, hiq, hh, ht, ⟨-, rfl⟩ | ⟨-, hs⟩⟩ := commit_spec c s hi hroom hp <;> (rw [ht] at h; cases h)
  · simp [State.txStream, hh]
  · rw [submitIfReady_txStream (s := s.withTx q) hiq hp hs]
    simp [State.txStream, hh]

/-- `submitIfReady` writes only `tx`, `txIdle` and the event log. -/
theorem submitIfReady_frame {s s' : State} (h : submitIfReady s = .ok s') :
    s'.params = s.params ∧ s'.rb0 = s.rb0 ∧ s'.st.rx = s.st.rx ∧ s'.st.rxIdle = s.st.rxIdle ∧
    s'.st.putSeq = s.st.putSeq ∧ s'.fb = s.fb ∧ s'.env = s.env := by
  unfold submitIfReady at h
  split at h
  · split at h
    · cases h
    · split at h <;> (cases h; exact ⟨rfl, rfl, rfl, rfl, rfl, rfl, rfl⟩)
  · cases h
    exact ⟨rfl, rfl, rfl, rfl, rfl, rfl, rfl⟩

/-- `commit` writes only `tx`, `txIdle` and the event log. -/
theorem commit_frame {c : Byte} {s s' : State} (h : commit c s = .ok s') :
    s'.params = s.params ∧ s'.rb0 = s.rb0 ∧ s'.st.rx = s.st.rx ∧ s'.st.rxIdle = s.st.rxIdle ∧
    s'.st.putSeq = s.st.putSeq ∧ s'.fb = s.fb ∧ s'.env = s.env := by
  unfold commit at h
  split at h
  · cases h
  · split at h
    · next q _ _ _ => exact submitIfReady_frame (s := s.withTx q) h
    · cases h
      exact ⟨rfl, rfl, rfl, rfl, rfl, rfl, rfl⟩

end Sys2Proof.Machine
end

