-- ==== Sys2Proof/Laws/Step.lean ====
section
/-! SUPPORT. Everything a step that gives a next state can have done: whose turn it was, and for an operation its effect
in terms of the shared operations. Statements about every step cite these and unfold nothing. -/

namespace Sys2Proof.Machine

/-- What a legal operation that gives a next state has done, operation by operation. -/
def Effect (s t : State) : Instr → Prop
  | .rbPut v => ∃ q b, s.rb0.put s.params.cap v = .ok (q, b) ∧ t = (s.withRb0 q).respond (if b then .ok else .full)
  | .rbGet => ∃ q a, s.rb0.get s.params.cap = .ok (q, a) ∧
      t = (s.withRb0 q).respond (a.elim .empty fun v => .okValue v.toNat)
  | .rbIsfull => t = s.respond (.okValue (bitValue (s.rb0.full s.params.cap)))
  | .rbIsempty => t = s.respond (.okValue (bitValue s.rb0.empty))
  | .rbLength => t = s.respond (.okValue s.rb0.length)
  | .stPutchar c =>
      (s.st.tx.count < s.params.txCap ∧ ∃ s', commit c s = .ok s' ∧ t = (s'.withPutSeq .idle).respond .ok) ∨
      (¬ s.st.tx.count < s.params.txCap ∧ t = s.withPutSeq (.wait c s.params.putRetries))
  | .stGetchar => ∃ q a, s.st.rx.get s.params.rxCap = .ok (q, a) ∧
      t = (s.withRx q).respond (a.elim .empty fun v => .okValue v.toNat)
  | .stSubmit => ∃ s', submitIfReady s = .ok s' ∧ t = s'.respond .ok
  | .stTxdone => submitIfReady (s.withTxIdle true) = .ok t
  | .stRxpkt pkt => ∃ q, s.st.rx.putAll s.params.rxCap pkt = .ok q ∧ t = s.withRx q
  | .fbTake => ∃ f r, s.fb.take s.params = .ok (f, r) ∧ t = (s.withFb f).respond r
  | .fbReset => t = (s.withFb s.fb.reset).respond .ok
  | .fbSample v => ∃ f, s.fb.sample s.params v = .ok f ∧ t = s.withFb f
  | .fbFrame => ∃ f, s.fb.frame s.params = .ok f ∧ t = s.withFb f

/-- The effect alone of an operation, without the checks it begins with. -/
theorem effect_of_exec {i : Instr} {s t : State} (hl : s.legal i = true)
    (hf : ¬ (s.env.origin.agent = .mainLoop ∧ s.st.putSeq.pending = true)) (h : exec i s = .next t) : Effect s t i := by
  have hp : ∀ e, perform i s e = e := fun e => by simp [perform, hl, hf]
  cases i with
  | rbPut v =>
    simp only [exec, execRbPut, hp] at h
    split at h <;> cases h
    next q b e => exact ⟨q, b, e, rfl⟩
  | rbGet =>
    simp only [exec, execRbGet, hp] at h
    split at h <;> cases h
    · next q e => exact ⟨q, none, e, rfl⟩
    · next q v e => exact ⟨q, some v, e, rfl⟩
  | rbIsfull => simp only [exec, execRbIsfull, hp] at h; cases h; rfl
  | rbIsempty => simp only [exec, execRbIsempty, hp] at h; cases h; rfl
  | rbLength => simp only [exec, execRbLength, hp] at h; cases h; rfl
  | stPutchar c =>
    simp only [exec, execStPutchar, hp, putCharIssue, putCharDone] at h
    split at h
    · next hr =>
      split at h <;> cases h
      next s' e => exact .inl ⟨hr, s', e, rfl⟩
    · next hr => cases h; exact .inr ⟨hr, rfl⟩
  | stGetchar =>
    simp only [exec, execStGetchar, hp] at h
    split at h <;> cases h
    · next q e => exact ⟨q, none, e, rfl⟩
    · next q v e => exact ⟨q, some v, e, rfl⟩
  | stSubmit =>
    simp only [exec, execStSubmit, hp] at h
    split at h <;> cases h
    next s' e => exact ⟨s', e, rfl⟩
  | stTxdone =>
    simp only [exec, execStTxdone, hp, settle] at h
    split at h <;> cases h
    next e => exact e
  | stRxpkt pkt =>
    simp only [exec, execStRxpkt, hp] at h
    split at h <;> cases h
    next q e => exact ⟨q, e, rfl⟩
  | fbTake =>
    simp only [exec, execFbTake, hp] at h
    split at h <;> cases h
    next f r e => exact ⟨f, r, e, rfl⟩
  | fbReset => simp only [exec, execFbReset, hp] at h; cases h; rfl
  | fbSample v =>
    simp only [exec, execFbSample, hp] at h
    split at h <;> cases h
    next f e => exact ⟨f, e, rfl⟩
  | fbFrame =>
    simp only [exec, execFbFrame, hp] at h
    split at h <;> cases h
    next f e => exact ⟨f, e, rfl⟩

/-- The three ways a phase of a waiting `putChar` that gives a next state can go (R147, R148): room and a commit, no room
and a retry used, or no room at the exhausted phase. `s'` is the state after the exhausted phase's forced submission. -/
theorem putCharPhase_cases {c : Byte} {k : Nat} {s t : State} (h : putCharPhase c k s = .next t) :
    (∃ s' s'', (s' = s ∨ k = 0 ∧ submitIfReady s = .ok s') ∧ commit c s' = .ok s'' ∧
      (k ≠ 0 → s'.st.tx.count < s'.params.txCap) ∧ (k = 0 → s'.st.tx.count ≠ s'.params.txCap) ∧
      t = (s''.withPutSeq .idle).respond .ok) ∨
    (∃ j, k = j + 1 ∧ ¬ s.st.tx.count < s.params.txCap ∧ t = s.withPutSeq (.wait c j)) ∨
    (∃ s', k = 0 ∧ submitIfReady s = .ok s' ∧ s'.st.tx.count = s'.params.txCap ∧
      t = (s'.withPutSeq .idle).respond .saturated) := by
  cases k with
  | zero =>
    simp only [putCharPhase, putCharExhausted] at h
    split at h
    · cases h
    · next s' e =>
      split at h
      · next hc => cases h; exact .inr (.inr ⟨s', rfl, e, hc, rfl⟩)
      · next hc =>
        simp only [putCharDone] at h
        split at h <;> cases h
        next s'' e' => exact .inl ⟨s', s'', .inr ⟨rfl, e⟩, e', fun h => absurd rfl h, fun _ => hc, rfl⟩
  | succ k =>
    simp only [putCharPhase, putCharRetry] at h
    split at h
    · next hr =>
      simp only [putCharDone] at h
      split at h <;> cases h
      next s'' e' => exact .inl ⟨s, s'', .inl rfl, e', fun _ => hr, fun h => absurd h (Nat.succ_ne_zero k), rfl⟩
    · next hr => cases h; exact .inr (.inl ⟨k, rfl, hr, rfl⟩)

/-- Everything a step that gives a next state can have been: nobody's turn, an idle turn, a phase of a `putChar`, an illegal
request, or a legal operation's effect. -/
theorem step_cases {s t : State} (h : step s = .next t) :
    (s.env.schedule = [] ∧ nextTurn s = .idle s ∧ t = s) ∨
    ∃ ch turns, s.env.schedule = ch :: turns ∧
      ((∃ c k, ch.agent = .mainLoop ∧ s.st.putSeq = .wait c k ∧
          nextTurn s = .phase c k (s.popTurn.withOrigin .stM) ∧ putCharPhase c k (s.popTurn.withOrigin .stM) = .next t) ∨
       ((ch.agent ≠ .mainLoop ∨ s.st.putSeq = .idle) ∧
         (nextTurn s = .idle s.popTurn ∧ t = s.popTurn ∨
          (∃ rest, nextTurn s = .illegal (s.accept ch rest) ∧ t = (s.accept ch rest).answerIllegal) ∨
          ∃ i rest, decode s.params (s.env.ports.get ch) = some (.op i, rest) ∧
            nextTurn s = .run i (s.accept ch rest) ∧
            ((s.accept ch rest).legal i = false ∧ t = (s.accept ch rest).answerIllegal ∨
             (s.accept ch rest).legal i = true ∧ Effect (s.accept ch rest) t i)))) := by
  cases hs : s.env.schedule with
  | nil =>
    have hn : nextTurn s = .idle s := by simp [nextTurn, hs]
    rw [step_of_no_turn hs] at h
    cases h
    exact .inl ⟨rfl, hn, rfl⟩
  | cons ch turns =>
    have hn := nextTurn_of_schedule hs
    refine .inr ⟨ch, turns, rfl, ?_⟩
    obtain ⟨c, k, ha, hp, e⟩ | ⟨hidle, ⟨-, e⟩ | ⟨er, rest, -, e⟩ | ⟨i, rest, hd, e⟩⟩ := turnOf_cases ch s <;>
      simp only [step, hn, e] at h ⊢
    · exact .inl ⟨c, k, ha, hp, rfl, h⟩
    · cases h
      exact .inr ⟨hidle, .inl ⟨trivial, rfl⟩⟩
    · cases h
      exact .inr ⟨hidle, .inr (.inl ⟨rest, rfl, rfl⟩)⟩
    · refine .inr ⟨hidle, .inr (.inr ⟨i, rest, hd, rfl, ?_⟩)⟩
      cases hl : (s.accept ch rest).legal i with
      | false =>
        rw [exec_illegal hl] at h
        cases h
        exact .inl ⟨rfl, rfl⟩
      | true =>
        refine .inr ⟨rfl, effect_of_exec hl (fun hc => ?_) h⟩
        rcases hidle with ha | hp
        · exact ha hc.1
        · have := hc.2
          simp [hp, PutSeq.pending] at this

end Sys2Proof.Machine
end

