-- ==== Sys2Proof/Tests/Slice0.lean ====
section
/-! SUPPORT. The model's own tests: words written out from the map of 30_encoding.md R103 and their decoding vectors
(95_test_vectors.md section 2.4), the operand checks, single steps whose results are worked in 95_test_vectors.md, and for
every statement with hypotheses a state and operands that meet them. -/

namespace Sys2Proof.Tests

open Sys2Proof.Machine

/-! ## Decoding: words from the vectors of section 2.4, with the defaults of R5 -/

theorem test_decode_rbPut : decode Params.default [0x100000FF] = some (.op (.rbPut 255), []) := by decide
theorem test_decode_rbGet : decode Params.default [0x11000000] = some (.op .rbGet, []) := by decide
theorem test_decode_rbIsfull : decode Params.default [0x12000000] = some (.op .rbIsfull, []) := by decide
theorem test_decode_rbIsempty : decode Params.default [0x13000000] = some (.op .rbIsempty, []) := by decide
theorem test_decode_rbLength : decode Params.default [0x14000000] = some (.op .rbLength, []) := by decide
theorem test_decode_stPutchar : decode Params.default [0x20000041] = some (.op (.stPutchar 0x41), []) := by decide
theorem test_decode_stGetchar : decode Params.default [0x21000000] = some (.op .stGetchar, []) := by decide
theorem test_decode_stSubmit : decode Params.default [0x22000000] = some (.op .stSubmit, []) := by decide
theorem test_decode_stTxdone : decode Params.default [0x28000000] = some (.op .stTxdone, []) := by decide
theorem test_decode_stRxpkt :
    decode Params.default [0x29000002, 0x00000078, 0x00000079] = some (.op (.stRxpkt [0x78, 0x79]), []) := by decide
theorem test_decode_fbTake : decode Params.default [0x30000000] = some (.op .fbTake, []) := by decide
theorem test_decode_fbReset : decode Params.default [0x31000000] = some (.op .fbReset, []) := by decide
theorem test_decode_fbSample : decode Params.default [0x38001234] = some (.op (.fbSample 0x1234), []) := by decide
theorem test_decode_fbFrame : decode Params.default [0x39000000] = some (.op .fbFrame, []) := by decide

/-- Bit by bit: `RB.PUT 165` has bit 28 (`UNIT` 1) and the bits 7, 5, 2, 0 of its value. -/
theorem test_decode_bits_rbPut :
    decodeHeader Params.default 0b00010000000000000000000010100101 = .ok (.op (.rbPut 165)) := by decide

/-- Bit by bit: `ST.PUTCHAR 0x81` has bit 29 (`UNIT` 2) and the bits 7 and 0 of its byte. -/
theorem test_decode_bits_stPutchar :
    decodeHeader Params.default 0b00100000000000000000000010000001 = .ok (.op (.stPutchar 0x81)) := by decide

/-- Bit by bit: `FB.SAMPLE 0x8001` has bits 29, 28 (`UNIT` 3), bit 27 (`OP` 8) and the bits 15 and 0 of its value. -/
theorem test_decode_bits_fbSample :
    decodeHeader Params.default 0b00111000000000001000000000000001 = .ok (.op (.fbSample 0x8001)) := by decide

/-- The words of section 2.4 that are no request. -/
theorem test_decode_illegal :
    ([0x10000100, 0x10010001, 0x11000001, 0x15000000, 0x20000141, 0x29000041, 0x2F000001, 0x32000000, 0x00000000,
      0xFFFFFFFF, 0x40000000] : List Word).map (fun w => decode Params.default [w]) =
    [.valueOutOfRange, .reservedNotZero, .argNotZero, .noOperation, .argHighNotZero, .packetTooLong, .noOperation,
      .noOperation, .noUnit, .reservedNotZero, .noUnit].map fun e => some (.bad e, []) := by decide

/-- A malformed payload word makes the whole packet illegal (section 2.4, R95). -/
theorem test_decode_malformed_payload :
    decode Params.default [0x29000002, 0x00000178, 0x00000079] = some (.bad .malformedPayload, []) := by decide

/-- A payload word that looks like a header is a byte and nothing else (section 2.4). -/
theorem test_decode_payload_is_no_header :
    decode Params.default [0x29000001, 0x00000011, 0x11000000] = some (.op (.stRxpkt [0x11]), [0x11000000]) := by decide

/-- V19: with `SW = 8` the sample 0x100 is illegal and 0xFF is legal. -/
theorem test_decode_v19 :
    decode { Params.default with sw := 8 } [0x38000100] = some (.bad .valueOutOfRange, []) ∧
    decode { Params.default with sw := 8 } [0x380000FF] = some (.op (.fbSample 0xFF), []) := by decide

/-- V11: with `MAXPKT = 2` a header of 3 is a request of length one. -/
theorem test_decode_v11 :
    decode { Params.default with maxPkt := 2 } [0x29000003, 0x61, 0x62, 0x63] =
      some (.bad .packetTooLong, [0x61, 0x62, 0x63]) := by decide

/-- The host's numbering: the second word of a packet is bits 63 to 32. -/
theorem test_decodeTableWord :
    decodeTableWord 32 0x20000041 = some (.stPutchar 0x41) ∧
    decodeTableWord 32 0x29000001 = some (.stRxpkt [0x00]) ∧
    decodeTableWord 64 0x0000007829000001 = some (.stRxpkt [0x78]) ∧
    decodeTableWord 32 0xFFFFFFFF = none := by decide +kernel

/-! ## Well-formedness: each check refuses an ill-formed operation -/

theorem test_wellFormed_rbPut_refused : wellFormed Params.default (.rbPut 256) = false := by decide
theorem test_wellFormed_rbPut_accepted : wellFormed Params.default (.rbPut 255) = true := by decide
theorem test_wellFormed_stRxpkt_refused : wellFormed { Params.default with maxPkt := 2 } (.stRxpkt [1, 2, 3]) = false := by
  decide
theorem test_wellFormed_stRxpkt_accepted : wellFormed { Params.default with maxPkt := 2 } (.stRxpkt [1, 2]) = true := by
  decide
theorem test_wellFormed_fbSample_refused : wellFormed { Params.default with sw := 8 } (.fbSample 256) = false := by decide
theorem test_wellFormed_fbSample_accepted : wellFormed { Params.default with sw := 8 } (.fbSample 255) = true := by decide

/-! ## Small states -/

/-- Small sizes, every operation's corner cases within reach. -/
def small : Params :=
  { w := 8, cap := 2, rxCap := 4, txCap := 2, maxPkt := 2, putRetries := 1, r := 2, maxPos := 2, sw := 16, fcw := 2,
    continuous := false, emptySentinel := -1 }

/-- The machine after construction with the small sizes. -/
def fresh : State := State.construct small

/-- RB0 full of 1 and 2, as row 2 of program P1 leaves it. -/
def fullRb : RingBuffer Elem := { storage := [(0, 1), (1, 2)], count := 2, readCursor := 0, writeCursor := 0 }

/-- RB0 with 2 in its last cell, as row 4 of program P1 leaves it. -/
def halfRb : RingBuffer Elem := { storage := [(0, 1), (1, 2)], count := 1, readCursor := 1, writeCursor := 0 }

/-- `tx` full of 0x42 and 0x43. -/
def fullTx : RingBuffer Byte := { storage := [(0, 0x42), (1, 0x43)], count := 2, readCursor := 0, writeCursor := 0 }

/-- `tx` with 0x43 alone, in its last cell. -/
def halfTx : RingBuffer Byte := { storage := [(0, 0x42), (1, 0x43)], count := 1, readCursor := 1, writeCursor := 0 }

/-- `rx` with three bytes, one place left, its write cursor at the last cell. -/
def rx3 : RingBuffer Byte :=
  { storage := [(0, 0x10), (1, 0x11), (2, 0x12)], count := 3, readCursor := 0, writeCursor := 3 }

/-- Unit U3 with one frame of one sample waiting and one sample in progress, as V22 starts (with `MAXPOS = 2`). -/
def oneFrame : FrameBuffer :=
  { slots := [{ data := [(0, 1)], length := 1 }, { data := [(0, 2)], length := 1 }], writeSlot := 1, readSlot := 0,
    overrun := false, frameCount := 3, busy := false }

/-- The same after the frame-complete that finds no free slot. -/
def overran : FrameBuffer :=
  { slots := [{ data := [(0, 1)], length := 1 }, { data := [(0, 2)], length := 0 }], writeSlot := 1, readSlot := 0,
    overrun := true, frameCount := 0, busy := true }

/-- A transfer outstanding, and a full `tx`. -/
def sending : State := { fresh with st := { fresh.st with tx := fullTx, txIdle := false } }

/-- The same with a `putChar` of 0x44 that has `k` retries left. -/
def waits (k : Nat) : State := sending.withPutSeq (.wait 0x44 k)

/-- The state after the next step, the state itself if the step stops. -/
def after (s : State) : State :=
  match step s with
  | .next t => t
  | _ => s

/-- The request is the next thing the machine accepts. -/
def asks (s : State) (ch : Channel) (i : Instr) : State := s.present ch (encode i)

/-- Whether an outcome is a given next state. -/
def isNext (o : Host.Outcome State Fault Refusal) (t : State) : Bool :=
  match o with
  | .next t' => decide (t' = t)
  | _ => false

/-- The invariant, part by part, each part decided on the state given. -/
theorem inv_intro {s : State} (h₁ : s.params.Ok := by decide) (h₂ : RingBuffer.Inv s.params.cap s.rb0 := by decide)
    (h₃ : Cells.Below s.params.w s.rb0.storage := by decide) (h₄ : RingBuffer.Inv s.params.rxCap s.st.rx := by decide)
    (h₅ : RingBuffer.Inv s.params.txCap s.st.tx := by decide) (h₆ : s.st.txIdle = true → s.st.tx.count = 0 := by decide)
    (h₇ : s.st.putSeq.retriesLeft ≤ s.params.putRetries := by decide) (h₈ : FrameBuffer.Inv s.params s.fb := by decide)
    (h₉ : ∀ buf ∈ s.log.hwtx, 1 ≤ buf.length ∧ buf.length ≤ s.params.maxPkt := by decide) : s.Inv :=
  ⟨h₁, ⟨h₂, h₃⟩, h₄, h₅, h₆, h₇, h₈, h₉⟩

theorem eq_of_isNext {o : Host.Outcome State Fault Refusal} {t : State} (h : isNext o t = true) : o = .next t := by
  cases o <;> simp_all [isNext]

/-! ## Single steps, with results worked in 95_test_vectors.md -/

/-- Program P1 row 5: the put overwrites cell 0, which an earlier get had read, and the queue is full again. -/
theorem test_rbPut_p1_row5 :
    (after (asks { fresh with rb0 := halfRb } .rbP (.rbPut 3))).rb0 =
      { storage := [(0, 3), (1, 2)], count := 2, readCursor := 1, writeCursor := 1 } := by decide

/-- Program P1 row 3: a put on a full queue answers `FULL`, word 0x10000000. -/
theorem test_rbPut_p1_row3 :
    (after (asks { fresh with rb0 := fullRb } .rbP (.rbPut 3))).rb0 = fullRb ∧
    (after (asks { fresh with rb0 := fullRb } .rbP (.rbPut 3))).env.answers.rbP = [.full] := by decide

/-- Program P1 row 4: the oldest element, and the read cursor moves; the cell keeps its value. -/
theorem test_rbGet_p1_row4 :
    (after (asks { fresh with rb0 := fullRb } .rbC .rbGet)).rb0 = halfRb ∧
    (after (asks { fresh with rb0 := fullRb } .rbC .rbGet)).env.answers.rbC = [.okValue 1] := by decide

/-- Vector V5: a get presented on `rb_p` is illegal and changes nothing. -/
theorem test_rbGet_v5 :
    (after (asks { fresh with rb0 := fullRb } .rbP .rbGet)).rb0 = fullRb ∧
    (after (asks { fresh with rb0 := fullRb } .rbP .rbGet)).env.answers.rbP = [.illegal] := by decide

/-- T2 row 5. -/
theorem test_rbIsfull_t2 : (after (asks { fresh with rb0 := fullRb } .rbP .rbIsfull)).env.answers.rbP = [.okValue 1] := by
  decide

/-- T3 row 1. -/
theorem test_rbIsempty_t3 : (after (asks fresh .rbC .rbIsempty)).env.answers.rbC = [.okValue 1] := by decide

/-- The example of R124: `count = 1`. -/
theorem test_rbLength_r124 : (after (asks { fresh with rb0 := halfRb } .rbC .rbLength)).env.answers.rbC = [.okValue 1] := by
  decide

/-- T4 row 1: the byte goes out alone and the transport is `Sending`. -/
theorem test_stPutchar_t4 :
    (after (asks fresh .stM (.stPutchar 0x41))).log.hwtx = [[0x41]] ∧
    (after (asks fresh .stM (.stPutchar 0x41))).st =
      { fresh.st with
        tx := { storage := [(0, 0x41)], count := 0, readCursor := 1, writeCursor := 1 }, txIdle := false } := by decide

/-- Program P3 row 4: `tx` full, the issue phase answers nothing and starts waiting with the full budget. -/
theorem test_stPutchar_p3_row4 :
    (after (asks sending .stM (.stPutchar 0x04))).st.putSeq = .wait 0x04 1 ∧
    (after (asks sending .stM (.stPutchar 0x04))).env.answers.stM = [] := by decide

/-- Program P2 row 7: the oldest byte. -/
theorem test_stGetchar_p2_row7 :
    (after (asks { fresh with st := { fresh.st with rx := rx3 } } .stM .stGetchar)).env.answers.stM = [.okValue 0x10] := by
  decide

/-- Vector V7: nothing while `Sending`. -/
theorem test_stSubmit_v7 :
    (after (asks sending .stM .stSubmit)).st = sending.st ∧ (after (asks sending .stM .stSubmit)).log = sending.log := by
  decide

/-- Program P3 row 8: the handler drains `tx` into one packet, oldest byte first. -/
theorem test_stTxdone_p3_row8 :
    (after (asks (waits 1) .stTxdone .stTxdone)).log.hwtx = [[0x42, 0x43]] ∧
    (after (asks (waits 1) .stTxdone .stTxdone)).st.tx.count = 0 ∧
    (after (asks (waits 1) .stTxdone .stTxdone)).st.txIdle = false := by decide

/-- T4 row 2: a notification with `tx` empty leaves the transport idle. -/
theorem test_stTxdone_t4 :
    (after (asks { fresh with st := { fresh.st with txIdle := false } } .stTxdone .stTxdone)).st = fresh.st := by decide

/-- Vector V10, with two bytes: the one that fits is stored in the last cell, the other is lost. -/
theorem test_stRxpkt_v10 :
    (after (asks { fresh with st := { fresh.st with rx := rx3 } } .stRx (.stRxpkt [0x61, 0x62]))).st.rx =
      { storage := [(0, 0x10), (1, 0x11), (2, 0x12), (3, 0x61)], count := 4, readCursor := 0, writeCursor := 0 } := by
  decide

/-- Vector V11: an empty packet changes nothing. -/
theorem test_stRxpkt_v11 : (after (asks sending .stRx (.stRxpkt []))).st = sending.st := by decide

/-- Program P3 rows 5 and 6: a retry phase that finds `tx` full, and the exhausted phase, which answers `SATURATED`. -/
theorem test_putchar_phases_p3 :
    (after ((waits 1).present .stM [])).st.putSeq = .wait 0x44 0 ∧
    (after ((waits 0).present .stM [])).st = sending.st ∧
    (after ((waits 0).present .stM [])).env.answers.stM = [.saturated] := by decide

/-- Vector V22, order A: the frame of slot 0 is taken. -/
theorem test_fbTake_v22 :
    (after (asks { fresh with fb := oneFrame } .fbM .fbTake)).env.answers.fbM = [.okFrame [1]] ∧
    (after (asks { fresh with fb := oneFrame } .fbM .fbTake)).fb = { oneFrame with readSlot := 1 } := by decide

/-- Vector V16 row 6: `OVERRUN` comes before the waiting frame, and nothing changes. -/
theorem test_fbTake_v16 :
    (after (asks { fresh with fb := overran } .fbM .fbTake)).env.answers.fbM = [.overrun] ∧
    (after (asks { fresh with fb := overran } .fbM .fbTake)).fb = overran := by decide

/-- T5 row 10: everything is cleared but the data cells. -/
theorem test_fbReset_t5 :
    (after (asks { fresh with fb := overran } .fbM .fbReset)).fb =
      { slots := [{ data := [(0, 1)], length := 0 }, { data := [(0, 2)], length := 0 }], writeSlot := 0, readSlot := 0,
        overrun := false, frameCount := 0, busy := false } := by decide

/-- T7 row 2: the second sample lands at position 1. -/
theorem test_fbSample_t7 :
    (after (asks { fresh with fb := { fresh.fb with slots := [{ data := [(0, 10)], length := 1 }, { data := [], length := 0 }] } }
      .fbSample (.fbSample 20))).fb.slots = [{ data := [(0, 10), (1, 20)], length := 2 }, { data := [], length := 0 }] := by
  decide

/-- V14 row 7: `writeSlot` wraps to 0 and the stale slot is cleared. -/
theorem test_fbFrame_v14 :
    (after (asks { fresh with fb := { oneFrame with readSlot := 1 } } .fbFrame .fbFrame)).fb =
      { slots := [{ data := [(0, 1)], length := 0 }, { data := [(0, 2)], length := 1 }], writeSlot := 0, readSlot := 1,
        overrun := false, frameCount := 0, busy := false } := by decide

/-- Vector V22, order B: no free slot; the counter of two bits wraps from 3 to 0 (V16). -/
theorem test_fbFrame_v22 : (after (asks { fresh with fb := oneFrame } .fbFrame .fbFrame)).fb = overran := by decide

/-- Section 2.4: response words. -/
theorem test_response_words :
    Result.words Params.default .empty = some [0x2000FFFF] ∧ Result.words Params.default (.okValue 0x5A) = some [0x0000005A] ∧
    Result.words Params.default (.okFrame [10, 20]) = some [0x00000002, 0x0000000A, 0x00000014] ∧
    Result.words Params.default (.okFrame []) = some [0x00000000] ∧ hwtxWords [0x41] = [0x2F000001, 0x00000041] := by decide

/-- The host's fetch: the word is placed where the next step accepts it. -/
theorem test_withFetchWord :
    (after (State.reset.withFetchWord 32 0x38001234)).fb.slots[0]? = some { data := [(0, 0x1234)], length := 1 } ∧
    (after (State.reset.withFetchWord 32 0x10000007)).rb0.count = 1 ∧
    (after ((waits 0).withFetchWord 32 0x22000000)).env.answers.stM = [.ok] := by decide +kernel

/-! ## Witnesses: for every statement with hypotheses, a state and operands that meet them -/

/-! ### Encoding -/

/-- The longest packet of all. -/
theorem witness_DecodeOfEncode :
    ∃ (p : Params) (i : Instr), p.maxPkt ≤ 255 ∧ wellFormed p i = true ∧ i = .stRxpkt (List.replicate 255 0xFF) :=
  ⟨{ small with maxPkt := 255 }, .stRxpkt (List.replicate 255 0xFF), by decide +kernel, by decide +kernel, rfl⟩

theorem witness_EncodeOfDecode :
    ∃ (p : Params) (ws : List Word) (i : Instr) (rest : List Word), decode p ws = some (.op i, rest) :=
  ⟨small, [0x29000002, 0x78, 0xFF, 0x11000000], .stRxpkt [0x78, 0xFF], [0x11000000], by decide⟩

theorem witness_RowsAreDisjoint_rows :
    ∃ (w : Word) (i j : Instr), selectsRow w i ∧ selectsRow w j ∧ i ≠ j :=
  ⟨0x1000FFFF, .rbPut 0, .rbPut 1, by decide⟩

theorem witness_RowsAreDisjoint_operation : ∃ (p : Params) (w : Word) (i : Instr), decodeHeader p w = .ok (.op i) :=
  ⟨small, 0x3800FFFF, .fbSample 0xFFFF, by decide⟩

theorem witness_RowsAreDisjoint_packet : ∃ (p : Params) (w : Word) (n : Nat), decodeHeader p w = .ok (.packet n) :=
  ⟨small, 0x29000002, 2, by decide⟩

theorem witness_PacketPayloadIsCountedOff_incomplete :
    ∃ (p : Params) (n : Nat) (t : List Word), n ≤ p.maxPkt ∧ p.maxPkt ≤ 255 ∧ t.length < n :=
  ⟨small, 2, [0x11000000], by decide⟩

theorem witness_PacketPayloadIsCountedOff_malformed :
    ∃ (p : Params) (n : Nat) (t : List Word), n ≤ p.maxPkt ∧ p.maxPkt ≤ 255 ∧ n ≤ t.length ∧
      ∃ w ∈ t.take n, w.extractLsb' 8 24 ≠ 0 :=
  ⟨small, 2, [0x78, 0x178], by decide, by decide, by decide, 0x178, by decide, by decide⟩

theorem witness_PacketPayloadIsCountedOff_complete :
    ∃ (p : Params) (n : Nat) (t : List Word), n ≤ p.maxPkt ∧ p.maxPkt ≤ 255 ∧ n ≤ t.length ∧
      ∀ w ∈ t.take n, w.extractLsb' 8 24 = 0 :=
  ⟨small, 2, [0x78, 0xFF, 0x11000000], by decide, by decide, by decide, by simp⟩

theorem witness_ResponseWords : ∃ (v : Nat) (samples : List Sample), v < 65536 ∧ samples.length < 65536 :=
  ⟨65535, [10, 20], by decide⟩

theorem witness_TransmitEventWords : ∃ buf : List Byte, buf.length ≤ 255 := ⟨List.replicate 255 0, Nat.le_of_eq List.length_replicate⟩

/-! ### The step and the ports -/

/-- `M` is free. -/
theorem witness_StepRunsDecodedOperation_free :
    ∃ (s : State) (ch : Channel) (turns : List Channel) (i : Instr) (rest : List Word), s.env.schedule = ch :: turns ∧
      (ch.agent ≠ .mainLoop ∨ s.st.putSeq = .idle) ∧ decode s.params (s.env.ports.get ch) = some (.op i, rest) :=
  ⟨asks (asks fresh .stM .stGetchar) .stM .stSubmit, .stM, [.stM], .stGetchar, [0x22000000], rfl, by decide, by decide⟩

/-- A handler's turn while a `putChar` waits. -/
theorem witness_StepRunsDecodedOperation_handler :
    ∃ (s : State) (ch : Channel) (turns : List Channel) (i : Instr) (rest : List Word), s.env.schedule = ch :: turns ∧
      ch.agent ≠ .mainLoop ∧ s.st.putSeq ≠ .idle ∧ decode s.params (s.env.ports.get ch) = some (.op i, rest) :=
  ⟨asks (waits 1) .stTxdone .stTxdone, .stTxdone, [], .stTxdone, [], rfl, by decide, by decide, by decide⟩

theorem witness_StepRunsEncodedOperation :
    ∃ (s : State) (ch : Channel) (turns : List Channel) (i : Instr) (rest : List Word), s.params.Ok ∧
      wellFormed s.params i = true ∧ s.env.schedule = ch :: turns ∧ (ch.agent ≠ .mainLoop ∨ s.st.putSeq = .idle) ∧
      s.env.ports.get ch = encode i ++ rest :=
  ⟨asks fresh .stRx (.stRxpkt [0x61, 0x62]), .stRx, [], .stRxpkt [0x61, 0x62], [], by decide, by decide, rfl, by decide,
    by decide⟩

/-- An operation on a channel that does not take it. -/
theorem witness_IllegalRequestsChangeNothing_channel :
    ∃ (s : State) (ch : Channel) (turns : List Channel) (i : Instr) (rest : List Word), s.env.schedule = ch :: turns ∧
      (ch.agent ≠ .mainLoop ∨ s.st.putSeq = .idle) ∧ decode s.params (s.env.ports.get ch) = some (.op i, rest) ∧
      ch.accepts i = false :=
  ⟨asks fresh .rbC (.rbPut 1), .rbC, [], .rbPut 1, [], rfl, by decide, by decide, by decide⟩

/-- A word that is no request, on an event input. -/
theorem witness_IllegalRequestsChangeNothing_word :
    ∃ (s : State) (ch : Channel) (turns : List Channel) (e : DecodeError) (rest : List Word),
      s.env.schedule = ch :: turns ∧ (ch.agent ≠ .mainLoop ∨ s.st.putSeq = .idle) ∧
      decode s.params (s.env.ports.get ch) = some (.bad e, rest) :=
  ⟨fresh.present .stRx [0x29000003], .stRx, [], .packetTooLong, [], rfl, by decide, by decide⟩

theorem witness_IdleTurnsChangeNothing_no_turn : ∃ s : State, s.env.schedule = [] := ⟨fresh, rfl⟩

/-- A packet with one of its two payload words. -/
theorem witness_IdleTurnsChangeNothing_incomplete :
    ∃ (s : State) (ch : Channel) (turns : List Channel), s.env.schedule = ch :: turns ∧
      (ch.agent ≠ .mainLoop ∨ s.st.putSeq = .idle) ∧ decode s.params (s.env.ports.get ch) = none :=
  ⟨fresh.present .stRx [0x29000002, 0x61], .stRx, [], rfl, by decide, by decide⟩

theorem witness_MainLoopWordsWaitForPutChar :
    ∃ (s t : State) (c : Byte) (k : Nat), s.st.putSeq = .wait c k ∧ step s = .next t ∧ s.env.ports.stM ≠ [] :=
  ⟨asks (waits 1) .stM .stSubmit, after (asks (waits 1) .stM .stSubmit), 0x44, 1, rfl, rfl, by decide⟩

theorem witness_MainLoopWordsWaitForPutChar_handler :
    ∃ (s t : State) (c : Byte) (k : Nat) (ch : Channel) (turns : List Channel), s.st.putSeq = .wait c k ∧
      step s = .next t ∧ s.env.schedule = ch :: turns ∧ ch.agent ≠ .mainLoop :=
  ⟨asks (waits 0) .stTxdone .stTxdone, after (asks (waits 0) .stTxdone .stTxdone), 0x44, 0, .stTxdone, [], rfl,
    eq_of_isNext (by decide), rfl, by decide⟩

/-- A full `tx`, a `putChar` with its whole budget left, an overrun and a full RB0, together. -/
theorem witness_NoStepStopsTheBlock : ∃ s : State, s.Inv :=
  ⟨{ waits 1 with rb0 := fullRb, fb := overran, log := { hwtx := [[0x41]] } }, inv_intro⟩

theorem witness_StepKeepsInvariant : ∃ s t : State, s.Inv ∧ step s = .next t :=
  ⟨asks (waits 1) .stTxdone .stTxdone, after (asks (waits 1) .stTxdone .stTxdone), inv_intro, eq_of_isNext (by decide)⟩

/-- The largest widths and sizes of R5's constraints, and the smallest. -/
theorem witness_ConstructionHasInvariant :
    (∃ p : Params, p.Ok ∧ p.w = 16 ∧ p.maxPkt = 255 ∧ p.maxPos = 65535 ∧ p.emptySentinel = 65536) ∧
    ∃ p : Params, p.Ok ∧ p.w = 1 ∧ p.cap = 1 ∧ p.txCap = 1 ∧ p.maxPkt = 1 ∧ p.r = 2 ∧ p.maxPos = 1 :=
  ⟨⟨{ small with w := 16, maxPkt := 255, maxPos := 65535, emptySentinel := 65536 }, by decide⟩,
    ⟨{ small with w := 1, cap := 1, txCap := 1, maxPkt := 1, maxPos := 1 }, by decide⟩⟩

theorem witness_ReachableStates : ∃ (p : Params) (s : State), p.Ok ∧ Reachable p s ∧ s.rb0.count = 1 :=
  ⟨small, after (asks fresh .rbP (.rbPut 7)), by decide,
    .step (.present .rbP (encode (.rbPut 7)) .construct) (eq_of_isNext (by decide)), by decide⟩

theorem witness_RefusedOnlyDuringPutChar : ∃ (i : Instr) (s : State) (r : Refusal), exec i s = .refused r :=
  ⟨.stSubmit, (waits 1).withOrigin .stM, .putCharPending, rfl⟩

theorem witness_NoStepWritesAParameter : ∃ s t : State, step s = .next t ∧ s ≠ t :=
  ⟨asks fresh .fbFrame .fbFrame, after (asks fresh .fbFrame .fbFrame), eq_of_isNext (by decide), by decide⟩

/-- A handler of U3: RB0, `rx` and `tx` are other units'. -/
theorem witness_UnitsShareNoState_frame_handler :
    ∃ (s t : State) (ch : Channel) (turns : List Channel), s.env.schedule = ch :: turns ∧ step s = .next t ∧
      (ch ≠ .rbP ∧ ch ≠ .rbC) ∧ (ch ≠ .stRx ∧ ch ≠ .stM) ∧ ch ≠ .stTxdone ∧ ch ≠ .fbM ∧ s.fb ≠ t.fb :=
  ⟨asks sending .fbFrame .fbFrame, after (asks sending .fbFrame .fbFrame), .fbFrame, [], rfl, eq_of_isNext (by decide),
    by decide, by decide, by decide, by decide, by decide⟩

/-- The receive handler: the frame buffer is another unit's. -/
theorem witness_UnitsShareNoState_receive_handler :
    ∃ (s t : State) (ch : Channel) (turns : List Channel), s.env.schedule = ch :: turns ∧ step s = .next t ∧
      ch ≠ .fbM ∧ ch ≠ .fbSample ∧ ch ≠ .fbFrame ∧ s.st.rx ≠ t.st.rx :=
  ⟨asks sending .stRx (.stRxpkt [1]), after (asks sending .stRx (.stRxpkt [1])), .stRx, [], rfl, eq_of_isNext (by decide),
    by decide, by decide, by decide, by decide⟩

theorem witness_UnitsShareNoState_main_loop :
    ∃ (s t : State) (ch : Channel) (turns : List Channel), s.env.schedule = ch :: turns ∧ step s = .next t ∧
      s.st.putSeq = .idle ∧ ch = .fbM ∧ s.fb ≠ t.fb :=
  ⟨asks { sending with fb := overran } .fbM .fbReset, after (asks { sending with fb := overran } .fbM .fbReset), .fbM, [],
    rfl, eq_of_isNext (by decide), rfl, rfl, by decide⟩

/-- A handler's turn leaves the sequencer, and here moves the frame buffer. -/
theorem witness_UnitsShareNoState_sequencer :
    ∃ (s t : State) (ch : Channel) (turns : List Channel), s.env.schedule = ch :: turns ∧ step s = .next t ∧
      ch ≠ .stM ∧ ch ≠ .fbM ∧ s.st.putSeq = .wait 0x44 1 ∧ s.fb ≠ t.fb :=
  ⟨asks (waits 1) .fbFrame .fbFrame, after (asks (waits 1) .fbFrame .fbFrame), .fbFrame, [], rfl, eq_of_isNext (by decide),
    by decide, by decide, rfl, by decide⟩

/-- A turn of `fb_m` while a `putChar` waits is the transport's next phase (log 8). -/
theorem witness_UnitsShareNoState_phase :
    ∃ (s t : State) (ch : Channel) (turns : List Channel), s.env.schedule = ch :: turns ∧ step s = .next t ∧
      s.st.putSeq ≠ .idle ∧ ch = .fbM ∧ s.st.tx ≠ t.st.tx :=
  ⟨((waits 1).withTx halfTx).present .fbM [], after (((waits 1).withTx halfTx).present .fbM []), .fbM, [], rfl,
    eq_of_isNext (by decide), by decide, rfl, by decide⟩

/-- A frame handler's turn, with a `putChar` waiting in one state and none in the other. -/
theorem witness_FrameBufferReadsOnlyItself_handler :
    ∃ (s₁ s₂ t₁ t₂ : State) (ch : Channel) (turns : List Channel), s₁.env.schedule = ch :: turns ∧ ch = .fbFrame ∧
      s₁.params = s₂.params ∧ s₁.env = s₂.env ∧ s₁.fb = s₂.fb ∧ step s₁ = .next t₁ ∧ step s₂ = .next t₂ ∧
      s₁.st.putSeq = .idle ∧ s₂.st.putSeq = .wait 0x44 1 :=
  ⟨asks { fresh with fb := oneFrame } .fbFrame .fbFrame, asks { waits 1 with fb := oneFrame } .fbFrame .fbFrame,
    after (asks { fresh with fb := oneFrame } .fbFrame .fbFrame), after (asks { waits 1 with fb := oneFrame } .fbFrame .fbFrame),
    .fbFrame, [], rfl, rfl, rfl, rfl, rfl, eq_of_isNext (by decide), eq_of_isNext (by decide), rfl, rfl⟩

theorem witness_RxIdleAndBusyAreReadByNothing_asserted :
    ∃ s t : State, step s = .next t ∧ s.runs .fbFrame ∧ (s.fb.writeSlot + 1) % s.params.r = s.fb.readSlot ∧
      s.params.continuous = false ∧ s.fb.busy = false ∧ t.fb.busy = true :=
  ⟨asks { fresh with fb := oneFrame } .fbFrame .fbFrame, after (asks { fresh with fb := oneFrame } .fbFrame .fbFrame),
    eq_of_isNext (by decide), ⟨_, rfl, rfl⟩, by decide, rfl, rfl, by decide⟩

theorem witness_RxIdleAndBusyAreReadByNothing_released :
    ∃ s t : State, step s = .next t ∧ s.runs .fbReset ∧ s.fb.busy = true ∧ t.fb.busy = false :=
  ⟨asks { fresh with fb := overran } .fbM .fbReset, after (asks { fresh with fb := overran } .fbM .fbReset),
    eq_of_isNext (by decide), ⟨_, rfl, rfl⟩, rfl, by decide⟩

/-- Two states that differ in RB0 and in the transport. -/
theorem witness_FrameBufferReadsOnlyItself :
    ∃ (s₁ s₂ t₁ t₂ : State) (ch : Channel) (turns : List Channel), s₁.env.schedule = ch :: turns ∧
      (ch = .fbM ∨ ch = .fbSample ∨ ch = .fbFrame) ∧ s₁.params = s₂.params ∧ s₁.env = s₂.env ∧ s₁.fb = s₂.fb ∧
      s₁.st.putSeq = .idle ∧ s₂.st.putSeq = .idle ∧ step s₁ = .next t₁ ∧ step s₂ = .next t₂ ∧ s₁.rb0 ≠ s₂.rb0 ∧
      s₁.st ≠ s₂.st :=
  ⟨asks { fresh with fb := oneFrame } .fbM .fbTake, asks { sending with rb0 := fullRb, fb := oneFrame } .fbM .fbTake,
    after (asks { fresh with fb := oneFrame } .fbM .fbTake),
    after (asks { sending with rb0 := fullRb, fb := oneFrame } .fbM .fbTake), .fbM, [], rfl, .inl rfl, rfl, rfl, rfl, rfl,
    rfl, eq_of_isNext (by decide), eq_of_isNext (by decide), by decide, by decide⟩

/-! ### Unit U1 -/

theorem witness_RbPutStores :
    ∃ (s : State) (v : Elem), s.env.origin = .rbP ∧ v.toNat < 2 ^ s.params.w ∧ s.rb0.count ≠ s.params.cap ∧
      s.rb0.writeCursor < s.params.cap :=
  ⟨{ fresh with rb0 := { halfRb with readCursor := 0, writeCursor := 1 } }, 0xFF, by decide⟩

theorem witness_RbPutOnFullIsRejected :
    ∃ (s : State) (v : Elem), s.env.origin = .rbP ∧ v.toNat < 2 ^ s.params.w ∧ s.rb0.count = s.params.cap :=
  ⟨{ fresh with rb0 := fullRb }, 0xFF, by decide⟩

theorem witness_RbGetReturnsOldest_empty : ∃ s : State, s.env.origin = .rbC ∧ s.rb0.count = 0 :=
  ⟨fresh.withOrigin .rbC, by decide⟩

theorem witness_RbGetReturnsOldest_value :
    ∃ (s : State) (v : Elem), s.env.origin = .rbC ∧ s.rb0.count ≠ 0 ∧ s.rb0.readCursor < s.params.cap ∧
      Cells.read s.rb0.storage s.rb0.readCursor = some v :=
  ⟨{ fresh.withOrigin .rbC with rb0 := halfRb }, 2, by decide⟩

theorem witness_ObserversAnswerFromCount :
    (∃ s : State, s.env.origin = .rbP) ∧ ∃ s : State, s.env.origin = .rbC :=
  ⟨⟨fresh, rfl⟩, ⟨fresh.withOrigin .rbC, rfl⟩⟩

theorem witness_FullAndEmptyComeFromCount :
    ∃ (cap : Nat) (q q' : RingBuffer Elem), RingBuffer.Inv cap q ∧ q.full cap = true ∧ RingBuffer.Inv cap q' ∧
      q'.empty = true :=
  ⟨2, fullRb, { halfRb with readCursor := 0, count := 0 }, by decide⟩

theorem witness_StatusOutputsOfAQueue : ∃ s : State, (s.env.origin = .rbP ∨ s.env.origin = .rbC) ∧ 1 ≤ s.params.cap :=
  ⟨fresh, by decide⟩

theorem witness_CursorsAdvanceModuloCapacity_put :
    ∃ (cap : Nat) (q q' : RingBuffer Elem) (v : Elem) (b : Bool), RingBuffer.Inv cap q ∧ q.put cap v = .ok (q', b) :=
  ⟨2, { halfRb with readCursor := 0, writeCursor := 1 },
    { storage := [(0, 1), (1, 9)], count := 2, readCursor := 0, writeCursor := 0 }, 9, true, by decide, rfl⟩

theorem witness_CursorsAdvanceModuloCapacity_get :
    ∃ (cap : Nat) (q q' : RingBuffer Elem) (a : Option Elem), RingBuffer.Inv cap q ∧ q.get cap = .ok (q', a) :=
  ⟨2, halfRb, { halfRb with count := 0, readCursor := 0 }, some 2, by decide, rfl⟩

theorem witness_CursorsAdvanceModuloCapacity_one :
    ∃ (cap : Nat) (q : RingBuffer Elem), RingBuffer.Inv cap q ∧ cap = 1 ∧ q.count = 1 :=
  ⟨1, { storage := [(0, 7)], count := 1, readCursor := 0, writeCursor := 0 }, by decide⟩

theorem witness_QueueIsFirstInFirstOut : ∃ cap : Nat, 1 ≤ cap := ⟨1, by decide⟩

theorem witness_EmptyQueueTakesCapacityManyPuts :
    ∃ (cap : Nat) (q : RingBuffer Elem) (vs : List Elem), RingBuffer.Inv cap q ∧ q.count = 0 ∧ vs.length = cap :=
  ⟨2, { halfRb with count := 0, writeCursor := 1 }, [8, 9], by decide⟩

theorem witness_CapacityManyRequestsThenFull :
    ∃ (s : State) (vs : List Elem) (v : Elem), s.Inv ∧ s.rb0.count = 0 ∧ s.env.schedule = [] ∧ s.env.ports.rbP = [] ∧
      vs.length = s.params.cap ∧ ∀ u ∈ vs ++ [v], u.toNat < 2 ^ s.params.w :=
  ⟨{ fresh with rb0 := { halfRb with count := 0, writeCursor := 1 } }, [0, 255], 255, inv_intro, rfl, rfl, rfl, rfl,
    by simp [fresh, State.construct, small]⟩

/-! ### Unit U2 -/

theorem witness_PutCharWhileIdleKicks :
    ∃ s : State, s.env.origin = .stM ∧ s.st.putSeq = .idle ∧ s.st.txIdle = true ∧ s.st.tx.count = 0 ∧
      s.st.tx.readCursor = s.st.tx.writeCursor ∧ s.st.tx.writeCursor < s.params.txCap ∧ 1 ≤ s.params.maxPkt :=
  ⟨{ fresh.withOrigin .stM with st := { fresh.st with tx := { halfTx with count := 0, writeCursor := 1 } } }, by decide⟩

theorem witness_PutCharWhileSending_room :
    ∃ s : State, s.env.origin = .stM ∧ s.st.putSeq = .idle ∧ s.st.txIdle = false ∧ s.st.tx.count < s.params.txCap ∧
      s.st.tx.writeCursor < s.params.txCap :=
  ⟨{ sending.withOrigin .stM with st := { sending.st with tx := halfTx } }, by decide⟩

theorem witness_PutCharWhileSending_full :
    ∃ s : State, s.env.origin = .stM ∧ s.st.putSeq = .idle ∧ s.st.txIdle = false ∧ s.params.txCap ≤ s.st.tx.count :=
  ⟨sending.withOrigin .stM, by decide⟩

theorem witness_PutCharRetryPhase_full :
    ∃ (s : State) (ch : Channel) (turns : List Channel) (c : Byte) (k : Nat), s.env.schedule = ch :: turns ∧
      ch.agent = .mainLoop ∧ s.st.putSeq = .wait c (k + 1) ∧ s.params.txCap ≤ s.st.tx.count :=
  ⟨(waits 1).present .fbM [], .fbM, [], 0x44, 0, rfl, rfl, rfl, by decide⟩

theorem witness_PutCharRetryPhase_room :
    ∃ (s : State) (ch : Channel) (turns : List Channel) (c : Byte) (k : Nat), s.env.schedule = ch :: turns ∧
      ch.agent = .mainLoop ∧ s.st.putSeq = .wait c (k + 1) ∧ s.st.txIdle = false ∧ s.st.tx.count < s.params.txCap ∧
      s.st.tx.writeCursor < s.params.txCap :=
  ⟨((waits 1).withTx halfTx).present .stM [], .stM, [], 0x44, 0, rfl, rfl, rfl, by decide⟩

/-- Two transmit-complete notifications between two phases leave the transport `Idle` and `tx` empty. -/
theorem witness_PutCharRetryPhase_idle :
    ∃ (s : State) (ch : Channel) (turns : List Channel) (c : Byte) (k : Nat), s.env.schedule = ch :: turns ∧
      ch.agent = .mainLoop ∧ s.st.putSeq = .wait c (k + 1) ∧ s.st.txIdle = true ∧ s.st.tx.count < s.params.txCap ∧
      RingBuffer.Inv s.params.txCap s.st.tx ∧ 1 ≤ s.params.maxPkt ∧
      s = (after (after (asks (asks (waits 1) .stTxdone .stTxdone) .stTxdone .stTxdone))).present .stM [] :=
  ⟨_, .stM, [], 0x44, 0, by decide, rfl, by decide, by decide, by decide, by decide, by decide, rfl⟩

theorem witness_PutCharExhaustedPhase_full :
    ∃ (s : State) (ch : Channel) (turns : List Channel) (c : Byte), s.env.schedule = ch :: turns ∧
      ch.agent = .mainLoop ∧ s.st.putSeq = .wait c 0 ∧ s.st.txIdle = false ∧ s.st.tx.count = s.params.txCap :=
  ⟨(waits 0).present .stM [], .stM, [], 0x44, rfl, rfl, rfl, by decide⟩

theorem witness_PutCharExhaustedPhase_room :
    ∃ (s : State) (ch : Channel) (turns : List Channel) (c : Byte), s.env.schedule = ch :: turns ∧
      ch.agent = .mainLoop ∧ s.st.putSeq = .wait c 0 ∧ s.st.txIdle = false ∧ s.st.tx.count ≠ s.params.txCap ∧
      s.st.tx.writeCursor < s.params.txCap :=
  ⟨((waits 0).withTx halfTx).present .stM [], .stM, [], 0x44, rfl, rfl, rfl, by decide⟩

/-- Two transmit-complete notifications before the exhausted phase. -/
theorem witness_PutCharExhaustedPhase_idle :
    ∃ (s : State) (ch : Channel) (turns : List Channel) (c : Byte), s.env.schedule = ch :: turns ∧
      ch.agent = .mainLoop ∧ s.st.putSeq = .wait c 0 ∧ s.st.txIdle = true ∧ s.st.tx.count = 0 ∧
      RingBuffer.Inv s.params.txCap s.st.tx ∧ 1 ≤ s.params.maxPkt ∧
      s = (after (after (asks (asks (waits 0) .stTxdone .stTxdone) .stTxdone .stTxdone))).present .stM [] :=
  ⟨_, .stM, [], 0x44, by decide, rfl, by decide, by decide, by decide, by decide, by decide, rfl⟩

/-- `Idle` with a full `tx`, hand-built. -/
theorem witness_PutCharExhaustedPhase_idle_full :
    ∃ (s : State) (ch : Channel) (turns : List Channel) (c : Byte), s.env.schedule = ch :: turns ∧
      ch.agent = .mainLoop ∧ s.st.putSeq = .wait c 0 ∧ s.st.txIdle = true ∧ s.st.tx.count ≠ 0 ∧
      RingBuffer.Inv s.params.txCap s.st.tx ∧ 1 ≤ s.params.maxPkt ∧ s.st.tx.count = s.params.txCap :=
  ⟨((waits 0).withTxIdle true).present .stM [], .stM, [], 0x44, rfl, rfl, rfl, rfl, by decide, by decide, by decide, rfl⟩

theorem witness_PutCharEndsInBoundedTurns :
    ∃ (s : State) (c : Byte) (k : Nat), s.Inv ∧ s.st.putSeq = .wait c k ∧
      k + 1 ≤ (s.env.schedule.filter fun ch => ch.agent == .mainLoop).length :=
  ⟨(((waits 1).present .stM []).present .stTxdone []).present .fbM [], 0x44, 1, inv_intro, rfl, by decide⟩

theorem witness_TransmitStreamIsTheAcceptedBytes :
    ∃ (n : Nat) (s t : State), s.Inv ∧ Sys2Proof.core.run n s = .next t ∧ s.acceptedBytes n = [0x41] :=
  ⟨1, asks fresh .stM (.stPutchar 0x41), after (asks fresh .stM (.stPutchar 0x41)), inv_intro, eq_of_isNext (by decide),
    by decide⟩

theorem witness_GetCharReturnsOldestByte_empty :
    ∃ s : State, s.env.origin = .stM ∧ s.st.putSeq = .idle ∧ s.st.rx.count = 0 :=
  ⟨fresh.withOrigin .stM, by decide⟩

theorem witness_GetCharReturnsOldestByte_value :
    ∃ (s : State) (b : Byte), s.env.origin = .stM ∧ s.st.putSeq = .idle ∧ s.st.rx.count ≠ 0 ∧
      s.st.rx.readCursor < s.params.rxCap ∧ Cells.read s.st.rx.storage s.st.rx.readCursor = some b :=
  ⟨(fresh.withOrigin .stM).withRx rx3, 0x10, by decide⟩

theorem witness_SubmitChangesNothing : ∃ s : State, s.Inv ∧ s.env.origin = .stM ∧ s.st.putSeq = .idle :=
  ⟨sending.withOrigin .stM, inv_intro, by decide⟩

theorem witness_TxDoneSubmitsTheOldestBytes_empty :
    ∃ s : State, s.env.origin = .stTxdone ∧ RingBuffer.Inv s.params.txCap s.st.tx ∧ 1 ≤ s.params.maxPkt ∧
      s.st.tx.count = 0 :=
  ⟨fresh.withOrigin .stTxdone, by decide⟩

/-- More bytes than a packet takes. -/
theorem witness_TxDoneSubmitsTheOldestBytes_packet :
    ∃ s : State, s.env.origin = .stTxdone ∧ RingBuffer.Inv s.params.txCap s.st.tx ∧ 1 ≤ s.params.maxPkt ∧
      s.st.tx.count ≠ 0 ∧ s.params.maxPkt < s.st.tx.count :=
  ⟨{ (waits 0).withOrigin .stTxdone with params := { small with maxPkt := 1 } }, by decide⟩

theorem witness_RxPacketStoresWhatFits :
    ∃ (s : State) (pkt : List Byte), s.env.origin = .stRx ∧ pkt.length ≤ s.params.maxPkt ∧
      RingBuffer.Inv s.params.rxCap s.st.rx ∧ s.params.rxCap - s.st.rx.count < pkt.length :=
  ⟨(fresh.withOrigin .stRx).withRx rx3, [0x61, 0x62], by decide⟩

theorem witness_TransmitStateMachine_leaves_idle :
    ∃ s t : State, step s = .next t ∧ s.st.txIdle = true ∧ t.st.txIdle = false :=
  ⟨asks fresh .stM (.stPutchar 0x41), after (asks fresh .stM (.stPutchar 0x41)), eq_of_isNext (by decide), rfl,
    by decide⟩

theorem witness_TransmitStateMachine_leaves_sending :
    ∃ s t : State, step s = .next t ∧ s.st.txIdle = false ∧ t.st.txIdle = true :=
  ⟨asks (fresh.withTxIdle false) .stTxdone .stTxdone, after (asks (fresh.withTxIdle false) .stTxdone .stTxdone),
    eq_of_isNext (by decide), rfl, by decide⟩

/-! ### Unit U3 -/

theorem witness_SampleIsStoredByPosition_room :
    ∃ (s : State) (v : Sample) (sl : Slot), s.env.origin = .fbSample ∧ v.toNat < 2 ^ s.params.sw ∧
      s.fb.slots[s.fb.writeSlot]? = some sl ∧ sl.length < s.params.maxPos :=
  ⟨{ fresh.withOrigin .fbSample with fb := oneFrame }, 0xFFFF, { data := [(0, 2)], length := 1 }, by decide⟩

theorem witness_SampleIsStoredByPosition_full :
    ∃ (s : State) (v : Sample) (sl : Slot), s.env.origin = .fbSample ∧ v.toNat < 2 ^ s.params.sw ∧
      s.fb.slots[s.fb.writeSlot]? = some sl ∧ s.params.maxPos ≤ sl.length :=
  ⟨{ fresh.withOrigin .fbSample with
      fb := { oneFrame with slots := [{ data := [], length := 0 }, { data := [(0, 2), (1, 3)], length := 2 }] } },
    0xFFFF, { data := [(0, 2), (1, 3)], length := 2 }, by decide⟩

theorem witness_FrameAdvancesToAClearedSlot :
    ∃ (s : State) (sl : Slot), s.env.origin = .fbFrame ∧ (s.fb.writeSlot + 1) % s.params.r ≠ s.fb.readSlot ∧
      s.fb.slots[(s.fb.writeSlot + 1) % s.params.r]? = some sl :=
  ⟨{ fresh.withOrigin .fbFrame with fb := { oneFrame with readSlot := 1 } }, { data := [(0, 1)], length := 1 }, by decide⟩

theorem witness_FrameOverrunsWithNoFreeSlot :
    ∃ (s : State) (sl : Slot), s.env.origin = .fbFrame ∧ (s.fb.writeSlot + 1) % s.params.r = s.fb.readSlot ∧
      s.fb.slots[s.fb.writeSlot]? = some sl :=
  ⟨{ fresh.withOrigin .fbFrame with fb := oneFrame }, { data := [(0, 2)], length := 1 }, by decide⟩

theorem witness_TakeResults_overrun : ∃ s : State, s.env.origin = .fbM ∧ s.st.putSeq = .idle ∧ s.fb.overrun = true :=
  ⟨{ fresh.withOrigin .fbM with fb := overran }, by decide⟩

theorem witness_TakeResults_none :
    ∃ s : State, s.env.origin = .fbM ∧ s.st.putSeq = .idle ∧ s.fb.overrun = false ∧ s.fb.readSlot = s.fb.writeSlot :=
  ⟨fresh.withOrigin .fbM, by decide⟩

theorem witness_TakeResults_frame :
    ∃ (s : State) (sl : Slot), s.env.origin = .fbM ∧ s.st.putSeq = .idle ∧ s.fb.overrun = false ∧
      s.fb.readSlot ≠ s.fb.writeSlot ∧ s.fb.slots[s.fb.readSlot]? = some sl ∧ Slot.Inv s.params sl :=
  ⟨{ sending.withOrigin .fbM with fb := oneFrame }, { data := [(0, 1)], length := 1 }, by decide⟩

theorem witness_ResetClearsTheFrameBuffer : ∃ s : State, s.env.origin = .fbM ∧ s.st.putSeq = .idle :=
  ⟨{ fresh.withOrigin .fbM with fb := overran }, by decide⟩

/-- One frame waits, one is completed and kept. -/
theorem witness_FramesAreTakenInCompletionOrder :
    ∃ (n : Nat) (s t : State), s.Inv ∧ s.noReset n ∧ Sys2Proof.core.run n s = .next t ∧ s.keptFrames n = [[2]] := by
  refine ⟨1, asks { fresh with fb := oneFrame, params := { small with r := 3 } } .fbFrame .fbFrame |>.withFb
    { oneFrame with slots := oneFrame.slots ++ [{ data := [], length := 0 }] }, _, inv_intro, ?_, rfl, by decide⟩
  refine ⟨?_, trivial⟩
  rintro ⟨s', h, -⟩
  cases h

theorem witness_SamplesJoinTheFrameInProgress :
    ∃ (p : Params) (f f' : FrameBuffer) (v : Sample), FrameBuffer.Inv p f ∧ f.sample p v = .ok f' :=
  ⟨small, oneFrame, { oneFrame with slots := [{ data := [(0, 1)], length := 1 }, { data := [(0, 2), (1, 9)], length := 2 }] },
    9, by decide, rfl⟩

theorem witness_OverrunDiscardsEveryFurtherFrame :
    ∃ (p : Params) (f f' : FrameBuffer), FrameBuffer.Inv p f ∧ f.overrun = true ∧ f.frame p = .ok f' :=
  ⟨small, overran, { overran with frameCount := 1 }, by decide, rfl, rfl⟩

theorem witness_OverrunIsSticky_set :
    ∃ s t : State, step s = .next t ∧ s.runs .fbFrame ∧ (s.fb.writeSlot + 1) % s.params.r = s.fb.readSlot ∧
      s.fb.overrun = false ∧ t.fb.overrun = true :=
  ⟨asks { fresh with fb := oneFrame } .fbFrame .fbFrame, after (asks { fresh with fb := oneFrame } .fbFrame .fbFrame),
    eq_of_isNext (by decide), ⟨_, rfl, rfl⟩, by decide, rfl, by decide⟩

theorem witness_OverrunIsSticky_cleared :
    ∃ s t : State, step s = .next t ∧ s.runs .fbReset ∧ s.fb.overrun = true ∧ t.fb.overrun = false :=
  ⟨asks { fresh with fb := overran } .fbM .fbReset, after (asks { fresh with fb := overran } .fbM .fbReset),
    eq_of_isNext (by decide), ⟨_, rfl, rfl⟩, rfl, by decide⟩

theorem witness_OverrunIsSticky_take : ∃ s t : State, step s = .next t ∧ s.fb.overrun = true ∧ s.runs .fbTake :=
  ⟨asks { fresh with fb := overran } .fbM .fbTake, after (asks { fresh with fb := overran } .fbM .fbTake),
    eq_of_isNext (by decide), rfl, ⟨_, rfl, rfl⟩⟩

theorem witness_FrameCounterCountsEveryCompletion_frame :
    ∃ s t : State, step s = .next t ∧ s.runs .fbFrame ∧ s.fb.frameCount = 2 ^ s.params.fcw - 1 :=
  ⟨asks { fresh with fb := oneFrame } .fbFrame .fbFrame, after (asks { fresh with fb := oneFrame } .fbFrame .fbFrame),
    eq_of_isNext (by decide), ⟨_, rfl, rfl⟩, by decide⟩

theorem witness_FrameCounterCountsEveryCompletion_reset : ∃ s t : State, step s = .next t ∧ s.runs .fbReset :=
  ⟨asks { fresh with fb := overran } .fbM .fbReset, after (asks { fresh with fb := overran } .fbM .fbReset),
    eq_of_isNext (by decide), ⟨_, rfl, rfl⟩⟩

theorem witness_FrameCounterCountsEveryCompletion_other :
    ∃ s t : State, step s = .next t ∧ ¬ s.runs .fbFrame ∧ ¬ s.runs .fbReset ∧ s.fb.frameCount = 3 := by
  refine ⟨asks { fresh with fb := oneFrame } .fbM .fbTake, _, rfl, ?_, ?_, rfl⟩ <;>
    (rintro ⟨s', h, -⟩; cases h)

theorem witness_RingOfFramesOverrunsAtTheRthCycle :
    ∃ (p : Params) (f : FrameBuffer) (vss vss' : List (List Sample)), FrameBuffer.Inv p f ∧ f.readSlot = f.writeSlot ∧
      f.overrun = false ∧ (∀ vs ∈ vss ++ vss', ∀ v ∈ vs, v.toNat < 2 ^ p.sw) ∧ vss.length + 1 = p.r ∧ vss'.length = p.r :=
  ⟨small, { oneFrame with readSlot := 1 }, [[1, 2, 3]], [[], [0xFFFF]], by decide, rfl, rfl,
    by simp [small], rfl, rfl⟩

/-! ### Storage and what is below the step -/

theorem witness_CellsChangeOnlyWhereAnOperationStores_rb0 :
    ∃ (s t : State) (a : Nat), s.Inv ∧ step s = .next t ∧ Cells.read t.rb0.storage a ≠ Cells.read s.rb0.storage a :=
  ⟨asks { fresh with rb0 := halfRb } .rbP (.rbPut 3), after (asks { fresh with rb0 := halfRb } .rbP (.rbPut 3)), 0,
    inv_intro, eq_of_isNext (by decide), by decide⟩

theorem witness_CellsChangeOnlyWhereAnOperationStores_tx :
    ∃ (s t : State) (a : Nat), s.Inv ∧ step s = .next t ∧ Cells.read t.st.tx.storage a ≠ Cells.read s.st.tx.storage a :=
  ⟨((waits 1).withTx halfTx).present .stM [], after (((waits 1).withTx halfTx).present .stM []), 0, inv_intro,
    eq_of_isNext (by decide), by decide⟩

theorem witness_CellsChangeOnlyWhereAnOperationStores_rx :
    ∃ (s t : State) (a : Nat), s.Inv ∧ step s = .next t ∧ Cells.read t.st.rx.storage a ≠ Cells.read s.st.rx.storage a :=
  ⟨asks (fresh.withRx rx3) .stRx (.stRxpkt [0x61, 0x62]), after (asks (fresh.withRx rx3) .stRx (.stRxpkt [0x61, 0x62])), 3,
    inv_intro, eq_of_isNext (by decide), by decide⟩

theorem witness_CellsChangeOnlyWhereAnOperationStores_slot :
    ∃ (s t : State) (k a : Nat), s.Inv ∧ step s = .next t ∧
      Cells.read (t.fb.slotAt k).data a ≠ Cells.read (s.fb.slotAt k).data a :=
  ⟨asks { fresh with fb := oneFrame } .fbSample (.fbSample 9), after (asks { fresh with fb := oneFrame } .fbSample (.fbSample 9)),
    1, 1, inv_intro, eq_of_isNext (by decide), by decide⟩

theorem witness_UnwrittenCellsFault_rb0 :
    ∃ s : State, s.env.origin = .rbC ∧ s.rb0.count ≠ 0 ∧ s.rb0.readCursor < s.params.cap ∧
      Cells.read s.rb0.storage s.rb0.readCursor = none :=
  ⟨{ fresh.withOrigin .rbC with rb0 := { halfRb with storage := [(0, 1)] } }, by decide⟩

theorem witness_UnwrittenCellsFault_rx :
    ∃ s : State, s.env.origin = .stM ∧ s.st.putSeq = .idle ∧ s.st.rx.count ≠ 0 ∧ s.st.rx.readCursor < s.params.rxCap ∧
      Cells.read s.st.rx.storage s.st.rx.readCursor = none :=
  ⟨(fresh.withOrigin .stM).withRx { rx3 with readCursor := 3 }, by decide⟩

/-- A waiting frame of one sample whose cell nothing has written. -/
theorem witness_UnwrittenCellsFault_slot :
    ∃ (s : State) (sl : Slot), s.env.origin = .fbM ∧ s.st.putSeq = .idle ∧ s.fb.overrun = false ∧
      s.fb.readSlot ≠ s.fb.writeSlot ∧ s.fb.slots[s.fb.readSlot]? = some sl ∧ sl.length ≤ s.params.maxPos ∧
      ∃ i, i < sl.length ∧ Cells.read sl.data i = none :=
  ⟨{ fresh.withOrigin .fbM with fb := { oneFrame with slots := [{ data := [(0, 1)], length := 2 }, { data := [], length := 0 }] } },
    { data := [(0, 1)], length := 2 }, by decide, by decide, by decide, by decide, by decide, by decide, 1, by decide, rfl⟩

/-- `tx` holds two bytes, and only the second, in cell 0, was written. -/
def gapTx : RingBuffer Byte := { storage := [(0, 0x42)], count := 2, readCursor := 1, writeCursor := 1 }

theorem witness_UnwrittenCellsFault_txdone :
    ∃ s : State, s.st.tx.readCursor < s.params.txCap ∧
      RingBuffer.MeetsUnwritten s.params.txCap (min s.st.tx.count s.params.maxPkt) s.st.tx ∧ s.env.origin = .stTxdone :=
  ⟨(sending.withOrigin .stTxdone).withTx gapTx, by decide, ⟨0, by decide, rfl⟩, rfl⟩

/-- For `ST.SUBMIT`, and for the exhausted phase. -/
theorem witness_UnwrittenCellsFault_submit :
    ∃ s : State, s.st.tx.readCursor < s.params.txCap ∧
      RingBuffer.MeetsUnwritten s.params.txCap (min s.st.tx.count s.params.maxPkt) s.st.tx ∧ s.env.origin = .stM ∧
      s.st.putSeq = .idle ∧ s.st.txIdle = true :=
  ⟨(fresh.withOrigin .stM).withTx gapTx, by decide, ⟨0, by decide, rfl⟩, rfl, rfl, rfl⟩

/-- For the issue and retry phases: `tx` holds one byte, never written, and has room for the byte offered. -/
theorem witness_UnwrittenCellsFault_commit :
    ∃ (s : State) (c : Byte), s.st.txIdle = true ∧ s.st.tx.readCursor < s.params.txCap ∧
      s.st.tx.writeCursor < s.params.txCap ∧ s.st.tx.count < s.params.txCap ∧
      RingBuffer.MeetsUnwritten s.params.txCap (min (s.st.tx.count + 1) s.params.maxPkt)
        { s.st.tx with storage := Cells.write s.st.tx.storage s.st.tx.writeCursor c } ∧
      s.env.origin = .stM ∧ s.st.putSeq = .idle :=
  ⟨(fresh.withOrigin .stM).withTx { gapTx with count := 1, writeCursor := 0 }, 0x44, by decide, by decide, by decide,
    by decide, ⟨0, by decide, by decide⟩, rfl, rfl⟩

/-- For the exhausted phase with `tx` empty: the cursors differ, so the byte stored is not the byte read. -/
theorem witness_UnwrittenCellsFault_commit_empty :
    ∃ (s : State) (c : Byte), s.st.txIdle = true ∧ s.st.tx.readCursor < s.params.txCap ∧
      s.st.tx.writeCursor < s.params.txCap ∧ s.st.tx.count < s.params.txCap ∧
      RingBuffer.MeetsUnwritten s.params.txCap (min (s.st.tx.count + 1) s.params.maxPkt)
        { s.st.tx with storage := Cells.write s.st.tx.storage s.st.tx.writeCursor c } ∧ s.st.tx.count = 0 :=
  ⟨fresh.withTx { gapTx with count := 0, writeCursor := 0 }, 0x44, by decide, by decide, by decide, by decide,
    ⟨0, by decide, by decide⟩, rfl⟩

/-- R239's first example: a packet between the test and the read of a `getChar` that found data joins the tail; the byte
returned is the old head. -/
theorem test_getAcrossPacket_r239 :
    getAcrossPacket 4 [0x61, 0x62] 1 rx3 =
      .ok { getAt := .done (some 0x10), ring :=
        { storage := [(0, 0x10), (1, 0x11), (2, 0x12), (3, 0x61)], count := 3, readCursor := 1, writeCursor := 0 } } := by
  rfl

/-- R239: a packet after a test that found `rx` empty is not seen by that `getChar`. -/
theorem test_getAcrossPacket_r239_empty :
    getAcrossPacket 4 [0x61] 1 (RingBuffer.construct Byte) =
      .ok { getAt := .done none, ring := { storage := [(0, 0x61)], count := 1, readCursor := 0, writeCursor := 1 } } := by
  rfl

/-- Two packets between the actions of a `getChar`, which ends. -/
theorem witness_PutAndGetInterleaveAsWholeOperations_packets :
    ∃ (cap : Nat) (q : RingBuffer Byte) (turns : List (Option (List Byte))) (x : PreemptedGet Byte), RingBuffer.Inv cap q ∧
      PreemptedGet.run cap turns (PreemptedGet.start q) = .ok x ∧ x.getAt = .done (some 0x10) :=
  ⟨4, rx3, [none, some [0x61], none, none, some [0x62, 0x63], none], _, by decide, rfl, rfl⟩

/-- Each clause of the single packet at the ends of its range. -/
theorem witness_PutAndGetInterleaveAsWholeOperations_packet :
    (∃ (cap : Nat) (q : RingBuffer Byte) (n : Nat), RingBuffer.Inv cap q ∧ n = 0) ∧
    (∃ (cap : Nat) (q : RingBuffer Byte) (n : Nat), RingBuffer.Inv cap q ∧ q.count ≠ 0 ∧ n < 4 ∧ n = 3) ∧
    (∃ (cap : Nat) (q : RingBuffer Byte) (n : Nat), RingBuffer.Inv cap q ∧ q.count = 0 ∧ n = 1) ∧
    ∃ (cap : Nat) (q : RingBuffer Byte) (n : Nat), RingBuffer.Inv cap q ∧ q.count ≠ 0 ∧ n = 4 :=
  ⟨⟨4, rx3, 0, by decide⟩, ⟨4, rx3, 3, by decide⟩, ⟨4, { rx3 with count := 0, readCursor := 3 }, 1, by decide⟩,
    ⟨4, rx3, 4, by decide⟩⟩

/-- A queue of two with one element, and an interleaving in which both end. -/
theorem witness_PutAndGetInterleaveAsWholeOperations :
    ∃ (cap : Nat) (v : Elem) (q : RingBuffer Elem) (turns : List Bool) (x : PutGet Elem), RingBuffer.Inv cap q ∧
      PutGet.run cap v turns (PutGet.start q) = .ok x ∧ x.putAt = .done true ∧ x.getAt = .done (some 2) :=
  ⟨2, 9, halfRb, [true, false, true, false, true, false, true, false], _, by decide, rfl, rfl, rfl⟩

theorem witness_PreemptedTakeLeavesASpuriousOverrun :
    ∃ (p : Params) (f f₁ : FrameBuffer), FrameBuffer.Inv p f ∧ f.takeTest = true ∧ (f.writeSlot + 1) % p.r = f.readSlot ∧
      f.frame p = .ok f₁ :=
  ⟨small, oneFrame, overran, by decide, by decide, by decide, rfl⟩

end Sys2Proof.Tests
end

section
/-! PROOFS. The decoder reads an operation back from its own words (30_encoding.md R92 to R96, R103, R107). -/

namespace Sys2Proof

/-! ### The two halves of an argument that holds a byte (R94, R95) -/

@[simp] theorem extractLsb'_low_setWidth (c : Byte) : (c.setWidth 16).extractLsb' 0 8 = c := by
  refine BitVec.eq_of_getLsbD_eq fun i hi => ?_
  simp only [BitVec.getLsbD_extractLsb', BitVec.getLsbD_setWidth, hi, Nat.zero_add, decide_true, Bool.true_and,
    show i < 16 by omega]

@[simp] theorem extractLsb'_high_setWidth (c : Byte) : (c.setWidth 16).extractLsb' 8 8 = 0 := by
  refine BitVec.eq_of_getLsbD_eq fun i _ => ?_
  simp

/-- A packet's length, at most 255, is a byte in the argument of its header. -/
theorem ofNat_eq_setWidth_byte {n : Nat} (hn : n < 256) :
    BitVec.ofNat 16 n = (BitVec.ofNat 8 n).setWidth 16 := by
  refine BitVec.eq_of_toNat_eq ?_
  simp only [BitVec.toNat_ofNat, BitVec.toNat_setWidth]
  omega

/-! ### The formats (R93 to R95) -/

theorem decodeN_headerWord (u o : BitVec 4) (i : Instr) : decodeN (headerWord u o 0#16) i = .ok (.op i) := by
  simp [decodeN]

theorem decodeV_headerWord (u o : BitVec 4) {v : BitVec 16} {bound : Nat} (mk : BitVec 16 → Instr)
    (hv : v.toNat < bound) : decodeV (headerWord u o v) bound mk = .ok (.op (mk v)) := by
  simp [decodeV, hv]

theorem decodeByte_headerWord (u o : BitVec 4) (c : Byte) (mk : Byte → Instr) :
    decodeByte (headerWord u o (c.setWidth 16)) mk = .ok (.op (mk c)) := by
  simp [decodeByte]

theorem decodeL_headerWord (u o : BitVec 4) {n maxPkt : Nat} (hn : n ≤ maxPkt) (hp : maxPkt ≤ 255) :
    decodeL (headerWord u o (BitVec.ofNat 16 n)) maxPkt = .ok (.packet n) := by
  have hlow : (BitVec.ofNat 8 n).toNat = n := by simp only [BitVec.toNat_ofNat]; omega
  simp only [decodeL, ofNat_eq_setWidth_byte (show n < 256 by omega), argHigh_headerWord, argLow_headerWord,
    extractLsb'_high_setWidth, extractLsb'_low_setWidth, hlow, hn, if_true]

/-! ### Headers and whole requests -/

/-- A packet whose header is legal takes its payload words and leaves what follows (R95, R107). -/
theorem decode_packet {p : Params} {h : Word} (pkt : List Byte) (rest : List Word)
    (hh : decodeHeader p h = .ok (.packet pkt.length)) :
    decode p (h :: (pkt.map payloadWord ++ rest)) = some (.op (.stRxpkt pkt), rest) := by
  have hlen : pkt.length = (pkt.map payloadWord).length := (List.length_map _).symm
  have htake : (pkt.map payloadWord ++ rest).take pkt.length = pkt.map payloadWord := by
    rw [hlen, List.take_left]
  have hdrop : (pkt.map payloadWord ++ rest).drop pkt.length = rest := by
    rw [hlen, List.drop_left]
  simp [decode, hh, htake, hdrop]

/-- An operation's own words decode to it, whatever stands behind them. -/
theorem decode_encode {p : Params} {i : Instr} (rest : List Word) (hp : p.maxPkt ≤ 255)
    (hwf : wellFormed p i = true) : decode p (encode i ++ rest) = some (.op i, rest) := by
  cases i with
  | rbPut v =>
    have hv : v.toNat < 2 ^ p.w := of_decide_eq_true hwf
    exact decode_op (by simp [decodeHeader, decodeV_headerWord, hv])
  | fbSample v =>
    have hv : v.toNat < 2 ^ p.sw := of_decide_eq_true hwf
    exact decode_op (by simp [decodeHeader, decodeV_headerWord, hv])
  | stPutchar c => exact decode_op (by simp [decodeHeader, decodeByte_headerWord])
  | stRxpkt pkt =>
    have hn : pkt.length ≤ p.maxPkt := of_decide_eq_true hwf
    exact decode_packet pkt rest (by simp [decodeHeader, decodeL_headerWord, hn, hp])
  | rbGet | rbIsfull | rbIsempty | rbLength | stGetchar | stSubmit | stTxdone | fbTake | fbReset | fbFrame =>
    exact decode_op (by simp [decodeHeader, decodeN_headerWord])

end Sys2Proof
end

section
/-! PROOFS. A turn on which an operation is presented performs it (00_scope.md R7, 30_encoding.md R107). -/

namespace Sys2Proof.Machine

/-- A turn of a free agent whose words begin with an operation runs that operation. -/
theorem turnOf_run {s : State} {ch : Channel} {i : Instr} {rest : List Word}
    (hfree : ch.agent ≠ .mainLoop ∨ s.st.putSeq = .idle)
    (hd : decode s.params (s.env.ports.get ch) = some (.op i, rest)) : turnOf ch s = .run i (s.accept ch rest) := by
  obtain ⟨c, k, ha, hw, -⟩ | ⟨-, ⟨hn, -⟩ | ⟨e, rest', hb, -⟩ | ⟨i', rest', hr, ht⟩⟩ := turnOf_cases ch s
  · rcases hfree with hm | hi
    · exact absurd ha hm
    · rw [hw] at hi; cases hi
  · rw [hd] at hn; cases hn
  · rw [hd] at hb; cases hb
  · rw [hd] at hr; cases hr; exact ht

/-- The whole acceptance: one turn gone, the request's words gone, the answers' channel set. -/
theorem State.accept_of_schedule {s : State} {ch : Channel} {turns : List Channel} (rest : List Word)
    (hs : s.env.schedule = ch :: turns) :
    s.accept ch rest =
      { s with env := { s.env with schedule := turns, ports := s.env.ports.set ch rest, origin := ch } } := by
  simp [State.accept, hs]

/-- Settles O9: the turn is the operation's, and a step on it is its meaning after the acceptance. -/
theorem stepRunsDecodedOperation : Obligations.StepRunsDecodedOperation := by
  intro s ch turns i rest hs hfree hd
  rw [← State.accept_of_schedule rest hs]
  simp only [step, nextTurn_of_schedule hs, turnOf_run hfree hd]

/-- Settles O10, from O9 by `decode_encode`. -/
theorem stepRunsEncodedOperation : Obligations.StepRunsEncodedOperation := by
  intro s ch turns i rest hok hwf hs hfree hports
  obtain ⟨-, -, -, -, ⟨-, hmax⟩, -⟩ := hok
  refine stepRunsDecodedOperation s ch turns i rest hs hfree ?_
  rw [hports]
  exact decode_encode rest hmax hwf

end Sys2Proof.Machine
end

section
/-! PROOFS. A read of an `unwritten` cell faults in every operation that reads cells (00_scope.md R11, log 5). -/

namespace Sys2Proof.Machine

/-- `get` faults when the cell at the read cursor is unwritten. -/
theorem RingBuffer.get_unwritten {α : Type} {cap : Nat} {q : RingBuffer α} (hc : q.count ≠ 0)
    (hr : q.readCursor < cap) (hn : Cells.read q.storage q.readCursor = none) :
    q.get cap = .error .readUnwritten := by
  simp [RingBuffer.get, loadCell, hc, hr, hn]

/-- `tryTake` faults when the waiting frame has a sample that was never written. -/
theorem FrameBuffer.take_unwritten {p : Params} {f : FrameBuffer} {sl : Slot} (ho : f.overrun = false)
    (hne : f.readSlot ≠ f.writeSlot) (hsl : f.slots[f.readSlot]? = some sl) (hl : sl.length ≤ p.maxPos)
    (h : ∃ i, i < sl.length ∧ Cells.read sl.data i = none) : f.take p = .error .readUnwritten := by
  have hload : loadSamples p.maxPos sl = .error .readUnwritten :=
    loadCells_unwritten (by omega) (by simpa using h)
  simp [FrameBuffer.take, ho, hne, hsl, hload]

/-- With nothing in `tx`, `submitIfReady` does nothing, whatever the cursors are (R141). -/
theorem submitIfReady_empty {s : State} (hc : s.st.tx.count = 0) : submitIfReady s = .ok s := by
  cases hi : s.st.txIdle with
  | false => simp [submitIfReady, hi]
  | true =>
    simp only [submitIfReady, hi, hc, Nat.zero_min, RingBuffer.drain]
    rfl

/-- From `Idle`, `commit` faults when its submission meets an unwritten cell once the byte is stored. -/
theorem commit_unwritten {c : Byte} {s : State} (hi : s.st.txIdle = true) (hr : s.st.tx.readCursor < s.params.txCap)
    (hw : s.st.tx.writeCursor < s.params.txCap) (hroom : s.st.tx.count < s.params.txCap)
    (h : RingBuffer.MeetsUnwritten s.params.txCap (min (s.st.tx.count + 1) s.params.maxPkt)
      { s.st.tx with storage := Cells.write s.st.tx.storage s.st.tx.writeCursor c }) :
    commit c s = .error .readUnwritten := by
  simp only [commit, RingBuffer.put_ok c (Nat.ne_of_lt hroom) hw, hi, if_true]
  exact submitIfReady_unwritten hi hr h

/-! ### The operations -/

/-- A request is legal on a channel that takes it with an operand in range (R105). -/
theorem State.legal_of_accepts {s : State} {i : Instr} {ch : Channel} (ho : s.env.origin = ch)
    (ha : ch.accepts i = true) (hw : wellFormed s.params i = true) : s.legal i = true := by
  simp [State.legal, ho, ha, hw]

theorem exec_rbGet_unwritten {s : State} (ho : s.env.origin = .rbC) (hc : s.rb0.count ≠ 0)
    (hr : s.rb0.readCursor < s.params.cap) (hn : Cells.read s.rb0.storage s.rb0.readCursor = none) :
    exec .rbGet s = .fault .readUnwritten := by
  have hl : s.legal .rbGet = true := State.legal_of_accepts ho rfl rfl
  have hm : s.env.origin.agent ≠ .mainLoop := by rw [ho]; decide
  simp only [exec, execRbGet, perform_legal_of_not_main hl hm, RingBuffer.get_unwritten hc hr hn]

theorem exec_stGetchar_unwritten {s : State} (ho : s.env.origin = .stM) (hf : s.st.putSeq = .idle)
    (hc : s.st.rx.count ≠ 0) (hr : s.st.rx.readCursor < s.params.rxCap)
    (hn : Cells.read s.st.rx.storage s.st.rx.readCursor = none) : exec .stGetchar s = .fault .readUnwritten := by
  have hl : s.legal .stGetchar = true := State.legal_of_accepts ho rfl rfl
  simp only [exec, execStGetchar, perform_legal hl hf, RingBuffer.get_unwritten hc hr hn]

theorem exec_fbTake_unwritten {s : State} {sl : Slot} (ho : s.env.origin = .fbM) (hf : s.st.putSeq = .idle)
    (hov : s.fb.overrun = false) (hne : s.fb.readSlot ≠ s.fb.writeSlot)
    (hsl : s.fb.slots[s.fb.readSlot]? = some sl) (hlen : sl.length ≤ s.params.maxPos)
    (h : ∃ i, i < sl.length ∧ Cells.read sl.data i = none) : exec .fbTake s = .fault .readUnwritten := by
  have hl : s.legal .fbTake = true := State.legal_of_accepts ho rfl rfl
  simp only [exec, execFbTake, perform_legal hl hf, FrameBuffer.take_unwritten hov hne hsl hlen h]

section Drain

variable {s : State} (hr : s.st.tx.readCursor < s.params.txCap)
  (h : RingBuffer.MeetsUnwritten s.params.txCap (min s.st.tx.count s.params.maxPkt) s.st.tx)

include hr h

/-- `ST.TXDONE` makes the transport `Idle` first, so its drain does not depend on the state of `txIdle` (R142). -/
theorem exec_stTxdone_unwritten (ho : s.env.origin = .stTxdone) : exec .stTxdone s = .fault .readUnwritten := by
  have hl : s.legal .stTxdone = true := State.legal_of_accepts ho rfl rfl
  have hm : s.env.origin.agent ≠ .mainLoop := by rw [ho]; decide
  have hs : submitIfReady (s.withTxIdle true) = .error .readUnwritten := submitIfReady_unwritten rfl hr h
  simp only [exec, execStTxdone, perform_legal_of_not_main hl hm, hs, settle]

theorem exec_stSubmit_unwritten (ho : s.env.origin = .stM) (hf : s.st.putSeq = .idle) (hi : s.st.txIdle = true) :
    exec .stSubmit s = .fault .readUnwritten := by
  have hl : s.legal .stSubmit = true := State.legal_of_accepts ho rfl rfl
  simp only [exec, execStSubmit, perform_legal hl hf, submitIfReady_unwritten hi hr h]

/-- The exhausted phase faults in its forced submission (R148). -/
theorem putCharExhausted_unwritten (c : Byte) (hi : s.st.txIdle = true) :
    putCharExhausted c s = .fault .readUnwritten := by
  simp only [putCharExhausted, submitIfReady_unwritten hi hr h]

end Drain

section Commit

variable {s : State} {c : Byte} (hroom : s.st.tx.count < s.params.txCap)
  (hcommit : commit c s = .error .readUnwritten)

include hroom hcommit

theorem exec_stPutchar_of_commit_unwritten (ho : s.env.origin = .stM) (hf : s.st.putSeq = .idle) :
    exec (.stPutchar c) s = .fault .readUnwritten := by
  have hl : s.legal (.stPutchar c) = true := State.legal_of_accepts ho rfl rfl
  simp only [exec, execStPutchar, perform_legal hl hf, putCharIssue, hroom, if_true, hcommit, putCharDone]

theorem putCharRetry_of_commit_unwritten (k : Nat) : putCharRetry c k s = .fault .readUnwritten := by
  simp only [putCharRetry, hroom, if_true, hcommit, putCharDone]

/-- With `tx` empty the forced submission takes nothing, and the fault is the commit's (R148). -/
theorem putCharExhausted_of_commit_unwritten (hc : s.st.tx.count = 0) :
    putCharExhausted c s = .fault .readUnwritten := by
  simp only [putCharExhausted, submitIfReady_empty hc, Nat.ne_of_lt hroom, if_false, hcommit, putCharDone]

end Commit

/-- Settles O57, operation by operation: the two `get`s, the slot load, the drain of what `tx` holds, and the drain
after a commit. -/
theorem unwrittenCellsFault : Obligations.UnwrittenCellsFault := by
  refine ⟨fun s => exec_rbGet_unwritten, fun s => exec_stGetchar_unwritten, fun s sl => exec_fbTake_unwritten,
    fun s hr h => ?_, fun s c hi hr hw hroom h => ?_⟩
  · exact ⟨exec_stTxdone_unwritten hr h, exec_stSubmit_unwritten hr h, putCharExhausted_unwritten hr h⟩
  · have hcommit := commit_unwritten hi hr hw hroom h
    exact ⟨exec_stPutchar_of_commit_unwritten hroom hcommit, putCharRetry_of_commit_unwritten hroom hcommit,
      putCharExhausted_of_commit_unwritten hroom hcommit⟩

end Sys2Proof.Machine
end

section
/-! PROOFS. Turns as equations, the three kinds of step, and what a step that runs an operation has done
(00_scope.md R7, 10_state.md R43). -/

namespace Sys2Proof.Machine

/-! ### Turns, one equation per case -/

section Turn

variable {s : State} {ch : Channel}

/-- While a `putChar` waits, a turn of agent `M` is its next phase (R43). -/
theorem turnOf_phase {c : Byte} {k : Nat} (ha : ch.agent = .mainLoop) (hp : s.st.putSeq = .wait c k) :
    turnOf ch s = .phase c k (s.popTurn.withOrigin .stM) := by
  simp only [turnOf, ha, hp]

/-- What a turn of a free agent comes to. -/
theorem turnOf_cases_of_free (hfree : ch.agent ≠ .mainLoop ∨ s.st.putSeq = .idle) :
    decode s.params (s.env.ports.get ch) = none ∧ turnOf ch s = .idle s.popTurn ∨
    (∃ e rest, decode s.params (s.env.ports.get ch) = some (.bad e, rest) ∧ turnOf ch s = .illegal (s.accept ch rest)) ∨
    ∃ i rest, decode s.params (s.env.ports.get ch) = some (.op i, rest) ∧ turnOf ch s = .run i (s.accept ch rest) := by
  obtain ⟨c, k, ha, hw, -⟩ | ⟨-, h⟩ := turnOf_cases ch s
  · rcases hfree with hm | hi
    · exact absurd ha hm
    · rw [hw] at hi; cases hi
  · exact h

theorem turnOf_idle (hfree : ch.agent ≠ .mainLoop ∨ s.st.putSeq = .idle)
    (hd : decode s.params (s.env.ports.get ch) = none) : turnOf ch s = .idle s.popTurn := by
  obtain ⟨-, h⟩ | ⟨e, rest, h, -⟩ | ⟨i, rest, h, -⟩ := turnOf_cases_of_free hfree
  · exact h
  · rw [hd] at h; cases h
  · rw [hd] at h; cases h

theorem turnOf_illegal {e : DecodeError} {rest : List Word} (hfree : ch.agent ≠ .mainLoop ∨ s.st.putSeq = .idle)
    (hd : decode s.params (s.env.ports.get ch) = some (.bad e, rest)) : turnOf ch s = .illegal (s.accept ch rest) := by
  obtain ⟨h, -⟩ | ⟨e', rest', h, ht⟩ | ⟨i, rest', h, -⟩ := turnOf_cases_of_free hfree <;> rw [hd] at h <;> cases h
  exact ht

/-- An operation accepted from a free agent meets no pending `putChar` of its own (R43). -/
theorem not_pending_of_free {rest : List Word} (hfree : ch.agent ≠ .mainLoop ∨ s.st.putSeq = .idle) :
    ¬ ((s.accept ch rest).env.origin.agent = .mainLoop ∧ (s.accept ch rest).st.putSeq.pending = true) := by
  rintro ⟨ha, hp⟩
  rcases hfree with hm | hi
  · exact hm ha
  · rw [State.accept_st, hi] at hp
    cases hp

/-- An operation accepted from a free agent that gives a next state is illegal and answered so, or has had its effect. -/
theorem exec_accept_cases {t : State} {i : Instr} {rest : List Word} (hfree : ch.agent ≠ .mainLoop ∨ s.st.putSeq = .idle)
    (h : exec i (s.accept ch rest) = .next t) :
    (s.accept ch rest).legal i = false ∧ t = (s.accept ch rest).answerIllegal ∨
    (s.accept ch rest).legal i = true ∧ Effect (s.accept ch rest) t i := by
  cases hl : (s.accept ch rest).legal i with
  | false =>
    rw [exec_illegal hl] at h
    cases h
    exact .inl ⟨rfl, rfl⟩
  | true => exact .inr ⟨rfl, effect_of_exec hl (not_pending_of_free hfree) h⟩

end Turn

/-! ### Which operation a step runs -/

section Runs

variable {s t : State} {i j : Instr}

theorem State.runs_iff_of_run {s' : State} (hn : nextTurn s = .run j s') : s.runs i ↔ i = j ∧ s'.legal j = true := by
  constructor
  · rintro ⟨s'', h, hl⟩
    rw [hn] at h
    cases h
    exact ⟨rfl, hl⟩
  · rintro ⟨rfl, hl⟩
    exact ⟨s', hn, hl⟩

theorem State.not_runs_of_ne_run (hn : ∀ j s', nextTurn s ≠ .run j s') : ¬ s.runs i :=
  fun ⟨s', h, _⟩ => hn i s' h

/-- The three kinds of step that give a next state: one that runs no operation and leaves the block as it is, a phase of
`M`'s `putChar`, and an operation's effect after its acceptance. -/
theorem step_kinds (h : step s = .next t) :
    ((∀ i, ¬ s.runs i) ∧ ∃ e, t = { s with env := e }) ∨
    (∃ ch turns c k, s.env.schedule = ch :: turns ∧ ch.agent = .mainLoop ∧ s.st.putSeq = .wait c k ∧
      nextTurn s = .phase c k (s.popTurn.withOrigin .stM) ∧ putCharPhase c k (s.popTurn.withOrigin .stM) = .next t) ∨
    (∃ ch turns i rest, s.env.schedule = ch :: turns ∧ (ch.agent ≠ .mainLoop ∨ s.st.putSeq = .idle) ∧
      nextTurn s = .run i (s.accept ch rest) ∧ (s.accept ch rest).legal i = true ∧ Effect (s.accept ch rest) t i) := by
  obtain ⟨-, hn, rfl⟩ | ⟨ch, turns, hs, ⟨c, k, ha, hp, hn, ht⟩ | ⟨hfree, ⟨hn, rfl⟩ | ⟨rest, hn, rfl⟩ |
    ⟨i, rest, -, hn, ⟨hl, rfl⟩ | ⟨hl, he⟩⟩⟩⟩ := step_cases h
  · exact .inl ⟨fun _ => State.not_runs_of_ne_run (by simp [hn]), _, rfl⟩
  · exact .inr (.inl ⟨ch, turns, c, k, hs, ha, hp, hn, ht⟩)
  · exact .inl ⟨fun _ => State.not_runs_of_ne_run (by simp [hn]), _, rfl⟩
  · exact .inl ⟨fun _ => State.not_runs_of_ne_run (by simp [hn]), _, rfl⟩
  · exact .inl ⟨fun _ hr => by simp [((State.runs_iff_of_run hn).mp hr).2] at hl, _, rfl⟩
  · exact .inr (.inr ⟨ch, turns, i, rest, hs, hfree, hn, hl, he⟩)

/-- A step that runs an operation has had the operation's effect after its acceptance. -/
theorem effect_of_runs (h : step s = .next t) (hr : s.runs i) :
    ∃ ch rest, (s.accept ch rest).legal i = true ∧ Effect (s.accept ch rest) t i := by
  obtain ⟨hno, -⟩ | ⟨_, _, _, _, -, -, -, hn, -⟩ | ⟨ch, _, j, rest, -, -, hn, hl, he⟩ := step_kinds h
  · exact absurd hr (hno i)
  · exact absurd hr (State.not_runs_of_ne_run (by simp [hn]))
  · obtain ⟨rfl, -⟩ := (State.runs_iff_of_run hn).mp hr
    exact ⟨ch, rest, hl, he⟩

end Runs

/-- A legal operation's operand is in range and its channel takes it (R105). -/
theorem State.legal_iff {s : State} {i : Instr} :
    s.legal i = true ↔ s.env.origin.accepts i = true ∧ wellFormed s.params i = true := by
  simp [State.legal]

/-- A legal operation of agent `M` while its `putChar` waits is refused (log 7). -/
theorem perform_pending {i : Instr} {s : State} (hl : s.legal i = true) (ha : s.env.origin.agent = .mainLoop)
    (hp : s.st.putSeq.pending = true) (effect : Host.Outcome State Fault Refusal) :
    perform i s effect = .refused .putCharPending := by
  simp [perform, hl, ha, hp]

/-- A legal operation of a free agent has its effect. -/
theorem perform_of_free {i : Instr} {s : State} (hl : s.legal i = true)
    (hfree : ¬ (s.env.origin.agent = .mainLoop ∧ s.st.putSeq.pending = true))
    (effect : Host.Outcome State Fault Refusal) : perform i s effect = effect := by
  simp [perform, hl, hfree]

end Sys2Proof.Machine
end

section
/-! PROOFS. What each step leaves unchanged: the parameters, the words of other channels, and the units of other agents
(10_state.md R20, R22, R51; 60_exceptions.md R214). -/

namespace Sys2Proof.Machine

/-! ### The transmit side writes nothing else -/

/-- From `s` to `t` nothing has changed but the transmit side (`tx`, `txIdle`, the sequencer, the log) and the answers. -/
structure TransmitOnly (s t : State) : Prop where
  params : t.params = s.params
  rb0 : t.rb0 = s.rb0
  rx : t.st.rx = s.st.rx
  rxIdle : t.st.rxIdle = s.st.rxIdle
  fb : t.fb = s.fb
  ports : t.env.ports = s.env.ports

section TransmitOnly

variable {s t u : State} {c : Byte}

theorem TransmitOnly.refl (s : State) : TransmitOnly s s := ⟨rfl, rfl, rfl, rfl, rfl, rfl⟩

theorem TransmitOnly.trans (h : TransmitOnly s t) (h' : TransmitOnly t u) : TransmitOnly s u :=
  ⟨h'.params.trans h.params, h'.rb0.trans h.rb0, h'.rx.trans h.rx, h'.rxIdle.trans h.rxIdle, h'.fb.trans h.fb,
    h'.ports.trans h.ports⟩

theorem TransmitOnly.withPutSeq (h : TransmitOnly s t) (x : PutSeq) : TransmitOnly s (t.withPutSeq x) :=
  ⟨h.params, h.rb0, h.rx, h.rxIdle, h.fb, h.ports⟩

theorem TransmitOnly.withTxIdle (h : TransmitOnly s t) (b : Bool) : TransmitOnly s (t.withTxIdle b) :=
  ⟨h.params, h.rb0, h.rx, h.rxIdle, h.fb, h.ports⟩

theorem TransmitOnly.respond (h : TransmitOnly s t) (r : Result) : TransmitOnly s (t.respond r) :=
  ⟨h.params, h.rb0, h.rx, h.rxIdle, h.fb, h.ports⟩

theorem submitIfReady_transmitOnly (h : submitIfReady s = .ok t) : TransmitOnly s t := by
  obtain ⟨hp, hrb, hrx, hri, -, hf, he⟩ := submitIfReady_frame h
  exact ⟨hp, hrb, hrx, hri, hf, by rw [he]⟩

theorem commit_transmitOnly (h : commit c s = .ok t) : TransmitOnly s t := by
  obtain ⟨hp, hrb, hrx, hri, -, hf, he⟩ := commit_frame h
  exact ⟨hp, hrb, hrx, hri, hf, by rw [he]⟩

theorem putCharPhase_transmitOnly {k : Nat} (h : putCharPhase c k s = .next t) : TransmitOnly s t := by
  obtain ⟨s', s'', hsub, hcom, -, -, rfl⟩ | ⟨j, -, -, rfl⟩ | ⟨s', -, hsub, -, rfl⟩ := putCharPhase_cases h
  · have hs' : TransmitOnly s s' := by
      rcases hsub with rfl | ⟨-, hsub⟩
      · exact TransmitOnly.refl _
      · exact submitIfReady_transmitOnly hsub
    exact ((hs'.trans (commit_transmitOnly hcom)).withPutSeq _).respond _
  · exact (TransmitOnly.refl s).withPutSeq _
  · exact ((submitIfReady_transmitOnly hsub).withPutSeq _).respond _

end TransmitOnly

/-! ### The footprint of an operation -/

/-- What an operation accepted on channel `ch` leaves as it was (R20, R51). -/
structure Footprint (ch : Channel) (s t : State) : Prop where
  params : t.params = s.params
  ports : t.env.ports = s.env.ports
  rb0 : ch ≠ .rbP → ch ≠ .rbC → t.rb0 = s.rb0
  rx : ch ≠ .stRx → ch ≠ .stM → t.st.rx = s.st.rx
  transmit : ch ≠ .stTxdone → ch ≠ .stM → t.st.tx = s.st.tx ∧ t.st.txIdle = s.st.txIdle ∧ t.log = s.log
  putSeq : ch ≠ .stM → t.st.putSeq = s.st.putSeq
  fb : ch ≠ .fbM → ch ≠ .fbSample → ch ≠ .fbFrame → t.fb = s.fb
  rxIdle : t.st.rxIdle = s.st.rxIdle

section Footprint

variable {s t : State} {ch : Channel}

theorem Footprint.respond (h : Footprint ch s t) (r : Result) : Footprint ch s (t.respond r) :=
  ⟨h.params, h.ports, h.rb0, h.rx, h.transmit, h.putSeq, h.fb, h.rxIdle⟩

theorem Footprint.of_withRb0 (hch : ch = .rbP ∨ ch = .rbC) (q : RingBuffer Elem) : Footprint ch s (s.withRb0 q) :=
  ⟨rfl, rfl, fun hp hc => absurd hch (by simp [hp, hc]), fun _ _ => rfl, fun _ _ => ⟨rfl, rfl, rfl⟩, fun _ => rfl,
    fun _ _ _ => rfl, rfl⟩

theorem Footprint.of_withRx (hch : ch = .stRx ∨ ch = .stM) (q : RingBuffer Byte) : Footprint ch s (s.withRx q) :=
  ⟨rfl, rfl, fun _ _ => rfl, fun hr hm => absurd hch (by simp [hr, hm]), fun _ _ => ⟨rfl, rfl, rfl⟩, fun _ => rfl,
    fun _ _ _ => rfl, rfl⟩

theorem Footprint.of_withFb (hch : ch = .fbM ∨ ch = .fbSample ∨ ch = .fbFrame) (f : FrameBuffer) :
    Footprint ch s (s.withFb f) :=
  ⟨rfl, rfl, fun _ _ => rfl, fun _ _ => rfl, fun _ _ => ⟨rfl, rfl, rfl⟩, fun _ => rfl,
    fun hm hs hf => absurd hch (by simp [hm, hs, hf]), rfl⟩

/-- A change of the transmit side is in the footprint of `st_m`, and of `st_txdone` where it leaves the sequencer. -/
theorem Footprint.of_transmitOnly (h : TransmitOnly s t)
    (hch : ch = .stM ∨ ch = .stTxdone ∧ t.st.putSeq = s.st.putSeq) : Footprint ch s t := by
  refine ⟨h.params, h.ports, fun _ _ => h.rb0, fun _ _ => h.rx, fun ht hm => absurd hch (by simp [ht, hm]), fun hm => ?_,
    fun _ _ _ => h.fb, h.rxIdle⟩
  obtain hm' | ⟨-, hseq⟩ := hch
  · exact absurd hm' hm
  · exact hseq

/-- An operation changes only what belongs to a channel that takes it. -/
theorem effect_footprint {i : Instr} (ha : s.env.origin.accepts i = true) (h : Effect s t i) :
    Footprint s.env.origin s t := by
  cases i with
  | rbPut v =>
    obtain ⟨q, b, -, rfl⟩ := h
    exact (Footprint.of_withRb0 (.inl (eq_of_beq ha)) q).respond _
  | rbGet =>
    obtain ⟨q, a, -, rfl⟩ := h
    exact (Footprint.of_withRb0 (.inr (eq_of_beq ha)) q).respond _
  | rbIsfull | rbIsempty | rbLength =>
    cases h
    exact (Footprint.of_withRb0 (by simpa [Channel.accepts] using ha) s.rb0).respond _
  | stPutchar c =>
    refine Footprint.of_transmitOnly ?_ (.inl (eq_of_beq ha))
    obtain ⟨-, s', hcom, rfl⟩ | ⟨-, rfl⟩ := h
    · exact ((commit_transmitOnly hcom).withPutSeq _).respond _
    · exact (TransmitOnly.refl s).withPutSeq _
  | stGetchar =>
    obtain ⟨q, a, -, rfl⟩ := h
    exact (Footprint.of_withRx (.inr (eq_of_beq ha)) q).respond _
  | stSubmit =>
    obtain ⟨s', hsub, rfl⟩ := h
    exact (Footprint.of_transmitOnly (submitIfReady_transmitOnly hsub) (.inl (eq_of_beq ha))).respond _
  | stTxdone =>
    obtain ⟨-, -, -, -, hseq, -, -⟩ := submitIfReady_frame h
    exact Footprint.of_transmitOnly (((TransmitOnly.refl s).withTxIdle true).trans (submitIfReady_transmitOnly h))
      (.inr ⟨eq_of_beq ha, hseq⟩)
  | stRxpkt pkt =>
    obtain ⟨q, -, rfl⟩ := h
    exact Footprint.of_withRx (.inl (eq_of_beq ha)) q
  | fbTake =>
    obtain ⟨f, r, -, rfl⟩ := h
    exact (Footprint.of_withFb (.inl (eq_of_beq ha)) f).respond _
  | fbReset =>
    cases h
    exact (Footprint.of_withFb (.inl (eq_of_beq ha)) _).respond _
  | fbSample v =>
    obtain ⟨f, -, rfl⟩ := h
    exact Footprint.of_withFb (.inr (.inl (eq_of_beq ha))) f
  | fbFrame =>
    obtain ⟨f, -, rfl⟩ := h
    exact Footprint.of_withFb (.inr (.inr (eq_of_beq ha))) f

/-- The footprint of an operation after its acceptance. -/
theorem effect_footprint_of_accept {i : Instr} {rest : List Word} (hl : (s.accept ch rest).legal i = true)
    (h : Effect (s.accept ch rest) t i) : Footprint ch (s.accept ch rest) t :=
  effect_footprint (State.legal_iff.mp hl).1 h

end Footprint

/-! ### O20, O13, O21 -/

/-- Settles O20. -/
theorem noStepWritesAParameter : Obligations.NoStepWritesAParameter := by
  intro s t h
  obtain ⟨-, e, rfl⟩ | ⟨ch, turns, c, k, -, -, -, -, ht⟩ | ⟨ch, turns, i, rest, -, -, -, hl, he⟩ := step_kinds h
  · rfl
  · exact (putCharPhase_transmitOnly ht).params
  · exact (effect_footprint_of_accept hl he).params

/-- A step takes words only from the channel whose turn it is, and only when the channel's agent is free (R100, R107). -/
theorem step_ports {s t : State} (h : step s = .next t) :
    t.env.ports = s.env.ports ∨
    ∃ ch turns rest, s.env.schedule = ch :: turns ∧ (ch.agent ≠ .mainLoop ∨ s.st.putSeq = .idle) ∧
      t.env.ports = s.env.ports.set ch rest := by
  obtain ⟨-, -, rfl⟩ | ⟨ch, turns, hs, ⟨c, k, -, -, -, ht⟩ | ⟨hfree, ⟨-, rfl⟩ | ⟨rest, -, rfl⟩ |
    ⟨i, rest, -, -, ⟨-, rfl⟩ | ⟨hl, he⟩⟩⟩⟩ := step_cases h
  · exact .inl rfl
  · exact .inl (putCharPhase_transmitOnly ht).ports
  · exact .inl rfl
  · exact .inr ⟨ch, turns, rest, hs, hfree, rfl⟩
  · exact .inr ⟨ch, turns, rest, hs, hfree, rfl⟩
  · exact .inr ⟨ch, turns, rest, hs, hfree, (effect_footprint_of_accept hl he).ports⟩

/-- A step of another agent leaves the sequencer (R43). -/
theorem step_putSeq_of_not_main {s t : State} {ch : Channel} {turns : List Channel} (hs : s.env.schedule = ch :: turns)
    (ha : ch.agent ≠ .mainLoop) (h : step s = .next t) : t.st.putSeq = s.st.putSeq := by
  obtain ⟨-, e, rfl⟩ | ⟨ch', _, c, k, hs', ha', -⟩ | ⟨ch', _, i, rest, hs', -, -, hl, he⟩ := step_kinds h
  · rfl
  · rw [hs] at hs'
    cases hs'
    exact absurd ha' ha
  · rw [hs] at hs'
    cases hs'
    exact (effect_footprint_of_accept hl he).putSeq (by rintro rfl; exact ha rfl)

/-- Settles O13: agent `M` is not free, so the words a step takes stand on another agent's channel. -/
theorem mainLoopWordsWaitForPutChar : Obligations.MainLoopWordsWaitForPutChar := by
  intro s t c k hp h
  have hkeep : ∀ ch', ch'.agent = .mainLoop → t.env.ports.get ch' = s.env.ports.get ch' := by
    intro ch' ha'
    obtain e | ⟨ch, turns, rest, -, ha | hi, e⟩ := step_ports h
    · rw [e]
    · rw [e]
      exact Ports.get_set_of_ne _ _ (by rintro rfl; exact ha ha')
    · rw [hp] at hi
      cases hi
  exact ⟨hkeep .stM rfl, hkeep .fbM rfl,
    fun ch turns hs ha => (step_putSeq_of_not_main hs ha h).trans hp⟩

theorem Channel.agent_eq_mainLoop {ch : Channel} : ch.agent = .mainLoop ↔ ch = .stM ∨ ch = .fbM := by
  cases ch <;> simp [Channel.agent]

/-- The transport is its five parts. -/
theorem SerialTransport.eq_of_parts {x y : SerialTransport} (hrx : x.rx = y.rx) (htx : x.tx = y.tx)
    (hi : x.txIdle = y.txIdle) (hr : x.rxIdle = y.rxIdle) (hp : x.putSeq = y.putSeq) : x = y := by
  cases x
  cases y
  simp_all

/-- Settles O21: a phase writes the transmit side alone, an operation stays in its channel's footprint, and every other step
keeps the block. -/
theorem unitsShareNoState : Obligations.UnitsShareNoState := by
  intro s t ch turns hs h
  obtain ⟨-, e, rfl⟩ | ⟨ch', _, c, k, hs', ha, hp, -, ht⟩ | ⟨ch', _, i, rest, hs', hfree, -, hl, he⟩ := step_kinds h
  · exact ⟨fun _ => rfl, fun _ => rfl, fun _ => ⟨rfl, rfl, rfl⟩, fun _ => rfl, fun _ => rfl, fun _ _ => ⟨rfl, rfl⟩,
      fun _ _ => ⟨rfl, rfl, rfl⟩, rfl⟩
  · rw [hs] at hs'
    cases hs'
    have hm := Channel.agent_eq_mainLoop.mp ha
    have hw := putCharPhase_transmitOnly ht
    have hpend : s.st.putSeq ≠ .idle := by simp [hp]
    exact ⟨fun _ => hw.rb0, fun _ => hw.rx, by rintro ⟨-, hst, hfb⟩; simp [hst, hfb] at hm,
      by rintro ⟨hst, hfb⟩; simp [hst, hfb] at hm, fun _ => hw.fb, fun hi => absurd hi hpend,
      fun _ _ => ⟨hw.rb0, hw.rx, hw.fb⟩, hw.rxIdle⟩
  · rw [hs] at hs'
    cases hs'
    have hf := effect_footprint_of_accept hl he
    refine ⟨fun ⟨hp, hc⟩ => hf.rb0 hp hc, fun ⟨hr, hm⟩ => hf.rx hr hm, fun ⟨ht, hm, _⟩ => hf.transmit ht hm,
      fun ⟨hm, _⟩ => hf.putSeq hm, fun ⟨hm, hsa, hfr⟩ => hf.fb hm hsa hfr, fun _ hch => ?_, fun hp hch => ?_, hf.rxIdle⟩
    · subst hch
      obtain ⟨htx, hti, hlog⟩ := hf.transmit (by decide) (by decide)
      exact ⟨SerialTransport.eq_of_parts (hf.rx (by decide) (by decide)) htx hti hf.rxIdle (hf.putSeq (by decide)), hlog⟩
    · exact absurd hfree (by simp [Channel.agent_eq_mainLoop.mpr hch, hp])

end Sys2Proof.Machine
end

section
/-! PROOFS. Every step keeps the invariant and no step stops the block: O15, O16, O17 (10_state.md R27, R34; 60_exceptions.md
R200). -/

namespace Sys2Proof.Machine

/-! ### The invariant under the updates of the state -/

section Updates

variable {s : State}

theorem State.Inv.withRb0 {q : RingBuffer Elem} (hs : s.Inv) (hq : RingBuffer.Inv s.params.cap q)
    (hb : Cells.Below s.params.w q.storage) : (s.withRb0 q).Inv := by
  obtain ⟨hp, -, hrest⟩ := hs
  exact ⟨hp, ⟨hq, hb⟩, hrest⟩

theorem State.Inv.withRx {q : RingBuffer Byte} (hs : s.Inv) (hq : RingBuffer.Inv s.params.rxCap q) :
    (s.withRx q).Inv := by
  obtain ⟨hp, hrb, -, hrest⟩ := hs
  exact ⟨hp, hrb, hq, hrest⟩

theorem State.Inv.withPutSeq {x : PutSeq} (hs : s.Inv) (hx : x.retriesLeft ≤ s.params.putRetries) :
    (s.withPutSeq x).Inv := by
  obtain ⟨hp, hrb, hrx, htx, hidle, -, hrest⟩ := hs
  exact ⟨hp, hrb, hrx, htx, hidle, hx, hrest⟩

theorem State.Inv.withFb {f : FrameBuffer} (hs : s.Inv) (hf : FrameBuffer.Inv s.params f) : (s.withFb f).Inv := by
  obtain ⟨hp, hrb, hrx, htx, hidle, hk, -, hlog⟩ := hs
  exact ⟨hp, hrb, hrx, htx, hidle, hk, hf, hlog⟩

end Updates

/-- The invariant without the clause that `tx` is empty when `txIdle`: `ST.TXDONE` and a `commit` give up that clause of R34
until they have submitted. -/
structure State.InvButIdle (s : State) : Prop where
  params : s.params.Ok
  rb0 : RingBuffer.Inv s.params.cap s.rb0 ∧ Cells.Below s.params.w s.rb0.storage
  rx : RingBuffer.Inv s.params.rxCap s.st.rx
  tx : RingBuffer.Inv s.params.txCap s.st.tx
  retries : s.st.putSeq.retriesLeft ≤ s.params.putRetries
  fb : FrameBuffer.Inv s.params s.fb
  log : ∀ buf ∈ s.log.hwtx, 1 ≤ buf.length ∧ buf.length ≤ s.params.maxPkt

section Transmit

variable {s t : State}

theorem State.inv_iff : s.Inv ↔ s.InvButIdle ∧ (s.st.txIdle = true → s.st.tx.count = 0) := by
  constructor
  · rintro ⟨hp, hrb, hrx, htx, hidle, hk, hf, hlog⟩
    exact ⟨⟨hp, hrb, hrx, htx, hk, hf, hlog⟩, hidle⟩
  · rintro ⟨⟨hp, hrb, hrx, htx, hk, hf, hlog⟩, hidle⟩
    exact ⟨hp, hrb, hrx, htx, hidle, hk, hf, hlog⟩

theorem State.Inv.butIdle (hs : s.Inv) : s.InvButIdle := (State.inv_iff.mp hs).1

theorem State.InvButIdle.withTxIdle (hs : s.InvButIdle) (b : Bool) : (s.withTxIdle b).InvButIdle :=
  ⟨hs.params, hs.rb0, hs.rx, hs.tx, hs.retries, hs.fb, hs.log⟩

theorem State.InvButIdle.withTx {q : RingBuffer Byte} (hs : s.InvButIdle) (hq : RingBuffer.Inv s.params.txCap q) :
    (s.withTx q).InvButIdle :=
  ⟨hs.params, hs.rb0, hs.rx, hq, hs.retries, hs.fb, hs.log⟩

theorem State.InvButIdle.emitHwtx {buf : List Byte} (hs : s.InvButIdle)
    (hb : 1 ≤ buf.length ∧ buf.length ≤ s.params.maxPkt) : (s.emitHwtx buf).InvButIdle := by
  refine ⟨hs.params, hs.rb0, hs.rx, hs.tx, hs.retries, hs.fb, fun b hm => ?_⟩
  rcases List.mem_append.mp hm with hm | hm
  · exact hs.log b hm
  · rw [List.mem_singleton.mp hm]
    exact hb

/-- `MAXPKT` is at least 1 (R5). -/
theorem State.InvButIdle.one_le_maxPkt (hs : s.InvButIdle) : 1 ≤ s.params.maxPkt := by
  obtain ⟨-, -, -, -, ⟨h, -⟩, -⟩ := hs.params
  exact h

/-- `submitIfReady` restores the clause of R34: it ends with `tx` empty or with the transport `Sending`. -/
theorem submitIfReady_inv (hs : s.InvButIdle) (h : submitIfReady s = .ok t) : t.Inv := by
  have hmax := hs.one_le_maxPkt
  obtain ⟨t', e, hcase⟩ := submitIfReady_spec s hs.tx hmax
  rw [e] at h
  cases h
  refine State.inv_iff.mpr ?_
  obtain ⟨hb, rfl⟩ | ⟨-, hc, rfl⟩ | ⟨-, hc, q, buf, hq, -, hl, -, rfl⟩ := hcase
  · exact ⟨hs, fun hi => by simp [hb] at hi⟩
  · exact ⟨hs, fun _ => hc⟩
  · exact ⟨((hs.withTx hq).emitHwtx (by rw [hl]; simp only [State.withTx_params]; omega)).withTxIdle false,
      fun hi => by simp at hi⟩

/-- `commit` ends `Sending`, or with what its submission leaves. -/
theorem commit_inv {c : Byte} (hs : s.InvButIdle) (h : commit c s = .ok t) : t.Inv := by
  unfold commit at h
  split at h
  · cases h
  · next q b hput =>
    have hq := hs.withTx (RingBuffer.put_inv hs.tx hput)
    split at h
    · exact submitIfReady_inv hq h
    · next hi =>
      cases h
      exact State.inv_iff.mpr ⟨hq, fun hi' => absurd hi' hi⟩

/-- Every phase of a `putChar` keeps the invariant. -/
theorem putCharPhase_inv {c : Byte} {k : Nat} (hs : s.Inv) (hk : k ≤ s.params.putRetries)
    (h : putCharPhase c k s = .next t) : t.Inv := by
  have hsb := hs.butIdle
  obtain ⟨s', s'', hsub, hcom, -, -, rfl⟩ | ⟨j, rfl, -, rfl⟩ | ⟨s', -, hsub, -, rfl⟩ := putCharPhase_cases h
  · have hs' : s'.Inv := by
      rcases hsub with rfl | ⟨-, hsub⟩
      · exact hs
      · exact submitIfReady_inv hsb hsub
    exact (commit_inv hs'.butIdle hcom).withPutSeq (Nat.zero_le _)
  · exact hs.withPutSeq (x := .wait c j) (Nat.le_of_succ_le hk)
  · exact (submitIfReady_inv hsb hsub).withPutSeq (Nat.zero_le _)

end Transmit

/-! ### O15: every operation and every step keeps the invariant -/

/-- The effect of every legal operation keeps the invariant. -/
theorem effect_inv {s t : State} {i : Instr} (hs : s.Inv) (hl : s.legal i = true) (h : Effect s t i) : t.Inv := by
  obtain ⟨-, hwf⟩ := State.legal_iff.mp hl
  have hsb := hs.butIdle
  obtain ⟨hrb, hbelow⟩ := hsb.rb0
  cases i with
  | rbPut v =>
    obtain ⟨q, b, hput, rfl⟩ := h
    exact hs.withRb0 (RingBuffer.put_inv hrb hput) (RingBuffer.put_below hbelow (of_decide_eq_true hwf) hput)
  | rbGet =>
    obtain ⟨q, a, hget, rfl⟩ := h
    exact hs.withRb0 (RingBuffer.get_inv hrb hget) (RingBuffer.get_storage hget ▸ hbelow)
  | rbIsfull | rbIsempty | rbLength =>
    cases h
    exact hs
  | stPutchar c =>
    obtain ⟨-, s', hcom, rfl⟩ | ⟨-, rfl⟩ := h
    · exact (commit_inv hsb hcom).withPutSeq (Nat.zero_le _)
    · exact hs.withPutSeq (x := .wait c _) (Nat.le_refl _)
  | stGetchar =>
    obtain ⟨q, a, hget, rfl⟩ := h
    exact hs.withRx (RingBuffer.get_inv hsb.rx hget)
  | stSubmit =>
    obtain ⟨s', hsub, rfl⟩ := h
    have hs' : s'.Inv := submitIfReady_inv hsb hsub
    exact hs'
  | stTxdone => exact submitIfReady_inv (hsb.withTxIdle true) h
  | stRxpkt pkt =>
    obtain ⟨q, hall, rfl⟩ := h
    obtain ⟨q', hall', hq, -⟩ := RingBuffer.putAll_spec pkt hsb.rx
    rw [hall] at hall'
    cases hall'
    exact hs.withRx hq
  | fbTake =>
    obtain ⟨f, r, htake, rfl⟩ := h
    exact hs.withFb (FrameBuffer.take_inv hsb.fb htake)
  | fbReset =>
    cases h
    obtain ⟨hlen, hslots, hw, -⟩ := hsb.fb
    exact hs.withFb (FrameBuffer.reset_inv (Nat.zero_lt_of_lt hw) hlen hslots)
  | fbSample v =>
    obtain ⟨f, hsample, rfl⟩ := h
    exact hs.withFb (FrameBuffer.sample_inv hsb.fb (of_decide_eq_true hwf) hsample)
  | fbFrame =>
    obtain ⟨f, hframe, rfl⟩ := h
    exact hs.withFb (FrameBuffer.frame_inv hsb.fb hframe)

/-- Settles O15, by the three kinds of step: the environment's side is not in the invariant, and each phase and each
operation keeps it. -/
theorem stepKeepsInvariant : Obligations.StepKeepsInvariant := by
  intro s t hs h
  obtain ⟨-, e, rfl⟩ | ⟨ch, turns, c, k, -, -, hp, -, ht⟩ | ⟨ch, turns, i, rest, -, -, -, hl, he⟩ := step_kinds h
  · exact hs
  · have hk := hs.butIdle.retries
    rw [hp] at hk
    exact putCharPhase_inv (s := s.popTurn.withOrigin .stM) hs hk ht
  · exact effect_inv (s := s.accept ch rest) hs hl he

/-! ### O16: construction -/

/-- Settles O16: empty queues, cleared slots and zero counters are in every range R5 allows. -/
theorem constructionHasInvariant : Obligations.ConstructionHasInvariant := by
  have hconstruct : ∀ p : Params, p.Ok → (State.construct p).Inv := by
    intro p hp
    obtain ⟨-, hcap, hrx, htx, -, hr, -⟩ := id hp
    exact ⟨hp, ⟨RingBuffer.construct_inv hcap, by simp [State.construct, RingBuffer.construct]⟩,
      RingBuffer.construct_inv hrx, RingBuffer.construct_inv htx, fun _ => rfl, Nat.zero_le _,
      FrameBuffer.construct_inv hr, by simp [State.construct]⟩
  exact ⟨hconstruct, hconstruct Params.default (by decide)⟩

/-! ### O17: no operation stops the block -/

section Total

variable {s : State}

/-- An operation that is not refused gives a next state if its effect does. -/
theorem perform_total {i : Instr} {effect : Host.Outcome State Fault Refusal}
    (hfree : ¬ (s.env.origin.agent = .mainLoop ∧ s.st.putSeq.pending = true)) (he : ∃ t, effect = .next t) :
    ∃ t, perform i s effect = .next t := by
  obtain ⟨-, h⟩ | ⟨-, ha, hp, -⟩ | ⟨-, -, h⟩ := perform_cases i s effect
  · exact ⟨_, h⟩
  · exact absurd ⟨ha, hp⟩ hfree
  · rwa [h]

theorem submitIfReady_total (hs : s.InvButIdle) : ∃ t, submitIfReady s = .ok t := by
  obtain ⟨t, h, -⟩ := submitIfReady_spec s hs.tx hs.one_le_maxPkt
  exact ⟨t, h⟩

/-- With room in `tx` the byte is committed and the `putChar` answers. -/
theorem putCharDone_total (c : Byte) (hs : s.InvButIdle) (hroom : s.st.tx.count < s.params.txCap) :
    ∃ t, putCharDone (commit c s) = .next t := by
  obtain ⟨-, s', -, -, -, h, -⟩ := commit_spec c s hs.tx hroom hs.one_le_maxPkt
  exact ⟨_, by rw [h]; rfl⟩

theorem putCharIssue_total (c : Byte) (hs : s.InvButIdle) : ∃ t, putCharIssue c s = .next t := by
  unfold putCharIssue
  split
  · next hroom => exact putCharDone_total c hs hroom
  · exact ⟨_, rfl⟩

theorem putCharPhase_total (c : Byte) (k : Nat) (hs : s.InvButIdle) : ∃ t, putCharPhase c k s = .next t := by
  cases k with
  | zero =>
    obtain ⟨s', hsub⟩ := submitIfReady_total hs
    have hs' := (submitIfReady_inv hs hsub).butIdle
    simp only [putCharPhase, putCharExhausted, hsub]
    split
    · exact ⟨_, rfl⟩
    · next hne =>
      obtain ⟨-, hcnt, -⟩ := hs'.tx
      exact putCharDone_total c hs' (Nat.lt_of_le_of_ne hcnt hne)
  | succ k =>
    simp only [putCharPhase, putCharRetry]
    split
    · next hroom => exact putCharDone_total c hs hroom
    · exact ⟨_, rfl⟩

/-- `tryTake` answers on every frame buffer with the invariant. -/
theorem FrameBuffer.take_total {p : Params} {f : FrameBuffer} (hf : FrameBuffer.Inv p f) :
    ∃ x, f.take p = .ok x := by
  cases ho : f.overrun with
  | true => exact ⟨_, FrameBuffer.take_overrun ho⟩
  | false =>
    by_cases he : f.readSlot = f.writeSlot
    · exact ⟨_, FrameBuffer.take_none ho he⟩
    · exact ⟨_, FrameBuffer.take_ok hf ho he⟩

/-- The frame-complete handler answers on every frame buffer with the invariant. -/
theorem FrameBuffer.frame_total {p : Params} {f : FrameBuffer} (hf : FrameBuffer.Inv p f) :
    ∃ f', f.frame p = .ok f' := by
  by_cases hn : (f.writeSlot + 1) % p.r = f.readSlot
  · exact ⟨_, FrameBuffer.frame_overrun hf hn⟩
  · exact ⟨_, FrameBuffer.frame_advance hf hn⟩

/-- Every operation of a free agent gives a next state from a state with the invariant. -/
theorem exec_total (i : Instr) (hs : s.InvButIdle)
    (hfree : ¬ (s.env.origin.agent = .mainLoop ∧ s.st.putSeq.pending = true)) : ∃ t, exec i s = .next t := by
  cases i with
  | rbPut v =>
    obtain ⟨q, h, -⟩ := RingBuffer.put_total v hs.rb0.1
    exact perform_total hfree (by rw [h]; exact ⟨_, rfl⟩)
  | rbGet =>
    obtain ⟨q, h, -⟩ := RingBuffer.get_total hs.rb0.1
    refine perform_total hfree ?_
    rw [h]
    cases (s.rb0.held s.params.cap).head? <;> exact ⟨_, rfl⟩
  | rbIsfull | rbIsempty | rbLength | fbReset => exact perform_total hfree ⟨_, rfl⟩
  | stPutchar c => exact perform_total hfree (putCharIssue_total c hs)
  | stGetchar =>
    obtain ⟨q, h, -⟩ := RingBuffer.get_total hs.rx
    refine perform_total hfree ?_
    rw [h]
    cases (s.st.rx.held s.params.rxCap).head? <;> exact ⟨_, rfl⟩
  | stSubmit =>
    obtain ⟨s', h⟩ := submitIfReady_total hs
    exact perform_total hfree (by rw [h]; exact ⟨_, rfl⟩)
  | stTxdone =>
    obtain ⟨s', h⟩ := submitIfReady_total (hs.withTxIdle true)
    exact perform_total hfree (by rw [h]; exact ⟨_, rfl⟩)
  | stRxpkt pkt =>
    obtain ⟨q, h, -⟩ := RingBuffer.putAll_spec pkt hs.rx
    exact perform_total hfree (by rw [h]; exact ⟨_, rfl⟩)
  | fbTake =>
    obtain ⟨⟨f, r⟩, h⟩ := FrameBuffer.take_total hs.fb
    exact perform_total hfree (by rw [h]; exact ⟨_, rfl⟩)
  | fbSample v => exact perform_total hfree (by rw [FrameBuffer.sample_ok v hs.fb]; exact ⟨_, rfl⟩)
  | fbFrame =>
    obtain ⟨f, h⟩ := FrameBuffer.frame_total hs.fb
    exact perform_total hfree (by rw [h]; exact ⟨_, rfl⟩)

/-- A state with the invariant has a next step. -/
theorem exists_step_of_inv (hs : s.Inv) : ∃ t, step s = .next t := by
  cases hsched : s.env.schedule with
  | nil => exact ⟨s, step_of_no_turn hsched⟩
  | cons ch turns =>
    obtain ⟨c, k, -, -, e⟩ | ⟨hfree, ⟨-, e⟩ | ⟨er, rest, -, e⟩ | ⟨i, rest, -, e⟩⟩ := turnOf_cases ch s <;>
      simp only [step, nextTurn_of_schedule hsched, e]
    · exact putCharPhase_total c k (State.Inv.butIdle (s := s.popTurn.withOrigin .stM) hs)
    · exact ⟨_, rfl⟩
    · exact ⟨_, rfl⟩
    · exact exec_total i (State.Inv.butIdle (s := s.accept ch rest) hs) (not_pending_of_free hfree)

/-- The invariant holds of every reachable state, and the parameters are those of construction: what the environment adds
between steps is not in the invariant. -/
theorem Reachable.inv {p : Params} (hp : p.Ok) (h : Reachable p s) : s.Inv ∧ s.params = p := by
  induction h with
  | construct => exact ⟨constructionHasInvariant.1 p hp, rfl⟩
  | step _ hstep ih => exact ⟨stepKeepsInvariant _ _ ih.1 hstep, (noStepWritesAParameter _ _ hstep).trans ih.2⟩
  | present ch ws _ ih => exact ih
  | schedule turns _ ih => exact ih

end Total

/-- Settles O17: each clause is part of the invariant, which every reachable state has. -/
theorem reachableStates : Obligations.ReachableStates := by
  intro p s hp hr
  obtain ⟨hs, rfl⟩ := hr.inv hp
  obtain ⟨-, ⟨⟨-, -, -, -, hrb, -⟩, -⟩, ⟨-, -, -, -, hrx, -⟩, ⟨-, -, -, -, htx, -⟩, hidle, -⟩ := id hs
  exact ⟨hrb, hrx, htx, hidle, exists_step_of_inv hs⟩

end Sys2Proof.Machine
end

section
/-! PROOFS. Where `exec` refuses and that no step reaches it: O18, O19 (10_state.md R43, 93_implementation_defined.md U2,
log 7). -/

namespace Sys2Proof.Machine

/-! ### No effect is a refusal -/

theorem putCharDone_ne_refused (x : Except Fault State) (r : Refusal) : putCharDone x ≠ .refused r := by
  unfold putCharDone
  split <;> simp

theorem putCharIssue_ne_refused (c : Byte) (s : State) (r : Refusal) : putCharIssue c s ≠ .refused r := by
  unfold putCharIssue
  split
  · exact putCharDone_ne_refused _ r
  · simp

theorem putCharPhase_ne_refused (c : Byte) (k : Nat) (s : State) (r : Refusal) : putCharPhase c k s ≠ .refused r := by
  cases k with
  | zero =>
    simp only [putCharPhase, putCharExhausted]
    split
    · simp
    · split
      · simp
      · exact putCharDone_ne_refused _ r
  | succ k =>
    simp only [putCharPhase, putCharRetry]
    split
    · exact putCharDone_ne_refused _ r
    · simp

/-- Every meaning is `perform` of an effect that is no refusal. -/
theorem exec_eq_perform_of_meaning (i : Instr) (s : State) :
    ∃ effect, exec i s = perform i s effect ∧ ∀ r, effect ≠ .refused r := by
  cases i with
  | stPutchar c => exact ⟨_, rfl, putCharIssue_ne_refused c s⟩
  | rbIsfull | rbIsempty | rbLength | fbReset => exact ⟨_, rfl, by simp⟩
  | rbPut v | rbGet | stGetchar | stSubmit | stRxpkt pkt | fbTake | fbSample v | fbFrame =>
    exact ⟨_, rfl, fun r => by split <;> simp⟩
  | stTxdone => exact ⟨_, rfl, fun r => by unfold settle; split <;> simp⟩

/-! ### O19 and O18 -/

/-- `exec` refuses exactly a legal operation of agent `M` while the sequencer waits. -/
theorem exec_eq_refused {i : Instr} {s : State} {r : Refusal} :
    exec i s = .refused r ↔
      r = .putCharPending ∧ s.legal i = true ∧ s.env.origin.agent = .mainLoop ∧ s.st.putSeq.pending = true := by
  obtain ⟨effect, he, hne⟩ := exec_eq_perform_of_meaning i s
  rw [he]
  obtain ⟨hl, h⟩ | ⟨hl, ha, hp, h⟩ | ⟨hl, hfree, h⟩ := perform_cases i s effect <;> rw [h]
  · simp [hl]
  · simp [hl, ha, hp, eq_comm]
  · constructor
    · exact fun hr => absurd hr (hne r)
    · rintro ⟨-, -, hmp⟩
      exact absurd hmp hfree

theorem PutSeq.pending_iff {x : PutSeq} : x.pending = true ↔ ∃ c k, x = .wait c k := by
  cases x <;> simp [PutSeq.pending]

/-- Settles O19, with legality and agency spelt out. -/
theorem refusedOnlyDuringPutChar : Obligations.RefusedOnlyDuringPutChar := by
  intro i s r
  rw [exec_eq_refused, State.legal_iff, Channel.agent_eq_mainLoop, PutSeq.pending_iff, and_assoc]

/-- Settles O18: a turn runs an operation only when its agent is free, and a phase is no refusal. -/
theorem noStepIsRefused : Obligations.NoStepIsRefused := by
  intro s r h
  cases hsched : s.env.schedule with
  | nil =>
    rw [step_of_no_turn hsched] at h
    cases h
  | cons ch turns =>
    obtain ⟨c, k, -, -, e⟩ | ⟨hfree, ⟨-, e⟩ | ⟨er, rest, -, e⟩ | ⟨i, rest, -, e⟩⟩ := turnOf_cases ch s <;>
      simp only [step, nextTurn_of_schedule hsched, e] at h
    · exact putCharPhase_ne_refused c k _ r h
    · cases h
    · cases h
    · obtain ⟨-, -, hpend⟩ := exec_eq_refused.mp h
      exact not_pending_of_free hfree hpend

end Sys2Proof.Machine
end

section
/-! PROOFS. The queues' status outputs and cursors, and the values after construction: O28, O29, O30, O58 (10_state.md R25,
R26, R29, R48 to R50). -/

namespace Sys2Proof.Machine

section Queue

variable {α : Type} {cap : Nat} {q : RingBuffer α}

theorem RingBuffer.full_iff : q.full cap = true ↔ q.count = cap := by
  simp [RingBuffer.full]

theorem RingBuffer.empty_iff : q.empty = true ↔ q.count = 0 := by
  simp [RingBuffer.empty]

/-- A queue that is full or empty has equal cursors: its count is 0 modulo the capacity. -/
theorem RingBuffer.cursors_eq (hi : RingBuffer.Inv cap q) (h : q.count = cap ∨ q.count = 0) :
    q.readCursor = q.writeCursor := by
  obtain ⟨-, -, hr, -, heq, -⟩ := hi
  rw [heq]
  rcases h with h | h
  · rw [h, Nat.add_mod_right, Nat.mod_eq_of_lt hr]
  · rw [h, Nat.add_zero, Nat.mod_eq_of_lt hr]

end Queue

/-- Settles O28. -/
theorem fullAndEmptyComeFromCount : Obligations.FullAndEmptyComeFromCount := by
  intro α cap q
  refine ⟨RingBuffer.full_iff, RingBuffer.empty_iff, fun hi h => RingBuffer.cursors_eq hi ?_⟩
  exact h.imp RingBuffer.full_iff.mp RingBuffer.empty_iff.mp

/-! ### The observers (R122 to R124) -/

/-- From either role of RB0 an operation that the role may issue has its effect, whatever the sequencer holds. -/
theorem perform_of_role {i : Instr} {s : State} (ho : s.env.origin = .rbP ∨ s.env.origin = .rbC) (hl : s.legal i = true)
    (effect : Host.Outcome State Fault Refusal) : perform i s effect = effect := by
  refine perform_legal_of_not_main hl ?_ effect
  rcases ho with ho | ho <;> rw [ho] <;> decide

section Observers

variable {s : State} (ho : s.env.origin = .rbP ∨ s.env.origin = .rbC)
include ho

theorem exec_rbIsfull : exec .rbIsfull s = .next (s.respond (.okValue (bitValue (s.rb0.full s.params.cap)))) :=
  perform_of_role ho (State.legal_iff.mpr ⟨by rcases ho with ho | ho <;> rw [ho] <;> rfl, rfl⟩) _

theorem exec_rbIsempty : exec .rbIsempty s = .next (s.respond (.okValue (bitValue s.rb0.empty))) :=
  perform_of_role ho (State.legal_iff.mpr ⟨by rcases ho with ho | ho <;> rw [ho] <;> rfl, rfl⟩) _

theorem exec_rbLength : exec .rbLength s = .next (s.respond (.okValue s.rb0.length)) :=
  perform_of_role ho (State.legal_iff.mpr ⟨by rcases ho with ho | ho <;> rw [ho] <;> rfl, rfl⟩) _

end Observers

/-- Settles O29: the observers answer the outputs, and construction has the count 0, below every capacity of at least 1. -/
theorem statusOutputsOfAQueue : Obligations.StatusOutputsOfAQueue := by
  refine ⟨fun α cap q => ⟨rfl, rfl, rfl⟩,
    fun s ho => ⟨exec_rbIsfull ho, exec_rbIsempty ho, exec_rbLength ho⟩, fun α cap hcap => ⟨?_, rfl, rfl⟩⟩
  exact beq_false_of_ne (Nat.ne_of_lt hcap)

/-- Settles O30: the successful cases of `put` and `get` each move their own cursor, and the others move none. -/
theorem cursorsAdvanceModuloCapacity : Obligations.CursorsAdvanceModuloCapacity := by
  intro α cap q q' hi
  refine ⟨fun v b h => ?_, fun a h => ?_, fun hcap => ?_⟩
  · obtain ⟨-, -, -, hw', -⟩ := RingBuffer.put_inv hi h
    obtain ⟨-, rfl, rfl⟩ | ⟨-, -, rfl, rfl⟩ := RingBuffer.put_cases h
    · exact ⟨rfl, rfl, hw'⟩
    · exact ⟨rfl, rfl, hw'⟩
  · obtain ⟨-, -, hr', -⟩ := RingBuffer.get_inv hi h
    obtain ⟨-, rfl, rfl⟩ | ⟨v, -, -, -, rfl, rfl⟩ := RingBuffer.get_cases h
    · exact ⟨rfl, rfl, hr'⟩
    · exact ⟨rfl, rfl, hr'⟩
  · obtain ⟨-, -, hr, hw, -, -⟩ := hi
    omega

/-! ### After construction -/

/-- Every slot of a constructed frame buffer, and every index outside it, is empty and unwritten (R50). -/
theorem FrameBuffer.slotAt_construct (r k : Nat) : (FrameBuffer.construct r).slotAt k = { data := [], length := 0 } := by
  simp only [FrameBuffer.slotAt, FrameBuffer.construct, List.getElem?_replicate]
  split <;> rfl

/-- Settles O58. -/
theorem valuesAfterConstruction : Obligations.ValuesAfterConstruction := by
  intro p
  refine ⟨⟨rfl, rfl, rfl, fun _ => rfl⟩, ⟨rfl, rfl, rfl, fun _ => rfl⟩, ⟨rfl, rfl, rfl, fun _ => rfl⟩, rfl, rfl, rfl,
    List.length_replicate, fun k a => ?_, rfl, rfl, rfl, rfl, rfl⟩
  have hk : (State.construct p).fb.slotAt k = { data := [], length := 0 } := FrameBuffer.slotAt_construct p.r k
  rw [hk]
  exact ⟨rfl, rfl⟩

end Sys2Proof.Machine
end

section
/-! PROOFS. What a step does to unit U3: `overrun`, the counter and `busy`, and what the unit reads: O53, O54, O22 and the
frame-buffer half of O23 (10_state.md R39 to R41, R51; 42_frame_buffer.md R172, R174, R175). -/

namespace Sys2Proof.Machine

/-! ### The operations of the unit in any state -/

section Unit

variable {p : Params} {f f' : FrameBuffer}

/-- Every `FB.FRAME` counts; with no free slot it sets `overrun` and asserts `busy` unless the run is continuous, with a free
slot it leaves both (R172). -/
theorem FrameBuffer.frame_flags (h : f.frame p = .ok f') :
    f'.frameCount = (f.frameCount + 1) % 2 ^ p.fcw ∧
    ((f.writeSlot + 1) % p.r = f.readSlot ∧ f'.overrun = true ∧ f'.busy = (f.busy || !p.continuous) ∨
     (f.writeSlot + 1) % p.r ≠ f.readSlot ∧ f'.overrun = f.overrun ∧ f'.busy = f.busy) := by
  by_cases hn : (f.writeSlot + 1) % p.r = f.readSlot
  · simp only [FrameBuffer.frame, advance, hn, if_true] at h
    split at h <;> cases h
    exact ⟨rfl, .inl ⟨hn, rfl, rfl⟩⟩
  · simp only [FrameBuffer.frame, advance, hn, if_false] at h
    split at h <;> cases h
    exact ⟨rfl, .inr ⟨hn, rfl, rfl⟩⟩

/-- `FB.TAKE` moves at most the read index. -/
theorem FrameBuffer.take_cases {r : Result} (h : f.take p = .ok (f', r)) : ∃ k, f' = { f with readSlot := k } := by
  unfold FrameBuffer.take at h
  split at h
  · cases h; exact ⟨_, rfl⟩
  · split at h
    · cases h; exact ⟨_, rfl⟩
    · split at h
      · cases h
      · split at h <;> cases h
        exact ⟨_, rfl⟩

/-- `FB.SAMPLE` changes at most the slots. -/
theorem FrameBuffer.sample_cases {v : Sample} (h : f.sample p v = .ok f') : ∃ slots, f' = { f with slots := slots } := by
  unfold FrameBuffer.sample at h
  split at h
  · cases h
  · split at h <;> cases h
    exact ⟨_, rfl⟩

end Unit

/-! ### The unit over a step -/

section Step

variable {s t : State}

/-- What an operation does to unit U3: one of the unit's four operations, or nothing. -/
theorem effect_fb_cases {i : Instr} (ha : s.env.origin.accepts i = true) (h : Effect s t i) :
    (i = .fbFrame ∧ s.fb.frame s.params = .ok t.fb) ∨ (i = .fbReset ∧ t.fb = s.fb.reset) ∨
    (i = .fbTake ∧ ∃ r, s.fb.take s.params = .ok (t.fb, r)) ∨
    (∃ v, i = .fbSample v ∧ s.fb.sample s.params v = .ok t.fb) ∨ t.fb = s.fb := by
  have hf := (effect_footprint ha h).fb
  cases i with
  | fbFrame =>
    obtain ⟨f, hframe, rfl⟩ := h
    exact .inl ⟨rfl, hframe⟩
  | fbReset =>
    cases h
    exact .inr (.inl ⟨rfl, rfl⟩)
  | fbTake =>
    obtain ⟨f, r, htake, rfl⟩ := h
    exact .inr (.inr (.inl ⟨rfl, r, htake⟩))
  | fbSample v =>
    obtain ⟨f, hsample, rfl⟩ := h
    exact .inr (.inr (.inr (.inl ⟨v, rfl, hsample⟩)))
  | rbPut v | rbGet | rbIsfull | rbIsempty | rbLength | stPutchar c | stGetchar | stSubmit | stTxdone | stRxpkt pkt =>
    refine .inr (.inr (.inr (.inr (hf ?_ ?_ ?_)))) <;> intro ho <;> simp [ho, Channel.accepts] at ha

/-- What a step does to unit U3. -/
theorem step_fb_cases (h : step s = .next t) :
    (s.runs .fbFrame ∧ s.fb.frame s.params = .ok t.fb) ∨ (s.runs .fbReset ∧ t.fb = s.fb.reset) ∨
    (s.runs .fbTake ∧ ∃ r, s.fb.take s.params = .ok (t.fb, r)) ∨
    (∃ v, s.runs (.fbSample v) ∧ s.fb.sample s.params v = .ok t.fb) ∨ t.fb = s.fb := by
  obtain ⟨-, e, rfl⟩ | ⟨ch, _, c, k, -, -, -, -, ht⟩ | ⟨ch, _, i, rest, -, -, hn, hl, he⟩ := step_kinds h
  · exact .inr (.inr (.inr (.inr rfl)))
  · exact .inr (.inr (.inr (.inr (putCharPhase_transmitOnly ht).fb)))
  · have hr : s.runs i := ⟨_, hn, hl⟩
    obtain ⟨rfl, hf⟩ | ⟨rfl, hf⟩ | ⟨rfl, hf⟩ | ⟨v, rfl, hf⟩ | hf := effect_fb_cases (State.legal_iff.mp hl).1 he
    · exact .inl ⟨hr, hf⟩
    · exact .inr (.inl ⟨hr, hf⟩)
    · exact .inr (.inr (.inl ⟨hr, hf⟩))
    · exact .inr (.inr (.inr (.inl ⟨v, hr, hf⟩)))
    · exact .inr (.inr (.inr (.inr hf)))

/-- Only `FB.FRAME` and `FB.RESET` touch `overrun`, the counter and `busy`. -/
theorem step_fb_flags (h : step s = .next t) :
    (s.runs .fbFrame ∧ s.fb.frame s.params = .ok t.fb) ∨ (s.runs .fbReset ∧ t.fb = s.fb.reset) ∨
    (t.fb.overrun = s.fb.overrun ∧ t.fb.frameCount = s.fb.frameCount ∧ t.fb.busy = s.fb.busy) := by
  obtain hf | hf | ⟨-, r, hf⟩ | ⟨v, -, hf⟩ | hf := step_fb_cases h
  · exact .inl hf
  · exact .inr (.inl hf)
  · obtain ⟨k, e⟩ := FrameBuffer.take_cases hf
    exact .inr (.inr (by rw [e]; exact ⟨rfl, rfl, rfl⟩))
  · obtain ⟨slots, e⟩ := FrameBuffer.sample_cases hf
    exact .inr (.inr (by rw [e]; exact ⟨rfl, rfl, rfl⟩))
  · exact .inr (.inr (by rw [hf]; exact ⟨rfl, rfl, rfl⟩))

theorem frame_of_runs (h : step s = .next t) (hr : s.runs .fbFrame) : s.fb.frame s.params = .ok t.fb := by
  obtain ⟨ch, rest, -, f, hf, rfl⟩ := effect_of_runs h hr
  exact hf

theorem reset_of_runs (h : step s = .next t) (hr : s.runs .fbReset) : t.fb = s.fb.reset := by
  obtain ⟨ch, rest, -, rfl⟩ := effect_of_runs h hr
  rfl

/-- `FB.TAKE` with `overrun` set consumes nothing and answers `OVERRUN` on `fb_m` (R174). -/
theorem take_overrun_of_runs (h : step s = .next t) (ho : s.fb.overrun = true) (hr : s.runs .fbTake) :
    t.fb = s.fb ∧ t.env.answers.fbM = s.env.answers.fbM ++ [.overrun] := by
  obtain ⟨ch, rest, hl, f, r, hf, rfl⟩ := effect_of_runs h hr
  obtain rfl : ch = .fbM := eq_of_beq (State.legal_iff.mp hl).1
  rw [FrameBuffer.take_overrun (by exact ho)] at hf
  cases hf
  exact ⟨rfl, rfl⟩

end Step

/-! ### O53 and O54 -/

/-- Settles O53. -/
theorem overrunIsSticky : Obligations.OverrunIsSticky := by
  refine ⟨fun s t h => ⟨fun hr hn => ?_, fun ho ht => ?_, fun hr => by rw [reset_of_runs h hr]; rfl, fun ho ht => ?_,
    take_overrun_of_runs h⟩, fun _ => rfl⟩
  · obtain ⟨-, ⟨-, ht, -⟩ | ⟨hne, -⟩⟩ := FrameBuffer.frame_flags (frame_of_runs h hr)
    · exact ht
    · exact absurd hn hne
  · obtain ⟨hr, hf⟩ | ⟨-, hf⟩ | ⟨hf, -, -⟩ := step_fb_flags h
    · obtain ⟨-, ⟨hn, -⟩ | ⟨-, hkeep, -⟩⟩ := FrameBuffer.frame_flags hf
      · exact ⟨hr, hn⟩
      · rw [hkeep, ho] at ht; cases ht
    · rw [hf] at ht; cases ht
    · rw [hf, ho] at ht; cases ht
  · obtain ⟨-, hf⟩ | ⟨hr, -⟩ | ⟨hf, -, -⟩ := step_fb_flags h
    · obtain ⟨-, ⟨-, hset, -⟩ | ⟨-, hkeep, -⟩⟩ := FrameBuffer.frame_flags hf
      · rw [hset] at ht; cases ht
      · rw [hkeep, ho] at ht; cases ht
    · exact hr
    · rw [hf, ho] at ht; cases ht

/-- Settles O54. -/
theorem frameCounterCountsEveryCompletion : Obligations.FrameCounterCountsEveryCompletion := by
  refine ⟨fun _ => rfl, fun s t h => ⟨fun hr => (FrameBuffer.frame_flags (frame_of_runs h hr)).1,
    fun hr => by rw [reset_of_runs h hr]; rfl, fun hnf hnr => ?_⟩⟩
  obtain ⟨hr, -⟩ | ⟨hr, -⟩ | ⟨-, hf, -⟩ := step_fb_flags h
  · exact absurd hr hnf
  · exact absurd hr hnr
  · exact hf

/-! ### O22 -/

/-- An operation of unit U3 reads the parameters, the unit and its channel, and nothing else of the state. -/
theorem effect_fb_congr {s₁ s₂ t₁ t₂ : State} {i : Instr}
    (hch : s₁.env.origin = .fbM ∨ s₁.env.origin = .fbSample ∨ s₁.env.origin = .fbFrame)
    (ha : s₁.env.origin.accepts i = true) (hp : s₁.params = s₂.params) (he : s₁.env = s₂.env) (hf : s₁.fb = s₂.fb)
    (h₁ : Effect s₁ t₁ i) (h₂ : Effect s₂ t₂ i) : t₁.fb = t₂.fb ∧ t₁.env = t₂.env := by
  cases i with
  | fbTake =>
    obtain ⟨f₁, r₁, e₁, rfl⟩ := h₁
    obtain ⟨f₂, r₂, e₂, rfl⟩ := h₂
    rw [hf, hp, e₂] at e₁
    cases e₁
    simp [he]
  | fbReset =>
    cases h₁
    cases h₂
    simp [he, hf]
  | fbSample v =>
    obtain ⟨f₁, e₁, rfl⟩ := h₁
    obtain ⟨f₂, e₂, rfl⟩ := h₂
    rw [hf, hp, e₂] at e₁
    cases e₁
    exact ⟨rfl, he⟩
  | fbFrame =>
    obtain ⟨f₁, e₁, rfl⟩ := h₁
    obtain ⟨f₂, e₂, rfl⟩ := h₂
    rw [hf, hp, e₂] at e₁
    cases e₁
    exact ⟨rfl, he⟩
  | rbPut v | rbGet | rbIsfull | rbIsempty | rbLength | stPutchar c | stGetchar | stSubmit | stTxdone | stRxpkt pkt =>
    rcases hch with ho | ho | ho <;> simp [ho, Channel.accepts] at ha

/-- Settles O22: the two states decode the same request, and each kind of turn gives the same unit and environment. -/
theorem frameBufferReadsOnlyItself : Obligations.FrameBufferReadsOnlyItself := by
  intro s₁ s₂ t₁ t₂ ch turns hs₁ hch hp he hf hidle h₁ h₂
  have hs₂ : s₂.env.schedule = ch :: turns := by rw [← he, hs₁]
  have hfree : (ch.agent ≠ .mainLoop ∨ s₁.st.putSeq = .idle) ∧ (ch.agent ≠ .mainLoop ∨ s₂.st.putSeq = .idle) := by
    rcases hch with rfl | rfl | rfl
    · exact ⟨.inr (hidle rfl).1, .inr (hidle rfl).2⟩
    · exact ⟨.inl (by decide), .inl (by decide)⟩
    · exact ⟨.inl (by decide), .inl (by decide)⟩
  obtain ⟨hfree₁, hfree₂⟩ := hfree
  have hd₂ : decode s₂.params (s₂.env.ports.get ch) = decode s₁.params (s₁.env.ports.get ch) := by rw [hp, he]
  cases hd : decode s₁.params (s₁.env.ports.get ch) with
  | none =>
    rw [hd] at hd₂
    simp only [step, nextTurn_of_schedule hs₁, turnOf_idle hfree₁ hd] at h₁
    simp only [step, nextTurn_of_schedule hs₂, turnOf_idle hfree₂ hd₂] at h₂
    cases h₁
    cases h₂
    simp [hf, he]
  | some x =>
    obtain ⟨req, rest⟩ := x
    rw [hd] at hd₂
    have heacc : (s₁.accept ch rest).env = (s₂.accept ch rest).env := by simp [he]
    have hillegal : (s₁.accept ch rest).answerIllegal.fb = (s₂.accept ch rest).answerIllegal.fb ∧
        (s₁.accept ch rest).answerIllegal.env = (s₂.accept ch rest).answerIllegal.env := by simp [hf, he]
    cases req with
    | bad er =>
      simp only [step, nextTurn_of_schedule hs₁, turnOf_illegal hfree₁ hd] at h₁
      simp only [step, nextTurn_of_schedule hs₂, turnOf_illegal hfree₂ hd₂] at h₂
      cases h₁
      cases h₂
      exact hillegal
    | op i =>
      simp only [step, nextTurn_of_schedule hs₁, turnOf_run hfree₁ hd] at h₁
      simp only [step, nextTurn_of_schedule hs₂, turnOf_run hfree₂ hd₂] at h₂
      have hlegal : (s₁.accept ch rest).legal i = (s₂.accept ch rest).legal i := by simp [State.legal, hp]
      obtain ⟨hl₁, rfl⟩ | ⟨hl₁, e₁⟩ := exec_accept_cases hfree₁ h₁ <;>
        obtain ⟨hl₂, rfl⟩ | ⟨hl₂, e₂⟩ := exec_accept_cases hfree₂ h₂
      · exact hillegal
      · rw [hlegal, hl₂] at hl₁; cases hl₁
      · rw [hlegal, hl₂] at hl₁; cases hl₁
      · exact effect_fb_congr (s₁ := s₁.accept ch rest) (s₂ := s₂.accept ch rest) hch (State.legal_iff.mp hl₁).1 hp heacc hf e₁ e₂

end Sys2Proof.Machine
end

section
/-! PROOFS. No step reads `rxIdle` or `busy`, and when `busy` is asserted and released: O23 (10_state.md R33, R41;
42_frame_buffer.md R172, R175; log 10). -/

namespace Sys2Proof.Machine

/-! ### The two elements changed alone -/

/-- A frame buffer with `busy` changed. -/
def FrameBuffer.mapBusy (b : Bool → Bool) (f : FrameBuffer) : FrameBuffer := { f with busy := b f.busy }

theorem FrameBuffer.mapBusy_id (f : FrameBuffer) : f.mapBusy id = f := rfl

/-- A state with `rxIdle` and `busy` changed, the two elements that no rule reads. -/
def State.mapHidden (a b : Bool → Bool) (s : State) : State :=
  { s with st := { s.st with rxIdle := a s.st.rxIdle }, fb := s.fb.mapBusy b }

/-- What a turn comes to, with the state it leaves changed. -/
def Turn.mapState (f : State → State) : Turn → Turn
  | .idle s => .idle (f s)
  | .phase c k s => .phase c k (f s)
  | .illegal s => .illegal (f s)
  | .run i s => .run i (f s)

section Hidden

variable {a b : Bool → Bool} {s : State}

@[simp] theorem State.mapHidden_params : (s.mapHidden a b).params = s.params := rfl
@[simp] theorem State.mapHidden_rb0 : (s.mapHidden a b).rb0 = s.rb0 := rfl
@[simp] theorem State.mapHidden_rx : (s.mapHidden a b).st.rx = s.st.rx := rfl
@[simp] theorem State.mapHidden_tx : (s.mapHidden a b).st.tx = s.st.tx := rfl
@[simp] theorem State.mapHidden_txIdle : (s.mapHidden a b).st.txIdle = s.st.txIdle := rfl
@[simp] theorem State.mapHidden_fb : (s.mapHidden a b).fb = s.fb.mapBusy b := rfl
@[simp] theorem State.mapHidden_env : (s.mapHidden a b).env = s.env := rfl

/-! ### The transport -/

theorem submitIfReady_mapHidden (a b : Bool → Bool) (s : State) :
    submitIfReady (s.mapHidden a b) = (submitIfReady s).map (State.mapHidden a b) := by
  cases hi : s.st.txIdle with
  | false => simp [submitIfReady, hi, Except.map]
  | true =>
    simp only [submitIfReady, State.mapHidden_txIdle, State.mapHidden_tx, State.mapHidden_params, hi, if_true]
    cases s.st.tx.drain s.params.txCap (min s.st.tx.count s.params.maxPkt) with
    | error e => rfl
    | ok x => dsimp only; split <;> rfl

theorem commit_mapHidden (c : Byte) (a b : Bool → Bool) (s : State) :
    commit c (s.mapHidden a b) = (commit c s).map (State.mapHidden a b) := by
  simp only [commit, State.mapHidden_tx, State.mapHidden_params]
  cases s.st.tx.put s.params.txCap c with
  | error e => rfl
  | ok x =>
    cases hi : s.st.txIdle with
    | false => simp only [State.mapHidden_txIdle, hi, Bool.false_eq_true, if_false]; rfl
    | true =>
      simp only [State.mapHidden_txIdle, hi, if_true]
      exact submitIfReady_mapHidden a b (s.withTx x.1)

theorem putCharDone_map (a b : Bool → Bool) (x : Except Fault State) :
    putCharDone (x.map (State.mapHidden a b)) = mapNext (State.mapHidden a b) (putCharDone x) := by
  cases x <;> rfl

theorem putCharIssue_mapHidden (c : Byte) (a b : Bool → Bool) (s : State) :
    putCharIssue c (s.mapHidden a b) = mapNext (State.mapHidden a b) (putCharIssue c s) := by
  simp only [putCharIssue, State.mapHidden_tx, State.mapHidden_params, commit_mapHidden, putCharDone_map]
  split <;> rfl

theorem putCharPhase_mapHidden (c : Byte) (k : Nat) (a b : Bool → Bool) (s : State) :
    putCharPhase c k (s.mapHidden a b) = mapNext (State.mapHidden a b) (putCharPhase c k s) := by
  cases k with
  | zero =>
    simp only [putCharPhase, putCharExhausted, submitIfReady_mapHidden]
    cases submitIfReady s with
    | error e => rfl
    | ok s' =>
      show (if s'.st.tx.count = s'.params.txCap then _ else putCharDone (commit c (s'.mapHidden a b))) = _
      rw [commit_mapHidden, putCharDone_map]
      dsimp only
      split <;> rfl
  | succ k =>
    simp only [putCharPhase, putCharRetry, State.mapHidden_tx, State.mapHidden_params, commit_mapHidden,
      putCharDone_map]
    split <;> rfl

/-! ### The frame buffer -/

theorem FrameBuffer.take_mapBusy (p : Params) (b : Bool → Bool) (f : FrameBuffer) :
    (f.mapBusy b).take p = (f.take p).map (Prod.map (FrameBuffer.mapBusy b) id) := by
  unfold FrameBuffer.take
  by_cases ho : f.overrun = true
  · rw [if_pos ho, if_pos (by exact ho)]
    rfl
  · rw [if_neg ho, if_neg (by exact ho)]
    by_cases he : f.readSlot = f.writeSlot
    · rw [if_pos he, if_pos (by exact he)]
      rfl
    · rw [if_neg he, if_neg (by exact he)]
      simp only [FrameBuffer.mapBusy]
      cases f.slots[f.readSlot]? with
      | none => rfl
      | some sl => dsimp only; cases loadSamples p.maxPos sl <;> rfl

theorem FrameBuffer.sample_mapBusy (p : Params) (v : Sample) (b : Bool → Bool) (f : FrameBuffer) :
    (f.mapBusy b).sample p v = (f.sample p v).map (FrameBuffer.mapBusy b) := by
  simp only [FrameBuffer.sample, FrameBuffer.mapBusy]
  cases f.slots[f.writeSlot]? with
  | none => rfl
  | some sl => dsimp only; cases storeSample p.maxPos v sl <;> rfl

/-- `FB.FRAME` may assert `busy`, so it ends with `busy` changed in its own way; nothing else depends on it. -/
theorem FrameBuffer.frame_mapBusy (p : Params) (b : Bool → Bool) (f : FrameBuffer) :
    ∃ b', (f.mapBusy b).frame p = (f.frame p).map (FrameBuffer.mapBusy b') := by
  by_cases hn : advance p.r f.writeSlot = f.readSlot
  · refine ⟨fun _ => b f.busy || !p.continuous, ?_⟩
    simp only [FrameBuffer.frame, FrameBuffer.mapBusy, hn, if_true]
    cases clearSlot f.slots f.writeSlot <;> rfl
  · refine ⟨b, ?_⟩
    simp only [FrameBuffer.frame, FrameBuffer.mapBusy, hn, if_false]
    cases clearSlot f.slots (advance p.r f.writeSlot) <;> rfl

/-! ### Every operation and every step -/

theorem perform_mapHidden {i : Instr} {e e' : Host.Outcome State Fault Refusal}
    (he : e' = mapNext (State.mapHidden a b) e) :
    perform i (s.mapHidden a b) e' = mapNext (State.mapHidden a b) (perform i s e) := by
  subst he
  obtain ⟨hl, h⟩ | ⟨hl, ha, hp, h⟩ | ⟨hl, hfree, h⟩ := perform_cases i s e <;> rw [h]
  · exact perform_illegal (s := s.mapHidden a b) hl _
  · exact perform_pending (s := s.mapHidden a b) hl ha hp _
  · exact perform_of_free (s := s.mapHidden a b) hl hfree _

/-- The same for an effect that leaves `busy` changed in another way. -/
theorem perform_mapHidden_exists {i : Instr} {e e' : Host.Outcome State Fault Refusal}
    (he : ∃ b', e' = mapNext (State.mapHidden a b') e) :
    ∃ b', perform i (s.mapHidden a b) e' = mapNext (State.mapHidden a b') (perform i s e) := by
  obtain ⟨b', rfl⟩ := he
  obtain ⟨hl, h⟩ | ⟨hl, ha, hp, h⟩ | ⟨hl, hfree, h⟩ := perform_cases i s e <;> rw [h]
  · exact ⟨b, perform_illegal (s := s.mapHidden a b) hl _⟩
  · exact ⟨b, perform_pending (s := s.mapHidden a b) hl ha hp _⟩
  · exact ⟨b', perform_of_free (s := s.mapHidden a b) hl hfree _⟩

/-- Every operation that does not write `busy` goes on as before when `rxIdle` and `busy` are changed; with `busy` as it was,
every operation does. -/
theorem exec_mapHidden {i : Instr} (hi : i = .fbFrame ∨ i = .fbReset → b = id) :
    exec i (s.mapHidden a b) = mapNext (State.mapHidden a b) (exec i s) := by
  cases i with
  | rbPut v =>
    refine perform_mapHidden ?_
    rw [State.mapHidden_rb0, State.mapHidden_params]
    cases s.rb0.put s.params.cap v <;> rfl
  | rbGet =>
    refine perform_mapHidden ?_
    rw [State.mapHidden_rb0, State.mapHidden_params]
    obtain e | ⟨q, _ | v⟩ := s.rb0.get s.params.cap <;> rfl
  | rbIsfull | rbIsempty | rbLength => exact perform_mapHidden rfl
  | stPutchar c => exact perform_mapHidden (putCharIssue_mapHidden c a b s)
  | stGetchar =>
    refine perform_mapHidden ?_
    rw [State.mapHidden_rx, State.mapHidden_params]
    obtain e | ⟨q, _ | v⟩ := s.st.rx.get s.params.rxCap <;> rfl
  | stSubmit =>
    refine perform_mapHidden ?_
    rw [submitIfReady_mapHidden]
    cases submitIfReady s <;> rfl
  | stTxdone =>
    have hsub := submitIfReady_mapHidden a b (s.withTxIdle true)
    refine perform_mapHidden ((congrArg settle hsub).trans ?_)
    cases submitIfReady (s.withTxIdle true) <;> rfl
  | stRxpkt pkt =>
    refine perform_mapHidden ?_
    rw [State.mapHidden_rx, State.mapHidden_params]
    cases s.st.rx.putAll s.params.rxCap pkt <;> rfl
  | fbTake =>
    refine perform_mapHidden ?_
    rw [State.mapHidden_fb, State.mapHidden_params, FrameBuffer.take_mapBusy]
    cases s.fb.take s.params <;> rfl
  | fbReset =>
    obtain rfl := hi (.inr rfl)
    exact perform_mapHidden rfl
  | fbSample v =>
    refine perform_mapHidden ?_
    rw [State.mapHidden_fb, State.mapHidden_params, FrameBuffer.sample_mapBusy]
    cases s.fb.sample s.params v <;> rfl
  | fbFrame =>
    obtain rfl := hi (.inl rfl)
    refine perform_mapHidden ?_
    rw [State.mapHidden_fb, State.mapHidden_params, FrameBuffer.mapBusy_id]
    cases s.fb.frame s.params <;> rfl

/-- With `busy` changed every operation goes on as before but for `busy` itself. -/
theorem exec_mapHidden_exists (i : Instr) (a b : Bool → Bool) (s : State) :
    ∃ b', exec i (s.mapHidden a b) = mapNext (State.mapHidden a b') (exec i s) := by
  by_cases hi : i = .fbFrame ∨ i = .fbReset
  · obtain rfl | rfl := hi
    · obtain ⟨b', hf⟩ := FrameBuffer.frame_mapBusy s.params b s.fb
      refine perform_mapHidden_exists ⟨b', ?_⟩
      rw [State.mapHidden_fb, State.mapHidden_params, hf]
      cases s.fb.frame s.params <;> rfl
    · exact perform_mapHidden_exists ⟨fun _ => false, rfl⟩
  · exact ⟨b, exec_mapHidden fun h => absurd h hi⟩

/-- The turn is the same turn. -/
theorem nextTurn_mapHidden (a b : Bool → Bool) (s : State) :
    nextTurn (s.mapHidden a b) = (nextTurn s).mapState (State.mapHidden a b) := by
  cases hs : s.env.schedule with
  | nil => simp [nextTurn, hs, Turn.mapState]
  | cons ch turns =>
    rw [nextTurn_of_schedule hs, nextTurn_of_schedule (s := s.mapHidden a b) hs]
    obtain ⟨c, k, ha, hp, e⟩ | ⟨hfree, ⟨hd, e⟩ | ⟨er, rest, hd, e⟩ | ⟨i, rest, hd, e⟩⟩ := turnOf_cases ch s <;> rw [e]
    · exact turnOf_phase ha hp
    · exact turnOf_idle hfree hd
    · exact turnOf_illegal hfree hd
    · exact turnOf_run hfree hd

/-- A step with `rxIdle` changed changes nothing else, and leaves `rxIdle` as it was. -/
theorem step_mapHidden_rxIdle (a : Bool → Bool) (s : State) :
    step (s.mapHidden a id) = mapNext (State.mapHidden a id) (step s) := by
  unfold step
  rw [nextTurn_mapHidden]
  cases nextTurn s with
  | idle s' | illegal s' => rfl
  | phase c k s' => exact putCharPhase_mapHidden c k a id s'
  | run i s' => exact exec_mapHidden fun _ => rfl

/-- A step with `busy` changed too changes nothing else but `busy` itself. -/
theorem step_mapHidden_exists (a b : Bool → Bool) (s : State) :
    ∃ b', step (s.mapHidden a b) = mapNext (State.mapHidden a b') (step s) := by
  unfold step
  rw [nextTurn_mapHidden]
  cases nextTurn s with
  | idle s' | illegal s' => exact ⟨b, rfl⟩
  | phase c k s' => exact ⟨b, putCharPhase_mapHidden c k a b s'⟩
  | run i s' => exact exec_mapHidden_exists i a b s'

end Hidden

/-- A step with `busy` set to a value ends as the step without it, with `busy` at some value. -/
theorem step_withBusy (s : State) (b : Bool) :
    ∃ b' : Bool, step { s with fb := { s.fb with busy := b } } =
      mapNext (fun t => { t with fb := { t.fb with busy := b' } }) (step s) := by
  obtain ⟨b', h⟩ := step_mapHidden_exists id (fun _ => b) s
  have h' : step { s with fb := { s.fb with busy := b } } = mapNext (State.mapHidden id b') (step s) := h
  cases hs : step s with
  | next t => exact ⟨b' t.fb.busy, by rw [h', hs]; rfl⟩
  | fault e => exact ⟨b, by rw [h', hs]; rfl⟩
  | refused r => exact ⟨b, by rw [h', hs]; rfl⟩

/-- Settles O23: the two elements are carried through every step, and `busy` follows the flags of `FB.FRAME` and
`FB.RESET`. -/
theorem rxIdleAndBusyAreReadByNothing : Obligations.RxIdleAndBusyAreReadByNothing := by
  refine ⟨fun s b => ⟨step_mapHidden_rxIdle (fun _ => b) s, step_withBusy s b⟩, fun _ => rfl,
    fun s t h => ⟨fun hr hn hc => ?_, fun hb ht => ?_, fun hr => by rw [reset_of_runs h hr]; rfl, fun hb ht => ?_⟩⟩
  · obtain ⟨-, ⟨-, -, hbusy⟩ | ⟨hne, -⟩⟩ := FrameBuffer.frame_flags (frame_of_runs h hr)
    · rw [hbusy, hc, Bool.not_false, Bool.or_true]
    · exact absurd hn hne
  · obtain ⟨hr, hf⟩ | ⟨-, hf⟩ | ⟨-, -, hf⟩ := step_fb_flags h
    · obtain ⟨-, ⟨hn, -, hbusy⟩ | ⟨-, -, hkeep⟩⟩ := FrameBuffer.frame_flags hf
      · rw [hbusy, hb, Bool.false_or, Bool.not_eq_true'] at ht
        exact ⟨hr, hn, ht⟩
      · rw [hkeep, hb] at ht; cases ht
    · rw [hf] at ht; cases ht
    · rw [hf, hb] at ht; cases ht
  · obtain ⟨-, hf⟩ | ⟨hr, -⟩ | ⟨-, -, hf⟩ := step_fb_flags h
    · obtain ⟨-, ⟨-, -, hbusy⟩ | ⟨-, -, hkeep⟩⟩ := FrameBuffer.frame_flags hf
      · rw [hbusy, hb, Bool.true_or] at ht; cases ht
      · rw [hkeep, hb] at ht; cases ht
    · exact hr
    · rw [hf, hb] at ht; cases ht

end Sys2Proof.Machine
end

section
/-! PROOFS. Which storage cell an operation can change: O56 (10_state.md R24, R36; 20_memory.md R61, R62; 49_other_classes.md
R181). -/

namespace Sys2Proof.Machine

/-! ### Cells of a queue -/

section Queue

variable {α : Type} {cap : Nat} {q q' : RingBuffer α}

/-- A write changes the cell it names, to the value it stores, and no other. -/
theorem Cells.of_read_write_ne {m : Cells α} {i a : Nat} {v : α} (h : (Cells.write m i v).read a ≠ m.read a) :
    a = i ∧ (Cells.write m i v).read a = some v := by
  by_cases ha : a = i
  · subst ha
    exact ⟨rfl, Cells.read_write_self m a v⟩
  · exact absurd (Cells.read_write_of_ne m v ha) h

/-- A cell that a `put` changes is the one at the write cursor, and holds the value (R120). -/
theorem RingBuffer.put_changes {v : α} {b : Bool} {a : Nat} (h : q.put cap v = .ok (q', b))
    (hne : Cells.read q'.storage a ≠ Cells.read q.storage a) :
    a = q.writeCursor ∧ Cells.read q'.storage a = some v := by
  obtain ⟨-, rfl, -⟩ | ⟨-, -, -, rfl⟩ := RingBuffer.put_cases h
  · exact absurd rfl hne
  · exact Cells.of_read_write_ne hne

/-- A cell that the receive loop changes is one that a byte of the packet has taken, and holds that byte (R150). -/
theorem RingBuffer.putAll_changes {vs : List α} {a : Nat} (hi : RingBuffer.Inv cap q) (h : q.putAll cap vs = .ok q')
    (hne : Cells.read q'.storage a ≠ Cells.read q.storage a) :
    ∃ j, j < min vs.length (cap - q.count) ∧ a = (q.writeCursor + j) % cap ∧ Cells.read q'.storage a = vs[j]? := by
  induction vs generalizing q with
  | nil =>
    cases h
    exact absurd rfl hne
  | cons v vs ih =>
    obtain ⟨q₁, hput, hi₁⟩ := RingBuffer.put_total v hi
    have hrest : q₁.putAll cap vs = .ok q' := by simpa only [RingBuffer.putAll, hput] using h
    obtain ⟨-, hcnt, -, hwlt, -⟩ := id hi
    by_cases hlater : Cells.read q'.storage a = Cells.read q₁.storage a
    · rw [hlater] at hne ⊢
      obtain ⟨-, rfl, -⟩ | ⟨hroom, -⟩ := RingBuffer.put_cases hput
      · exact absurd rfl hne
      · obtain ⟨ha, hv⟩ := RingBuffer.put_changes hput hne
        refine ⟨0, ?_, ?_, hv⟩
        · simp only [List.length_cons]
          omega
        · rw [Nat.add_zero, Nat.mod_eq_of_lt hwlt, ha]
    · obtain ⟨j, hj, ha, hv⟩ := ih hi₁ hrest hlater
      obtain ⟨hfull, rfl, -⟩ | ⟨hroom, -, -, rfl⟩ := RingBuffer.put_cases hput
      · omega
      · simp only at hj ha
        refine ⟨j + 1, ?_, ?_, hv⟩
        · simp only [List.length_cons]
          omega
        · rw [ha, Nat.mod_add_mod, Nat.add_right_comm, Nat.add_assoc]

/-- The drain loop stores nothing and leaves the write cursor. -/
theorem RingBuffer.drain_frame {n : Nat} {vs : List α} (h : q.drain cap n = .ok (q', vs)) :
    q'.storage = q.storage ∧ q'.writeCursor = q.writeCursor := by
  induction n generalizing q vs with
  | zero =>
    cases h
    exact ⟨rfl, rfl⟩
  | succ n ih =>
    unfold RingBuffer.drain at h
    split at h
    · cases h
    · next q₁ hget =>
      cases h
      obtain ⟨-, rfl, -⟩ | ⟨-, -, -, -, -, rfl⟩ := RingBuffer.get_cases hget <;> exact ⟨rfl, rfl⟩
    · next q₁ v hget =>
      split at h <;> cases h
      next vs' hd =>
      obtain ⟨hs, hw⟩ := ih hd
      obtain ⟨-, rfl, -⟩ | ⟨-, -, -, -, -, rfl⟩ := RingBuffer.get_cases hget <;> exact ⟨hs, hw⟩

end Queue

/-! ### Cells of `tx` -/

section Transmit

variable {s t : State} {c : Byte} {a : Nat}

/-- `submitIfReady` stores nothing and leaves the write cursor of `tx`. -/
theorem submitIfReady_cells (h : submitIfReady s = .ok t) :
    t.st.tx.storage = s.st.tx.storage ∧ t.st.tx.writeCursor = s.st.tx.writeCursor := by
  unfold submitIfReady at h
  split at h
  · split at h
    · cases h
    · next q buf hd => split at h <;> cases h <;> exact RingBuffer.drain_frame hd
  · cases h
    exact ⟨rfl, rfl⟩

theorem commit_changes (h : commit c s = .ok t) (hne : Cells.read t.st.tx.storage a ≠ Cells.read s.st.tx.storage a) :
    a = s.st.tx.writeCursor ∧ Cells.read t.st.tx.storage a = some c := by
  unfold commit at h
  split at h
  · cases h
  · next q b hput =>
    have hst : t.st.tx.storage = q.storage := by
      split at h
      · exact (submitIfReady_cells h).1
      · cases h
        rfl
    rw [hst] at hne ⊢
    exact RingBuffer.put_changes hput hne

theorem putCharPhase_changes {k : Nat} (h : putCharPhase c k s = .next t)
    (hne : Cells.read t.st.tx.storage a ≠ Cells.read s.st.tx.storage a) :
    a = s.st.tx.writeCursor ∧ Cells.read t.st.tx.storage a = some c := by
  obtain ⟨s', s'', hsub, hcom, -, -, rfl⟩ | ⟨j, -, -, rfl⟩ | ⟨s', -, hsub, -, rfl⟩ := putCharPhase_cases h
  · have hs' : s'.st.tx.storage = s.st.tx.storage ∧ s'.st.tx.writeCursor = s.st.tx.writeCursor := by
      rcases hsub with rfl | ⟨-, hsub⟩
      · exact ⟨rfl, rfl⟩
      · exact submitIfReady_cells hsub
    rw [← hs'.1] at hne
    rw [← hs'.2]
    exact commit_changes (t := s'') hcom hne
  · exact absurd rfl hne
  · exact absurd (congrArg (Cells.read · a) (submitIfReady_cells hsub).1) hne

end Transmit

/-! ### Cells of a slot -/

section Slots

variable {p : Params} {f f' : FrameBuffer} {k a : Nat}

theorem FrameBuffer.slotAt_set_data {j : Nat} {sl : Slot} (hj : j < f.slots.length) (hsl : sl.data = (f.slotAt j).data)
    (hs : f'.slots = f.slots.set j sl) : (f'.slotAt k).data = (f.slotAt k).data := by
  rw [FrameBuffer.slotAt_set f.slots hj hs]
  split
  · next e => rw [e, hsl]
  · rfl

/-- Clearing a slot's length leaves its cells, so `FB.FRAME` changes none (R36, R172). -/
theorem FrameBuffer.frame_data (hf : FrameBuffer.Inv p f) (h : f.frame p = .ok f') :
    (f'.slotAt k).data = (f.slotAt k).data := by
  obtain ⟨hlen, -, hw, -⟩ := id hf
  by_cases hn : (f.writeSlot + 1) % p.r = f.readSlot
  · rw [FrameBuffer.frame_overrun hf hn] at h
    cases h
    exact FrameBuffer.slotAt_set_data (by omega) (Slot.cleared_data _) rfl
  · rw [FrameBuffer.frame_advance hf hn] at h
    cases h
    have hlt : (f.writeSlot + 1) % p.r < p.r := Nat.mod_lt _ (by omega)
    exact FrameBuffer.slotAt_set_data (by omega) (Slot.cleared_data _) rfl

/-- `FB.RESET` clears lengths and leaves the cells (R36, R175). -/
theorem FrameBuffer.reset_data (f : FrameBuffer) : (f.reset.slotAt k).data = (f.slotAt k).data := by
  simp only [FrameBuffer.slotAt, FrameBuffer.reset, List.getElem?_map]
  cases f.slots[k]? <;> rfl

/-- A cell that `FB.SAMPLE` changes is the one at the current length of the slot in progress (R62, R171). -/
theorem FrameBuffer.sample_changes {v : Sample} (hf : FrameBuffer.Inv p f) (h : f.sample p v = .ok f')
    (hne : Cells.read (f'.slotAt k).data a ≠ Cells.read (f.slotAt k).data a) :
    k = f.writeSlot ∧ a = (f.slotAt k).length ∧ Cells.read (f'.slotAt k).data a = some v := by
  obtain ⟨hlen, -, hw, -⟩ := id hf
  rw [FrameBuffer.sample_ok v hf] at h
  have hslots := congrArg FrameBuffer.slots (Except.ok.inj h).symm
  rw [FrameBuffer.slotAt_set f.slots (by omega : f.writeSlot < f.slots.length) hslots] at hne ⊢
  by_cases hk : k = f.writeSlot
  · subst hk
    rw [if_pos rfl] at hne ⊢
    split at hne
    · next hroom =>
      rw [if_pos hroom]
      exact ⟨rfl, Cells.of_read_write_ne hne⟩
    · exact absurd rfl hne
  · rw [if_neg hk] at hne
    exact absurd rfl hne

end Slots

/-! ### O56, one storage array at a time -/

section Effects

variable {s t : State} {i : Instr} {a : Nat}

theorem effect_rb0_changes (ha : s.env.origin.accepts i = true) (h : Effect s t i)
    (hne : Cells.read t.rb0.storage a ≠ Cells.read s.rb0.storage a) :
    a = s.rb0.writeCursor ∧ ∃ v, i = .rbPut v ∧ Cells.read t.rb0.storage a = some v := by
  have hkeep := (effect_footprint ha h).rb0
  cases i with
  | rbPut v =>
    obtain ⟨q, b, hput, rfl⟩ := h
    obtain ⟨hcur, hv⟩ := RingBuffer.put_changes hput hne
    exact ⟨hcur, v, rfl, hv⟩
  | rbGet =>
    obtain ⟨q, x, hget, rfl⟩ := h
    exact absurd (congrArg (Cells.read · a) (RingBuffer.get_storage hget)) hne
  | rbIsfull | rbIsempty | rbLength =>
    cases h
    exact absurd rfl hne
  | stPutchar c | stGetchar | stSubmit | stTxdone | stRxpkt pkt | fbTake | fbReset | fbSample v | fbFrame =>
    rw [hkeep (by intro ho; simp [ho, Channel.accepts] at ha) (by intro ho; simp [ho, Channel.accepts] at ha)] at hne
    exact absurd rfl hne

theorem effect_tx_changes (ha : s.env.origin.accepts i = true) (h : Effect s t i)
    (hne : Cells.read t.st.tx.storage a ≠ Cells.read s.st.tx.storage a) :
    a = s.st.tx.writeCursor ∧ ∃ c, i = .stPutchar c ∧ Cells.read t.st.tx.storage a = some c := by
  have hkeep := (effect_footprint ha h).transmit
  cases i with
  | stPutchar c =>
    obtain ⟨-, s', hcom, rfl⟩ | ⟨-, rfl⟩ := h
    · obtain ⟨hcur, hv⟩ := commit_changes (t := s') hcom hne
      exact ⟨hcur, c, rfl, hv⟩
    · exact absurd rfl hne
  | stGetchar =>
    obtain ⟨q, x, -, rfl⟩ := h
    exact absurd rfl hne
  | stSubmit =>
    obtain ⟨s', hsub, rfl⟩ := h
    exact absurd (congrArg (Cells.read · a) (submitIfReady_cells hsub).1) hne
  | stTxdone => exact absurd (congrArg (Cells.read · a) (submitIfReady_cells h).1) hne
  | rbPut v | rbGet | rbIsfull | rbIsempty | rbLength | stRxpkt pkt | fbTake | fbReset | fbSample v | fbFrame =>
    obtain ⟨htx, -, -⟩ :=
      hkeep (by intro ho; simp [ho, Channel.accepts] at ha) (by intro ho; simp [ho, Channel.accepts] at ha)
    rw [htx] at hne
    exact absurd rfl hne

theorem effect_rx_changes (hrx : RingBuffer.Inv s.params.rxCap s.st.rx) (ha : s.env.origin.accepts i = true)
    (h : Effect s t i) (hne : Cells.read t.st.rx.storage a ≠ Cells.read s.st.rx.storage a) :
    ∃ pkt j, i = .stRxpkt pkt ∧ j < min pkt.length (s.params.rxCap - s.st.rx.count) ∧
      a = (s.st.rx.writeCursor + j) % s.params.rxCap ∧ Cells.read t.st.rx.storage a = pkt[j]? := by
  have hkeep := (effect_footprint ha h).rx
  cases i with
  | stRxpkt pkt =>
    obtain ⟨q, hall, rfl⟩ := h
    obtain ⟨j, hj⟩ := RingBuffer.putAll_changes hrx hall hne
    exact ⟨pkt, j, rfl, hj⟩
  | stGetchar =>
    obtain ⟨q, x, hget, rfl⟩ := h
    exact absurd (congrArg (Cells.read · a) (RingBuffer.get_storage hget)) hne
  | stPutchar c =>
    obtain ⟨-, s', hcom, rfl⟩ | ⟨-, rfl⟩ := h
    · exact absurd (congrArg (Cells.read ·.storage a) (commit_transmitOnly hcom).rx) hne
    · exact absurd rfl hne
  | stSubmit =>
    obtain ⟨s', hsub, rfl⟩ := h
    exact absurd (congrArg (Cells.read ·.storage a) (submitIfReady_transmitOnly hsub).rx) hne
  | rbPut v | rbGet | rbIsfull | rbIsempty | rbLength | stTxdone | fbTake | fbReset | fbSample v | fbFrame =>
    rw [hkeep (by intro ho; simp [ho, Channel.accepts] at ha) (by intro ho; simp [ho, Channel.accepts] at ha)] at hne
    exact absurd rfl hne

end Effects

/-- A `putChar` that the next step issues offers its byte. -/
theorem State.offeredByte_of_runs {s : State} {c : Byte} (h : s.runs (.stPutchar c)) : s.offeredByte = some c := by
  obtain ⟨s', hn, hl⟩ := h
  simp only [State.offeredByte, hn, hl, if_true]

/-- A `putChar` in a later phase offers its byte. -/
theorem State.offeredByte_of_phase {s s' : State} {c : Byte} {k : Nat} (hn : nextTurn s = .phase c k s') :
    s.offeredByte = some c := by
  simp only [State.offeredByte, hn]

/-- The cells of the slots over a step from a state with the invariant. -/
theorem step_slot_changes {s t : State} {k a : Nat} (hf : FrameBuffer.Inv s.params s.fb) (h : step s = .next t)
    (hne : Cells.read (t.fb.slotAt k).data a ≠ Cells.read (s.fb.slotAt k).data a) :
    k = s.fb.writeSlot ∧ a = (s.fb.slotAt k).length ∧
      ∃ v, s.runs (.fbSample v) ∧ Cells.read (t.fb.slotAt k).data a = some v := by
  obtain ⟨-, hframe⟩ | ⟨-, e⟩ | ⟨-, r, htake⟩ | ⟨v, hr, hsample⟩ | e := step_fb_cases h
  · exact absurd (congrArg (Cells.read · a) (FrameBuffer.frame_data hf hframe)) hne
  · rw [e, FrameBuffer.reset_data] at hne
    exact absurd rfl hne
  · obtain ⟨j, e⟩ := FrameBuffer.take_cases htake
    rw [e] at hne
    exact absurd rfl hne
  · obtain ⟨hk, ha, hv⟩ := FrameBuffer.sample_changes hf hsample hne
    exact ⟨hk, ha, v, hr, hv⟩
  · rw [e] at hne
    exact absurd rfl hne

/-- Settles O56: a phase stores at most its byte in `tx`, an operation what its own storage forms store, and every other step
nothing. -/
theorem cellsChangeOnlyWhereAnOperationStores : Obligations.CellsChangeOnlyWhereAnOperationStores := by
  intro s t hs h
  have hsb := hs.butIdle
  have hslot := fun k a => step_slot_changes (k := k) (a := a) hsb.fb h
  obtain ⟨-, e, rfl⟩ | ⟨_, _, c, k, -, -, -, hn, ht⟩ | ⟨ch, _, i, rest, -, -, hn, hl, he⟩ := step_kinds h
  · exact ⟨fun a hne => absurd rfl hne, fun a hne => absurd rfl hne, fun a hne => absurd rfl hne, hslot⟩
  · have hw := putCharPhase_transmitOnly ht
    refine ⟨fun a hne => ?_, fun a hne => ?_, fun a hne => ?_, hslot⟩
    · exact absurd (congrArg (Cells.read ·.storage a) hw.rb0) hne
    · obtain ⟨ha, hv⟩ := putCharPhase_changes ht hne
      exact ⟨ha, c, State.offeredByte_of_phase hn, hv⟩
    · exact absurd (congrArg (Cells.read ·.storage a) hw.rx) hne
  · have hr : s.runs i := ⟨_, hn, hl⟩
    have hacc := (State.legal_iff.mp hl).1
    refine ⟨fun a hne => ?_, fun a hne => ?_, fun a hne => ?_, hslot⟩
    · obtain ⟨ha, v, rfl, hv⟩ := effect_rb0_changes hacc he hne
      exact ⟨ha, v, hr, hv⟩
    · obtain ⟨ha, c, rfl, hv⟩ := effect_tx_changes hacc he hne
      exact ⟨ha, c, State.offeredByte_of_runs hr, hv⟩
    · obtain ⟨pkt, j, rfl, hj⟩ := effect_rx_changes (s := s.accept ch rest) hsb.rx hacc he hne
      exact ⟨pkt, j, hr, hj⟩

end Sys2Proof.Machine
end

section
/-! PROOFS. A turn without a complete request is used up and changes nothing else: O12 (20_memory.md R71, 30_encoding.md R107,
logs 2 and 17). -/

namespace Sys2Proof.Machine

/-- The state after the turn at the head of the schedule, as `State.accept_of_schedule` gives the one after an acceptance. -/
theorem State.popTurn_of_schedule {s : State} {ch : Channel} {turns : List Channel} (hs : s.env.schedule = ch :: turns) :
    s.popTurn = { s with env := { s.env with schedule := turns } } := by
  simp only [State.popTurn, hs, List.tail_cons]

/-- Settles O12: nobody's turn is `step_of_no_turn`, and a free agent's turn without a complete request is `turnOf_idle`,
which only uses the turn up. -/
theorem idleTurnsChangeNothing : Obligations.IdleTurnsChangeNothing := by
  intro s
  refine ⟨step_of_no_turn, fun ch turns hs hfree hd => ?_⟩
  rw [← State.popTurn_of_schedule hs]
  simp only [step, nextTurn_of_schedule hs, turnOf_idle hfree hd]

end Sys2Proof.Machine
end

section
/-! PROOFS. A legal header word stands for one operation or one packet, and no operation has a second encoding: O1 and O2
(30_encoding.md R92 to R96, R103, R105, R107). -/

namespace Sys2Proof

/-- Settles O1: it is `decode_encode`. -/
theorem decodeOfEncode : Obligations.DecodeOfEncode := fun _ _ rest hp hwf => decode_encode rest hp hwf

/-! ### What a legal header word stands for -/

/-- The header word `w` stands for a header: it is the one word of a well-formed operation, or it announces a packet of `n`
payload words (R93 to R95). -/
inductive Header.StandsFor (p : Params) (w : Word) : Header → Prop
  | op {i : Instr} (hwf : wellFormed p i = true) (he : encode i = [w]) : StandsFor p w (.op i)
  | packet {n : Nat} (hmax : n ≤ p.maxPkt) (hn : n < 256) (hw : w = headerWord 2 9 (BitVec.ofNat 16 n)) :
      StandsFor p w (.packet n)

/-- An argument whose upper half is zero is the byte in its lower half (R94, R95). -/
theorem setWidth_low_of_high_eq_zero {a : BitVec 16} (ha : a.extractLsb' 8 8 = 0) :
    (a.extractLsb' 0 8).setWidth 16 = a := by
  calc (a.extractLsb' 0 8).setWidth 16
      = 0#8 ++ a.extractLsb' 0 8 := BitVec.setWidth_eq_append (by omega)
    _ = a.extractLsb' 8 8 ++ a.extractLsb' 0 8 := by rw [ha]; rfl
    _ = a.extractLsb' 0 16 := BitVec.extractLsb'_append_extractLsb'_eq_extractLsb' rfl
    _ = a := BitVec.extractLsb'_eq_self

/-- A header word whose reserved field is zero is put together from its fields. -/
theorem exists_headerWord_of_z_eq_zero {w : Word} (hz : zOf w = 0) : ∃ u o a, w = headerWord u o a :=
  ⟨_, _, _, (headerWord_fields w hz).symm⟩

theorem eq_ofNat_of_toNat_eq {n k : Nat} {x : BitVec n} (h : x.toNat = k) : x = BitVec.ofNat n k := by
  rw [← h, BitVec.ofNat_toNat, BitVec.setWidth_eq]

section Formats

/-! One lemma per format: a legal word of the row `UNIT = m`, `OP = k` stands for what the row's decoder answers. -/

variable {p : Params} {u o : BitVec 4} {a : BitVec 16} {hd : Header} {m k : Nat}

theorem standsFor_of_decodeN {i : Instr} (hu : u.toNat = m) (ho : o.toNat = k) (hwf : wellFormed p i = true)
    (he : encode i = [headerWord (.ofNat 4 m) (.ofNat 4 k) 0]) (h : decodeN (headerWord u o a) i = .ok hd) :
    hd.StandsFor p (headerWord u o a) := by
  rw [eq_ofNat_of_toNat_eq hu, eq_ofNat_of_toNat_eq ho] at h ⊢
  simp only [decodeN, argOf_headerWord] at h
  split at h <;> cases h
  next ha => exact .op hwf (ha ▸ he)

theorem standsFor_of_decodeV {bound : Nat} {mk : BitVec 16 → Instr} (hu : u.toNat = m) (ho : o.toNat = k)
    (hwf : a.toNat < bound → wellFormed p (mk a) = true) (he : encode (mk a) = [headerWord (.ofNat 4 m) (.ofNat 4 k) a])
    (h : decodeV (headerWord u o a) bound mk = .ok hd) : hd.StandsFor p (headerWord u o a) := by
  rw [eq_ofNat_of_toNat_eq hu, eq_ofNat_of_toNat_eq ho] at h ⊢
  simp only [decodeV, argOf_headerWord] at h
  split at h <;> cases h
  next ha => exact .op (hwf ha) he

theorem standsFor_of_decodeByte {mk : Byte → Instr} (hu : u.toNat = m) (ho : o.toNat = k)
    (hwf : ∀ c, wellFormed p (mk c) = true)
    (he : ∀ c, encode (mk c) = [headerWord (.ofNat 4 m) (.ofNat 4 k) (c.setWidth 16)])
    (h : decodeByte (headerWord u o a) mk = .ok hd) : hd.StandsFor p (headerWord u o a) := by
  rw [eq_ofNat_of_toNat_eq hu, eq_ofNat_of_toNat_eq ho] at h ⊢
  simp only [decodeByte, argHigh_headerWord, argLow_headerWord] at h
  split at h <;> cases h
  next ha => exact .op (hwf _) (by rw [he, setWidth_low_of_high_eq_zero ha])

theorem standsFor_of_decodeL (hu : u.toNat = 2) (ho : o.toNat = 9) (h : decodeL (headerWord u o a) p.maxPkt = .ok hd) :
    hd.StandsFor p (headerWord u o a) := by
  rw [eq_ofNat_of_toNat_eq hu, eq_ofNat_of_toNat_eq ho] at h ⊢
  simp only [decodeL, argHigh_headerWord, argLow_headerWord] at h
  split at h
  · next ha =>
    split at h <;> cases h
    next hmax =>
      refine .packet hmax (BitVec.isLt _) ?_
      rw [ofNat_eq_setWidth_byte (BitVec.isLt _), BitVec.ofNat_toNat, BitVec.setWidth_eq, setWidth_low_of_high_eq_zero ha]
      rfl
  · cases h

end Formats

/-- Everything a legal header word can be, by the rows of R103. -/
theorem standsFor_of_decodeHeader {p : Params} {w : Word} {hd : Header} (h : decodeHeader p w = .ok hd) :
    hd.StandsFor p w := by
  unfold decodeHeader at h
  split at h
  · cases h
  next hz =>
  obtain ⟨u, o, a, rfl⟩ := exists_headerWord_of_z_eq_zero (not_not.mp hz)
  rw [unitOf_headerWord, opOf_headerWord] at h
  split at h
  · next hu =>
    split at h
    · next ho => exact standsFor_of_decodeV hu ho decide_eq_true rfl h
    · next ho => exact standsFor_of_decodeN hu ho rfl rfl h
    · next ho => exact standsFor_of_decodeN hu ho rfl rfl h
    · next ho => exact standsFor_of_decodeN hu ho rfl rfl h
    · next ho => exact standsFor_of_decodeN hu ho rfl rfl h
    · cases h
  · next hu =>
    split at h
    · next ho => exact standsFor_of_decodeByte hu ho (fun _ => rfl) (fun _ => rfl) h
    · next ho => exact standsFor_of_decodeN hu ho rfl rfl h
    · next ho => exact standsFor_of_decodeN hu ho rfl rfl h
    · next ho => exact standsFor_of_decodeN hu ho rfl rfl h
    · next ho => exact standsFor_of_decodeL hu ho h
    · cases h
  · next hu =>
    split at h
    · next ho => exact standsFor_of_decodeN hu ho rfl rfl h
    · next ho => exact standsFor_of_decodeN hu ho rfl rfl h
    · next ho => exact standsFor_of_decodeV hu ho decide_eq_true rfl h
    · next ho => exact standsFor_of_decodeN hu ho rfl rfl h
    · cases h
  · cases h

/-! ### No operation has a second encoding -/

/-- Payload words that read as bytes are as many as the bytes. -/
theorem payloadBytes_take {t : List Word} {n : Nat} {bs : List Byte} (hn : n ≤ t.length)
    (h : payloadBytes (t.take n) = some bs) : bs.length = n ∧ t = bs.map payloadWord ++ t.drop n := by
  have htake := payloadBytes_eq_some.mp h
  constructor
  · rw [← List.length_map payloadWord, ← htake, List.length_take, Nat.min_eq_left hn]
  · rw [← htake, List.take_append_drop]

/-- Words that begin with an operation begin with its one header word, or with a packet's header and its payload words. -/
theorem decode_eq_op {p : Params} {ws rest : List Word} {i : Instr} (h : decode p ws = some (.op i, rest)) :
    (∃ w, ws = w :: rest ∧ decodeHeader p w = .ok (.op i)) ∨
    ∃ w bs, i = .stRxpkt bs ∧ ws = w :: (bs.map payloadWord ++ rest) ∧ decodeHeader p w = .ok (.packet bs.length) := by
  cases ws with
  | nil => cases h
  | cons w t =>
    simp only [decode] at h
    split at h
    · cases h
    · next hw => cases h; exact .inl ⟨w, rfl, hw⟩
    · next n hw =>
      split at h
      · next hn =>
        split at h <;> cases h
        next bs hbs =>
          obtain ⟨rfl, ht⟩ := payloadBytes_take hn hbs
          exact .inr ⟨w, bs, rfl, congrArg (w :: ·) ht, hw⟩
      · cases h

/-- Settles O2: the header stands for the operation or for its packet's length, and the payload words are the bytes'. -/
theorem encodeOfDecode : Obligations.EncodeOfDecode := by
  intro p ws i rest h
  obtain ⟨w, rfl, hw⟩ | ⟨w, bs, rfl, rfl, hw⟩ := decode_eq_op h
  · cases standsFor_of_decodeHeader hw with
    | op hwf he => exact ⟨hwf, by rw [he, List.singleton_append]⟩
  · cases standsFor_of_decodeHeader hw with
    | packet hmax hn he => exact ⟨decide_eq_true hmax, by rw [he, encode, List.cons_append]⟩

end Sys2Proof
end

section
/-! PROOFS. The illegal header words are exactly those outside the map, and its rows are disjoint: O3 and O4 (30_encoding.md
R103, R105). -/

namespace Sys2Proof

/-! ### The illegal header words -/

section Fields

/-! The bits of a header word as R92 numbers them, for statements that do not use the decoder's names for its fields. -/

variable (u o : BitVec 4) (a : BitVec 16)

@[simp] theorem extractLsb'_unit_headerWord : (headerWord u o a).extractLsb' 28 4 = u :=
  BitVec.eq_of_toNat_eq (unitOf_headerWord u o a)

@[simp] theorem extractLsb'_op_headerWord : (headerWord u o a).extractLsb' 24 4 = o :=
  BitVec.eq_of_toNat_eq (opOf_headerWord u o a)

@[simp] theorem extractLsb'_z_headerWord : (headerWord u o a).extractLsb' 16 8 = 0 := zOf_headerWord u o a

@[simp] theorem extractLsb'_arg_headerWord : (headerWord u o a).extractLsb' 0 16 = a := argOf_headerWord u o a

@[simp] theorem extractLsb'_argLow_headerWord : (headerWord u o a).extractLsb' 0 8 = a.extractLsb' 0 8 :=
  argLow_headerWord u o a

@[simp] theorem extractLsb'_argHigh_headerWord : (headerWord u o a).extractLsb' 8 8 = a.extractLsb' 8 8 :=
  argHigh_headerWord u o a

end Fields

theorem decodeHeader_eq_error_iff {p : Params} {w : Word} :
    (∃ e, decodeHeader p w = .error e) ↔ ¬ ∃ hd, decodeHeader p w = .ok hd := by
  cases decodeHeader p w <;> simp

/-- A packet's length as the header's low byte (R95). -/
theorem toNat_low_ofNat {n : Nat} (hn : n < 256) : ((BitVec.ofNat 16 n).extractLsb' 0 8).toNat = n := by
  rw [ofNat_eq_setWidth_byte hn, extractLsb'_low_setWidth, BitVec.toNat_ofNat, Nat.mod_eq_of_lt hn]

theorem high_ofNat_eq_zero {n : Nat} (hn : n < 256) : (BitVec.ofNat 16 n).extractLsb' 8 8 = 0 := by
  rw [ofNat_eq_setWidth_byte hn, extractLsb'_high_setWidth]

/-- Settles O3: the legal words are those some operation or packet header stands for, and each row's words are legal. -/
theorem illegalHeaderWords : Obligations.IllegalHeaderWords := by
  intro p w
  rw [decodeHeader_eq_error_iff, not_iff_not]
  constructor
  · rintro ⟨hd, h⟩
    cases standsFor_of_decodeHeader h with
    | @op i hwf he =>
      cases i with
      | rbPut v | fbSample v => cases he; simpa [wellFormed] using hwf
      | stRxpkt pkt => cases pkt with
        | nil => cases he; simp
        | cons b bs => cases he
      | stPutchar | rbGet | rbIsfull | rbIsempty | rbLength | stGetchar | stSubmit | stTxdone | fbTake | fbReset
      | fbFrame => cases he; simp
    | packet hmax hn hw => subst hw; simp [toNat_low_ofNat hn, high_ofNat_eq_zero hn, hmax]
  · rintro ⟨hz, hrow⟩
    obtain ⟨u, o, a, rfl⟩ := exists_headerWord_of_z_eq_zero hz
    simp only [extractLsb'_unit_headerWord, extractLsb'_op_headerWord, extractLsb'_arg_headerWord,
      extractLsb'_argLow_headerWord, extractLsb'_argHigh_headerWord, List.mem_cons, List.not_mem_nil, or_false] at hrow
    obtain ⟨rfl, ⟨rfl, hv⟩ | ⟨ho, rfl⟩⟩ | ⟨rfl, ⟨rfl, ha⟩ | ⟨ho, rfl⟩ | ⟨rfl, ha, hn⟩⟩ |
      ⟨rfl, ⟨ho, rfl⟩ | ⟨rfl, hv⟩⟩ := hrow
    · simp [decodeHeader, decodeV, hv]
    · obtain ho | ho | ho | ho := ho <;> simp [decodeHeader, ho, decodeN]
    · simp [decodeHeader, decodeByte, ha]
    · obtain ho | ho | ho := ho <;> simp [decodeHeader, ho, decodeN]
    · simp only [decodeHeader, zOf_headerWord, unitOf_headerWord, opOf_headerWord, decodeL, argHigh_headerWord, ha,
        argLow_headerWord, hn]
      exact ⟨_, rfl⟩
    · obtain ho | ho | ho := ho <;> simp [decodeHeader, ho, decodeN]
    · simp [decodeHeader, decodeV, hv]

/-! ### The rows of the map (R103) -/

/-- One operation on each row. -/
def rowOperations : List Instr :=
  [.rbPut 0, .rbGet, .rbIsfull, .rbIsempty, .rbLength, .stPutchar 0, .stGetchar, .stSubmit, .stTxdone, .stRxpkt [],
    .fbTake, .fbReset, .fbSample 0, .fbFrame]

theorem exists_rowOperation (i : Instr) : ∃ j ∈ rowOperations, opcodeRow i = opcodeRow j := by
  cases i with
  | rbPut v => exact ⟨.rbPut 0, by decide, rfl⟩
  | stPutchar c => exact ⟨.stPutchar 0, by decide, rfl⟩
  | stRxpkt pkt => exact ⟨.stRxpkt [], by decide, rfl⟩
  | fbSample v => exact ⟨.fbSample 0, by decide, rfl⟩
  | rbGet | rbIsfull | rbIsempty | rbLength | stGetchar | stSubmit | stTxdone | fbTake | fbReset | fbFrame =>
    exact ⟨_, by decide, rfl⟩

/-- Rows whose match values agree on the bits that both masks look at are one row. -/
theorem row_eq_of_match_eq : ∀ i ∈ rowOperations, ∀ j ∈ rowOperations,
    (opcodeRow i).1 &&& (opcodeRow j).2 = (opcodeRow j).1 &&& (opcodeRow i).2 → opcodeRow i = opcodeRow j := by
  decide

theorem row_eq_of_selectsRow {w : Word} {i j : Instr} (hi : selectsRow w i) (hj : selectsRow w j) :
    opcodeRow i = opcodeRow j := by
  have hmatch : (opcodeRow i).1 &&& (opcodeRow j).2 = (opcodeRow j).1 &&& (opcodeRow i).2 := by
    rw [← hi, ← hj, BitVec.and_assoc, BitVec.and_assoc, BitVec.and_comm (opcodeRow i).2]
  obtain ⟨i', hi', ei⟩ := exists_rowOperation i
  obtain ⟨j', hj', ej⟩ := exists_rowOperation j
  rw [ei, ej] at hmatch ⊢
  exact row_eq_of_match_eq i' hi' j' hj' hmatch

/-- Every operation whose length a header can count is encoded on its own row. -/
theorem encodesOnRow (i : Instr) : Laws.EncodesOnRow.Statement i := by
  cases i with
  | rbPut v => exact Laws.EncodesOnRow.rbPut v
  | rbGet => exact Laws.EncodesOnRow.rbGet
  | rbIsfull => exact Laws.EncodesOnRow.rbIsfull
  | rbIsempty => exact Laws.EncodesOnRow.rbIsempty
  | rbLength => exact Laws.EncodesOnRow.rbLength
  | stPutchar c => exact Laws.EncodesOnRow.stPutchar c
  | stGetchar => exact Laws.EncodesOnRow.stGetchar
  | stSubmit => exact Laws.EncodesOnRow.stSubmit
  | stTxdone => exact Laws.EncodesOnRow.stTxdone
  | stRxpkt pkt => exact Laws.EncodesOnRow.stRxpkt pkt
  | fbTake => exact Laws.EncodesOnRow.fbTake
  | fbReset => exact Laws.EncodesOnRow.fbReset
  | fbSample v => exact Laws.EncodesOnRow.fbSample v
  | fbFrame => exact Laws.EncodesOnRow.fbFrame

/-- The header word of an operation of one word selects the operation's row. -/
theorem selectsRow_of_encode {i : Instr} {w : Word} (he : encode i = [w]) : selectsRow w i := by
  obtain ⟨w', t, he', hrow⟩ := encodesOnRow i fun pkt hi => by
    have hlen := congrArg List.length he
    rw [hi, encode, List.length_cons, List.length_map, List.length_singleton] at hlen
    omega
  rw [he] at he'
  cases he'
  exact hrow

/-- Settles O4: the two masks agree on what the word shows of both rows, and a legal header is an encoding's. -/
theorem rowsAreDisjoint : Obligations.RowsAreDisjoint := by
  refine ⟨fun w i j hi hj => row_eq_of_selectsRow hi hj, fun p w i h => ?_, fun p w n h => ?_⟩
  · cases standsFor_of_decodeHeader h with
    | op hwf he => exact selectsRow_of_encode he
  · cases standsFor_of_decodeHeader h with
    | packet hmax hn hw =>
      subst hw
      refine ⟨Laws.headerWord_mask_byte 2 9 _ (by rw [BitVec.toNat_ofNat]; omega), ?_⟩
      rw [extractLsb'_argLow_headerWord, toNat_low_ofNat hn]

end Sys2Proof
end

section
/-! PROOFS. A packet's payload words, and words written out from the map: O5 and O6 (30_encoding.md R95, R96, R103, R107). -/

namespace Sys2Proof

theorem decodeHeader_packet {p : Params} {n : Nat} (hn : n ≤ p.maxPkt) (hp : p.maxPkt ≤ 255) :
    decodeHeader p (headerWord 2 9 (BitVec.ofNat 16 n)) = .ok (.packet n) := by
  simp [decodeHeader, decodeL_headerWord, hn, hp]

theorem payloadBytes_of_wellFormed {ws : List Word} (h : ∀ w ∈ ws, w.extractLsb' 8 24 = 0) :
    payloadBytes ws = some (ws.map (BitVec.extractLsb' 0 8)) := by
  refine payloadBytes_eq_some.mpr ?_
  rw [List.map_map, eq_comm, List.map_congr_left (g := id), List.map_id]
  exact fun w hw => (payloadByte_eq_some.mp (by simp [payloadByte, h w hw])).symm

theorem payloadBytes_of_malformed {ws : List Word} (h : ∃ w ∈ ws, w.extractLsb' 8 24 ≠ 0) : payloadBytes ws = none := by
  obtain ⟨w, hw, hbits⟩ := h
  refine Option.eq_none_iff_forall_ne_some.mpr fun bs hbs => ?_
  rw [payloadBytes_eq_some.mp hbs] at hw
  obtain ⟨b, -, rfl⟩ := List.mem_map.mp hw
  have hnone : payloadByte (payloadWord b) = none := if_neg hbits
  rw [payloadByte_payloadWord] at hnone
  cases hnone

/-- Settles O5: the header announces `n` words, and their bytes are read, or one of them is malformed, or they are not all
there. -/
theorem packetPayloadIsCountedOff : Obligations.PacketPayloadIsCountedOff := by
  intro p n t hn hp
  have hh := decodeHeader_packet hn hp
  generalize headerWord 2 9 (BitVec.ofNat 16 n) = h at hh ⊢
  refine ⟨fun hlt => ?_, fun hle hbad => ?_, fun hle hgood => ?_⟩
  · simp only [decode, hh, if_neg (Nat.not_le.mpr hlt)]
  · simp only [decode, hh, if_pos hle, payloadBytes_of_malformed hbad]
  · simp only [decode, hh, if_pos hle, payloadBytes_of_wellFormed hgood]

/-- Settles O6: five of the word sequences begin with encodings, and the sixth is a header whose value is out of range. -/
theorem sampleWordsDecode : Obligations.SampleWordsDecode :=
  ⟨decode_encode (i := .rbPut 255) [] (by decide) (by decide),
    decode_encode (i := .stPutchar 0x41) [] (by decide) (by decide),
    decode_encode (i := .stRxpkt [0x78, 0x79]) [0x21000000] (by decide) (by decide),
    decode_encode (i := .fbSample 0x1234) [] (by decide) (by decide),
    decode_encode (i := .fbFrame) [] (by decide) (by decide),
    decode_bad (by decide)⟩

end Sys2Proof
end

section
/-! PROOFS. Response words and transmit event words: O7 and O8 (30_encoding.md R97, R98, R101, R105). -/

namespace Sys2Proof.Machine

/-- A response word is its status in the top bits and its value in the low ones (R97). -/
theorem responseWord_eq_or (status : BitVec 4) (val : BitVec 16) :
    responseWord status val = responseWord status 0 ||| val.setWidth 32 := by
  refine BitVec.eq_of_getLsbD_eq fun i hi => ?_
  simp only [responseWord, BitVec.getLsbD_or, BitVec.getLsbD_append, BitVec.getLsbD_setWidth, hi]
  by_cases h : i < 16
  · simp [h]
  · simp [h, BitVec.getLsbD_of_ge val i (by omega)]

/-- With status `OK` the word is its value (R97, R201). -/
theorem responseWord_zero_ofNat {v : Nat} (hv : v < 65536) :
    responseWord 0 (BitVec.ofNat 16 v) = BitVec.ofNat 32 v := by
  have hzero : responseWord 0 0 = 0#32 := by decide
  rw [responseWord_eq_or, hzero, BitVec.zero_or, BitVec.setWidth_ofNat_of_le_of_lt (by omega) hv]

/-- A result whose value fits has the word of its status and value, followed by its payload (R97, R98). -/
theorem Result.words_of_value_lt {p : Params} {r : Result} (h : r.value p < 65536) :
    r.words p = some (responseWord r.status (BitVec.ofNat 16 (r.value p)) :: r.payload) := if_pos h

theorem Result.words_of_no_value {p : Params} {r : Result} (hv : r.value p = 0) (hp : r.payload = []) :
    r.words p = some [responseWord r.status 0] := by
  rw [Result.words_of_value_lt (by omega), hv, hp]
  rfl

/-- Settles O7: a result without a value has its status alone, `EMPTY` the sentinel beside it, and a value or a frame's length
stands under status `OK`. -/
theorem responseWords : Obligations.ResponseWords := by
  intro p
  refine ⟨Result.words_of_no_value rfl rfl, Result.words_of_no_value rfl rfl, ?_, Result.words_of_no_value rfl rfl,
    Result.words_of_no_value rfl rfl, Result.words_of_no_value rfl rfl, Result.words_of_no_value rfl rfl, fun v hv => ?_,
    fun samples hs => ?_⟩
  · have hstatus : responseWord 2 0 = (0x20000000 : Word) := by decide
    rw [Result.words_of_value_lt (BitVec.isLt _), Result.value, BitVec.ofNat_toNat, BitVec.setWidth_eq, Result.status,
      responseWord_eq_or, hstatus, Result.payload]
  · rw [Result.words_of_value_lt (r := .okValue v) hv, Result.status, Result.value, responseWord_zero_ofNat hv,
      Result.payload]
  · rw [Result.words_of_value_lt (r := .okFrame samples) hs, Result.status, Result.value, responseWord_zero_ofNat hs,
      Result.payload]

/-! ### Transmit events -/

theorem toNat_append_eq_add {m n : Nat} (x : BitVec m) (y : BitVec n) :
    (x ++ y).toNat = x.toNat * 2 ^ n + y.toNat := by
  rw [BitVec.toNat_append, ← Nat.shiftLeft_add_eq_or_of_lt y.isLt, Nat.shiftLeft_eq]

/-- A header word as a number: its fields at their places (R92). -/
theorem headerWord_eq_ofNat (u o : BitVec 4) (a : BitVec 16) :
    headerWord u o a = BitVec.ofNat 32 (u.toNat * 2 ^ 28 + o.toNat * 2 ^ 24 + a.toNat) := by
  refine BitVec.eq_of_toNat_eq ?_
  simp only [headerWord, toNat_append_eq_add, BitVec.toNat_ofNat]
  omega

/-- Settles O8: the words are the model's with the header read as a number; unit 2 has no row for `OP` 15. -/
theorem transmitEventWords : Obligations.TransmitEventWords := by
  intro p buf hlen
  have hhead : headerWord 0x2 0xF (BitVec.ofNat 16 buf.length) = BitVec.ofNat 32 (0x2F000000 + buf.length) := by
    rw [headerWord_eq_ofNat, BitVec.toNat_ofNat, Nat.mod_eq_of_lt (by omega)]
    rfl
  rw [← hhead]
  exact ⟨rfl, by simp [decodeHeader]⟩

end Sys2Proof.Machine
end

section
/-! PROOFS. An illegal or misdirected request changes nothing but its answer: O11 (30_encoding.md R99, R100, R102, R105,
60_exceptions.md R208, log 6). -/

namespace Sys2Proof.Machine

variable {s : State} {ch : Channel}

/-- A step on a turn whose request is no operation, or one that its channel does not take, accepts the request and answers
it `ILLEGAL`. -/
theorem step_of_not_accepted {turns : List Channel} {req : Request} {rest : List Word} (hs : s.env.schedule = ch :: turns)
    (hfree : ch.agent ≠ .mainLoop ∨ s.st.putSeq = .idle) (hd : decode s.params (s.env.ports.get ch) = some (req, rest))
    (hreq : ∀ i, req = .op i → ch.accepts i = false) : step s = .next (s.accept ch rest).answerIllegal := by
  cases req with
  | bad e => simp only [step, nextTurn_of_schedule hs, turnOf_illegal hfree hd]
  | op i =>
    have hl : (s.accept ch rest).legal i = false := by simp [State.legal, hreq i rfl]
    simp only [step, nextTurn_of_schedule hs, turnOf_run hfree hd, exec_illegal hl]

/-- What a channel has been answered after one more answer: an event input never any (R99, R110). -/
theorem Answers.get_push (a : Answers) (ch : Channel) (r : Result) :
    (a.push ch r).get ch = if ch.answers then a.get ch ++ [r] else [] := by
  cases ch <;> rfl

/-- Settles O11: the next state is the acceptance answered `ILLEGAL`, which touches the environment alone. -/
theorem illegalRequestsChangeNothing : Obligations.IllegalRequestsChangeNothing := by
  intro s ch turns req rest hs hfree hd hreq
  refine ⟨_, step_of_not_accepted hs hfree hd hreq, rfl, rfl, rfl, rfl, rfl, ?_, rfl, ?_, fun ch' hne => ?_⟩
  · rw [State.accept_of_schedule rest hs]; rfl
  · exact Answers.get_push s.env.answers ch .illegal
  · exact Answers.get_push_of_ne s.env.answers .illegal hne

end Sys2Proof.Machine
end

section
/-! PROOFS. The meanings of unit U1's operations as whole next states: O24 to O27 (40_ringbuffer.md R120 to R124, 60_exceptions.md
R202). -/

namespace Sys2Proof.Machine

variable {s : State}

/-- `RB.PUT` of a value in range from the producer role is `put` on RB0, answered by what `put` answers. -/
theorem exec_rbPut {v : Elem} {q : RingBuffer Elem} {b : PutAnswer} (ho : s.env.origin = .rbP)
    (hv : v.toNat < 2 ^ s.params.w) (h : s.rb0.put s.params.cap v = .ok (q, b)) :
    exec (.rbPut v) s = .next ((s.withRb0 q).respond (if b then .ok else .full)) := by
  have hl : s.legal (.rbPut v) = true := State.legal_iff.mpr ⟨by rw [ho]; rfl, decide_eq_true hv⟩
  simp only [exec, execRbPut, perform_of_role (.inl ho) hl, h]

/-- `RB.GET` from the consumer role is `get` on RB0, answered by what `get` answers. -/
theorem exec_rbGet {q : RingBuffer Elem} {a : Option Elem} (ho : s.env.origin = .rbC)
    (h : s.rb0.get s.params.cap = .ok (q, a)) :
    exec .rbGet s = .next ((s.withRb0 q).respond (a.elim .empty fun v => .okValue v.toNat)) := by
  have hl : s.legal .rbGet = true := State.legal_iff.mpr ⟨by rw [ho]; rfl, rfl⟩
  cases a with
  | none => simp only [exec, execRbGet, perform_of_role (.inr ho) hl, h, Option.elim_none]
  | some v => simp only [exec, execRbGet, perform_of_role (.inr ho) hl, h, Option.elim_some]

/-- RB0 written and the producer role answered: beside RB0 only the answers on `rb_p` change. -/
theorem State.withRb0_respond_of_rbP (ho : s.env.origin = .rbP) (q : RingBuffer Elem) (r : Result) :
    (s.withRb0 q).respond r =
      { s with rb0 := q, env := { s.env with answers := { s.env.answers with rbP := s.env.answers.rbP ++ [r] } } } := by
  simp only [State.respond, State.withRb0, ho, Answers.push]

/-- RB0 written and the consumer role answered: beside RB0 only the answers on `rb_c` change. -/
theorem State.withRb0_respond_of_rbC (ho : s.env.origin = .rbC) (q : RingBuffer Elem) (r : Result) :
    (s.withRb0 q).respond r =
      { s with rb0 := q, env := { s.env with answers := { s.env.answers with rbC := s.env.answers.rbC ++ [r] } } } := by
  simp only [State.respond, State.withRb0, ho, Answers.push]

/-- A comparison of numbers as an observer returns it (R97). -/
theorem bitValue_beq (m n : Nat) : bitValue (m == n) = if m = n then 1 else 0 := by
  simp [bitValue]

/-- Settles O24: the successful case of `put`. -/
theorem rbPutStores : Obligations.RbPutStores := by
  intro s v ho hv hc hw
  rw [exec_rbPut ho hv (RingBuffer.put_ok v hc hw), State.withRb0_respond_of_rbP ho]
  rfl

/-- Settles O25: the rejecting case of `put`, which gives the queue back as it was. -/
theorem rbPutOnFullIsRejected : Obligations.RbPutOnFullIsRejected := by
  intro s v ho hv hc
  rw [exec_rbPut ho hv (RingBuffer.put_full v hc), State.withRb0_respond_of_rbP ho]
  rfl

/-- Settles O26: the two cases of `get`. -/
theorem rbGetReturnsOldest : Obligations.RbGetReturnsOldest := by
  intro s ho
  refine ⟨fun hc => ?_, fun v hc hr hv => ?_⟩
  · rw [exec_rbGet ho (RingBuffer.get_empty hc), State.withRb0_respond_of_rbC ho]
    rfl
  · rw [exec_rbGet ho (RingBuffer.get_ok hc hr hv), State.withRb0_respond_of_rbC ho]
    rfl

/-- Settles O27: full and empty are comparisons of `count`, and the length is `count`. -/
theorem observersAnswerFromCount : Obligations.ObserversAnswerFromCount := by
  intro s ho
  refine ⟨?_, ?_, exec_rbLength ho⟩
  · rw [exec_rbIsfull ho, RingBuffer.full, bitValue_beq]
  · rw [exec_rbIsempty ho, RingBuffer.empty, bitValue_beq]

end Sys2Proof.Machine
end

section
/-! PROOFS. Sequences of `put`s and `get`s on one queue with the invariant: O31 and O32 (40_ringbuffer.md R125, R126; 10_state.md
R27). -/

namespace Sys2Proof.Machine

variable {α : Type} {cap : Nat} {q q' q'' : RingBuffer α} {ops : List (Option α)} {puts gets : List α}

/-! ### One operation of a sequence -/

theorem RingBuffer.runOps_put {v : α} {b : PutAnswer} (h : q.put cap v = .ok (q', b))
    (hrun : RingBuffer.runOps cap ops q' = .ok (q'', puts, gets)) :
    RingBuffer.runOps cap (some v :: ops) q = .ok (q'', if b then v :: puts else puts, gets) := by
  simp only [RingBuffer.runOps, h, hrun]

theorem RingBuffer.runOps_get {a : Option α} (h : q.get cap = .ok (q', a))
    (hrun : RingBuffer.runOps cap ops q' = .ok (q'', puts, gets)) :
    RingBuffer.runOps cap (none :: ops) q = .ok (q'', puts, a.toList ++ gets) := by
  simp only [RingBuffer.runOps, h, hrun]

/-- What a `put` leaves held: its value last if it was stored, and otherwise what was held before. -/
theorem RingBuffer.put_held_cases {v : α} {b : PutAnswer} (hi : RingBuffer.Inv cap q) (h : q.put cap v = .ok (q', b)) :
    q'.held cap = q.held cap ++ if b then [v] else [] := by
  cases b with
  | true => exact RingBuffer.put_held hi h
  | false =>
    obtain ⟨-, rfl, -⟩ | ⟨-, -, hb, -⟩ := RingBuffer.put_cases h
    · simp
    · cases hb

/-- What a `get` answers stood before what it leaves held. -/
theorem RingBuffer.get_held_cases {a : Option α} (h : q.get cap = .ok (q', a)) :
    q.held cap = a.toList ++ q'.held cap := by
  cases a with
  | some v => exact RingBuffer.get_held h
  | none =>
    obtain ⟨-, rfl, -⟩ | ⟨v, -, -, -, ha, -⟩ := RingBuffer.get_cases h
    · rfl
    · cases ha

/-! ### Whole sequences -/

/-- From any queue with the invariant no sequence faults, and the elements held before followed by those stored are the
elements returned followed by those held after. -/
theorem RingBuffer.runOps_fifo (ops : List (Option α)) (hi : RingBuffer.Inv cap q) :
    ∃ q' puts gets, RingBuffer.runOps cap ops q = .ok (q', puts, gets) ∧ RingBuffer.Inv cap q' ∧
      q.held cap ++ puts = gets ++ q'.held cap := by
  induction ops generalizing q with
  | nil => exact ⟨q, [], [], rfl, hi, by simp⟩
  | cons op ops ih =>
    cases op with
    | some v =>
      obtain ⟨q₁, h₁, hi₁⟩ := RingBuffer.put_total v hi
      obtain ⟨q₂, puts, gets, hrun, hi₂, hfifo⟩ := ih hi₁
      refine ⟨q₂, _, gets, RingBuffer.runOps_put h₁ hrun, hi₂, ?_⟩
      rw [← hfifo, RingBuffer.put_held_cases hi h₁]
      split <;> simp
    | none =>
      obtain ⟨q₁, h₁, hi₁⟩ := RingBuffer.get_total hi
      generalize (q.held cap).head? = a at h₁
      obtain ⟨q₂, puts, gets, hrun, hi₂, hfifo⟩ := ih hi₁
      refine ⟨q₂, puts, _, RingBuffer.runOps_get h₁ hrun, hi₂, ?_⟩
      rw [RingBuffer.get_held_cases h₁, List.append_assoc, List.append_assoc, hfifo]

/-- `put`s that fit in the room left all succeed. -/
theorem RingBuffer.runOps_puts {vs : List α} (hi : RingBuffer.Inv cap q) (hroom : q.count + vs.length ≤ cap) :
    ∃ q', RingBuffer.runOps cap (vs.map some) q = .ok (q', vs, []) := by
  induction vs generalizing q with
  | nil => exact ⟨q, rfl⟩
  | cons v vs ih =>
    rw [List.length_cons] at hroom
    obtain ⟨-, -, -, hw, -⟩ := id hi
    have h₁ := RingBuffer.put_ok v (show q.count ≠ cap by omega) hw
    obtain ⟨q₂, hrun⟩ := ih (RingBuffer.put_inv hi h₁) (by simp only; omega)
    exact ⟨q₂, RingBuffer.runOps_put h₁ hrun⟩

theorem RingBuffer.held_of_count_zero (h : q.count = 0) : q.held cap = [] := by
  simp [RingBuffer.held, h]

/-- Settles O31: `runOps_fifo` from construction, where nothing is held. -/
theorem queueIsFirstInFirstOut : Obligations.QueueIsFirstInFirstOut := by
  intro α cap ops hcap
  obtain ⟨q, puts, gets, hrun, hi, hfifo⟩ := RingBuffer.runOps_fifo ops (RingBuffer.construct_inv (α := α) hcap)
  rw [RingBuffer.held_of_count_zero rfl, List.nil_append] at hfifo
  exact ⟨q, puts, gets, hrun, hfifo, ⟨_, hfifo.symm⟩, hi⟩

/-- Settles O32: all the `put`s succeed, so by `runOps_fifo` the queue holds their values, which are as many as its
capacity. -/
theorem emptyQueueTakesCapacityManyPuts : Obligations.EmptyQueueTakesCapacityManyPuts := by
  intro α cap q vs v hi hc hlen
  obtain ⟨q', hrun⟩ := RingBuffer.runOps_puts (vs := vs) hi (by omega)
  obtain ⟨q₂, puts, gets, hrun₂, hi', hfifo⟩ := RingBuffer.runOps_fifo (vs.map some) hi
  obtain ⟨rfl, rfl, rfl⟩ : q' = q₂ ∧ vs = puts ∧ [] = gets := by simpa [hrun] using hrun₂
  have hheld : q'.held cap = vs := by simpa [RingBuffer.held_of_count_zero hc] using hfifo.symm
  have hcount : q'.count = cap := by rw [← RingBuffer.held_length hi', hheld, hlen]
  exact ⟨q', hrun, hheld, RingBuffer.full_iff.mpr hcount, RingBuffer.put_full v hcount⟩

end Sys2Proof.Machine
end

section
/-! PROOFS. `RB.PUT` requests presented on `rb_p` and run on the machine: O33 (40_ringbuffer.md R126, 30_encoding.md R103,
60_exceptions.md R202). -/

namespace Sys2Proof.Machine

/-! ### The run -/

@[simp] theorem core_run_zero (s : State) : Sys2Proof.core.run 0 s = .next s := rfl

/-- A run whose first step gives a next state goes on from there. -/
theorem core_run_succ {s t : State} (h : step s = .next t) (k : Nat) :
    Sys2Proof.core.run (k + 1) s = Sys2Proof.core.run k t := by
  have hcore : Sys2Proof.core.step s = .next t := h
  simp only [Host.Core.run, hcore]

/-! ### Requests that wait on `rb_p` -/

/-- The words of `RB.PUT` requests, one after the other. -/
def putWords (us : List Elem) : List Word := us.flatMap fun u => encode (.rbPut u)

/-- The schedule holds one turn of `rb_p` for each value and nothing else, and the words on `rb_p` are the values' requests. -/
structure State.AwaitsPuts (s : State) (us : List Elem) : Prop where
  schedule : s.env.schedule = List.replicate us.length .rbP
  words : s.env.ports.get .rbP = putWords us

/-- Presenting `RB.PUT` requests adds their turns and their words, and changes nothing else. -/
theorem State.presentAll_puts (s : State) (us : List Elem) :
    s.presentAll (us.map fun u => request (.rbPut u)) =
      { s with env := { s.env with
          schedule := s.env.schedule ++ List.replicate us.length .rbP,
          ports := s.env.ports.set .rbP (s.env.ports.get .rbP ++ putWords us) } } := by
  induction us generalizing s with
  | nil => simp [State.presentAll, putWords]
  | cons u us ih =>
    have hpresent : s.presentAll ((u :: us).map fun u => request (.rbPut u)) =
        (s.present .rbP (encode (.rbPut u))).presentAll (us.map fun u => request (.rbPut u)) := rfl
    rw [hpresent, ih]
    simp [State.present, putWords, List.replicate_succ]

/-- Requests presented where nothing waits are those that wait. -/
theorem State.presentAll_awaitsPuts {s : State} (hs : s.env.schedule = []) (hw : s.env.ports.get .rbP = [])
    (us : List Elem) : (s.presentAll (us.map fun u => request (.rbPut u))).AwaitsPuts us := by
  rw [State.presentAll_puts]
  exact ⟨by simp [hs], by simp [hw]⟩

/-- The step on the first waiting request is its `put` on RB0 and its answer. -/
theorem State.AwaitsPuts.step_eq {s : State} {u : Elem} {us : List Elem} {q : RingBuffer Elem} {b : PutAnswer}
    (ha : s.AwaitsPuts (u :: us)) (hok : s.params.Ok) (hu : u.toNat < 2 ^ s.params.w)
    (h : s.rb0.put s.params.cap u = .ok (q, b)) :
    step s = .next (((s.accept .rbP (putWords us)).withRb0 q).respond (if b then .ok else .full)) := by
  have hs : s.env.schedule = .rbP :: List.replicate us.length .rbP := ha.schedule
  rw [stepRunsEncodedOperation s .rbP _ (.rbPut u) (putWords us) hok (decide_eq_true hu) hs (.inl (by decide)) ha.words,
    ← State.accept_of_schedule _ hs]
  exact exec_rbPut rfl hu h

/-- The other requests then wait. -/
theorem State.AwaitsPuts.next {s : State} {u : Elem} {us : List Elem} (ha : s.AwaitsPuts (u :: us))
    (q : RingBuffer Elem) (r : Result) : (((s.accept .rbP (putWords us)).withRb0 q).respond r).AwaitsPuts us :=
  ⟨by simp [ha.schedule, List.replicate_succ], by simp⟩

/-! ### The answers -/

/-- The answers to `n` requests on a queue with room for `room` elements: `OK` while there is room, then `FULL` (R120). -/
def putAnswers (room n : Nat) : List Result := List.replicate (min n room) .ok ++ List.replicate (n - room) .full

theorem putAnswers_room (room n : Nat) : putAnswers (room + 1) (n + 1) = .ok :: putAnswers room n := by
  simp [putAnswers, Nat.add_min_add_right, List.replicate_succ]

theorem putAnswers_full (n : Nat) : putAnswers 0 (n + 1) = .full :: putAnswers 0 n := by
  simp [putAnswers, List.replicate_succ]

/-- The first answer is `put`'s, and the others are those of the queue it leaves. -/
theorem putAnswers_of_put {α : Type} {cap : Nat} {q q' : RingBuffer α} {v : α} {b : PutAnswer} (hle : q.count ≤ cap)
    (h : q.put cap v = .ok (q', b)) (n : Nat) :
    putAnswers (cap - q.count) (n + 1) = (if b then .ok else .full) :: putAnswers (cap - q'.count) n := by
  obtain ⟨hc, rfl, rfl⟩ | ⟨hc, -, rfl, rfl⟩ := RingBuffer.put_cases h
  · rw [hc, Nat.sub_self]
    exact putAnswers_full n
  · rw [show cap - q.count = cap - (q.count + 1) + 1 by omega]
    exact putAnswers_room _ n

/-- Waiting `RB.PUT` requests run to the end are `put` on RB0 one by one, answered `OK` while there was room and then
`FULL`; the other units stay. -/
theorem State.AwaitsPuts.run {s : State} {us : List Elem} (ha : s.AwaitsPuts us) (hok : s.params.Ok)
    (hi : RingBuffer.Inv s.params.cap s.rb0) (hu : ∀ u ∈ us, u.toNat < 2 ^ s.params.w) :
    ∃ t, Sys2Proof.core.run us.length s = .next t ∧ s.rb0.putAll s.params.cap us = .ok t.rb0 ∧
      t.env.answers.rbP = s.env.answers.rbP ++ putAnswers (s.params.cap - s.rb0.count) us.length ∧
      t.params = s.params ∧ t.st = s.st ∧ t.fb = s.fb := by
  induction us generalizing s with
  | nil => exact ⟨s, rfl, rfl, by simp [putAnswers], rfl, rfl, rfl⟩
  | cons u us ih =>
    obtain ⟨q, hput, hq⟩ := RingBuffer.put_total u hi
    obtain ⟨-, hle, -⟩ := id hi
    obtain ⟨hu₁, hus⟩ := List.forall_mem_cons.mp hu
    obtain ⟨t, hrun, hall, hans, hpar, hst, hfb⟩ := ih (ha.next q _) hok hq hus
    refine ⟨t, (core_run_succ (ha.step_eq hok hu₁ hput) _).trans hrun, ?_, ?_, hpar, hst, hfb⟩
    · simp only [RingBuffer.putAll, hput]
      exact hall
    · rw [hans, List.length_cons, putAnswers_of_put hle hput, List.append_cons]
      rfl

/-- Settles O33: `CAP + 1` requests on an empty queue, by `AwaitsPuts.run` and `RingBuffer.putAll_spec`. -/
theorem capacityManyRequestsThenFull : Obligations.CapacityManyRequestsThenFull := by
  intro s vs v hinv hc hs hw hlen hrange
  obtain ⟨hok, ⟨hi, -⟩, -⟩ := hinv
  have ha := State.presentAll_awaitsPuts hs hw (vs ++ [v])
  rw [State.presentAll_puts] at ha ⊢
  obtain ⟨t, hrun, hall, hans, hpar, hst, hfb⟩ := ha.run hok hi hrange
  obtain ⟨q, hq, -, hheld, -⟩ := RingBuffer.putAll_spec (vs ++ [v]) hi
  obtain rfl : q = t.rb0 := Except.ok.inj (hq.symm.trans hall)
  have hn : (vs ++ [v]).length = s.params.cap + 1 := by simp [hlen]
  refine ⟨t, by rw [← hn]; exact hrun, ?_, ?_, hst, hfb⟩
  · simpa [putAnswers, hc, hn] using hans
  · rw [hpar]
    simpa [RingBuffer.held_of_count_zero hc, hc, ← hlen] using hheld

end Sys2Proof.Machine
end

section
/-! PROOFS. What each step of a `putChar` does to its answer and to the transmit stream: O38 and O39
(41_serial_transport.md R141, R145 to R149; 10_state.md R43). -/

namespace Sys2Proof.Machine

/-! ### The environment's side over a step -/

/-- From `s` to `t` the environment has got at most one more answer, on the channel that is served (R97, R200). -/
def AnswersAtMostOnce (s t : State) : Prop := t.env = s.env ∨ ∃ r, t.env = (s.respond r).env

section Env

variable {s t : State} {ch : Channel} {turns : List Channel}

theorem AnswersAtMostOnce.respond (h : t.env = s.env) (r : Result) : AnswersAtMostOnce s (t.respond r) :=
  .inr ⟨r, by simp only [State.respond_env, h]⟩

theorem AnswersAtMostOnce.schedule (h : AnswersAtMostOnce s t) : t.env.schedule = s.env.schedule := by
  obtain e | ⟨r, e⟩ := h <;> rw [e]
  rfl

/-- A channel other than the one that is served gets no answer. -/
theorem AnswersAtMostOnce.answers_of_ne (h : AnswersAtMostOnce s t) (hne : ch ≠ s.env.origin) :
    t.env.answers.get ch = s.env.answers.get ch := by
  obtain e | ⟨r, e⟩ := h <;> rw [e]
  exact Answers.get_push_of_ne _ r hne

theorem submitIfReady_env (h : submitIfReady s = .ok t) : t.env = s.env := by
  obtain ⟨-, -, -, -, -, -, he⟩ := submitIfReady_frame h
  exact he

theorem commit_env {c : Byte} (h : commit c s = .ok t) : t.env = s.env := by
  obtain ⟨-, -, -, -, -, -, he⟩ := commit_frame h
  exact he

theorem putCharPhase_answers {c : Byte} {k : Nat} (h : putCharPhase c k s = .next t) : AnswersAtMostOnce s t := by
  obtain ⟨s', s'', hsub, hcom, -, -, rfl⟩ | ⟨j, -, -, rfl⟩ | ⟨s', -, hsub, -, rfl⟩ := putCharPhase_cases h
  · have hs' : s'.env = s.env := by
      obtain rfl | ⟨-, hsub⟩ := hsub
      · rfl
      · exact submitIfReady_env hsub
    exact .respond (t := s''.withPutSeq .idle) ((commit_env hcom).trans hs') .ok
  · exact .inl rfl
  · exact .respond (t := s'.withPutSeq .idle) (submitIfReady_env (t := s') hsub) .saturated

theorem effect_answers {i : Instr} (h : Effect s t i) : AnswersAtMostOnce s t := by
  cases i with
  | rbPut v | rbGet | stGetchar | fbTake =>
    obtain ⟨_, _, -, rfl⟩ := h
    exact .respond rfl _
  | rbIsfull | rbIsempty | rbLength | fbReset =>
    cases h
    exact .respond rfl _
  | stPutchar c =>
    obtain ⟨-, s', hcom, rfl⟩ | ⟨-, rfl⟩ := h
    · exact .respond (t := s'.withPutSeq .idle) (commit_env (t := s') hcom) .ok
    · exact .inl rfl
  | stSubmit =>
    obtain ⟨s', hsub, rfl⟩ := h
    exact .respond (submitIfReady_env hsub) .ok
  | stTxdone => exact .inl (submitIfReady_env (s := s.withTxIdle true) h)
  | stRxpkt pkt | fbSample v | fbFrame =>
    obtain ⟨_, -, rfl⟩ := h
    exact .inl rfl

/-- A step uses up one turn, and answers at most the channel whose turn it is, or `st_m` for a phase of `putChar`. -/
theorem step_answers (hs : s.env.schedule = ch :: turns) (h : step s = .next t) :
    t.env.schedule = turns ∧ ∀ ch', ch' ≠ ch → (ch.agent = .mainLoop → ch' ≠ .stM) →
      t.env.answers.get ch' = s.env.answers.get ch' := by
  obtain ⟨hnil, -⟩ | ⟨ch', turns', hs', hcase⟩ := step_cases h
  · rw [hs] at hnil
    cases hnil
  rw [hs] at hs'
  cases hs'
  have htail : s.env.schedule.tail = turns := by rw [hs, List.tail_cons]
  obtain ⟨c, k, ha, -, -, ht⟩ | ⟨-, ⟨-, rfl⟩ | ⟨rest, -, rfl⟩ | ⟨i, rest, -, -, ⟨-, rfl⟩ | ⟨-, he⟩⟩⟩ := hcase
  · have hans := putCharPhase_answers ht
    exact ⟨hans.schedule.trans htail, fun ch' _ hm => hans.answers_of_ne (hm ha)⟩
  · exact ⟨htail, fun _ _ _ => rfl⟩
  · exact ⟨htail, fun _ hne _ => Answers.get_push_of_ne _ _ hne⟩
  · exact ⟨htail, fun _ hne _ => Answers.get_push_of_ne _ _ hne⟩
  · have hans := effect_answers he
    exact ⟨hans.schedule.trans htail, fun _ hne _ => hans.answers_of_ne hne⟩

end Env

/-! ### One step of a `putChar` -/

/-- How a step of the `putChar` of byte `c` can end: accepted, and the byte is the last of the transmit stream; given up
with the stream as it was; or waiting with fewer than `n` retries left, no answer, and the stream as it was
(R146 to R148). -/
def PutCharOutcome (c : Byte) (n : Nat) (s t : State) : Prop :=
  t.st.putSeq = .idle ∧ t.env.answers.stM = s.env.answers.stM ++ [.ok] ∧ t.txStream = s.txStream ++ [c] ∨
  t.st.putSeq = .idle ∧ t.env.answers.stM = s.env.answers.stM ++ [.saturated] ∧ t.txStream = s.txStream ∨
  ∃ j, j < n ∧ t.st.putSeq = .wait c j ∧ t.env.answers.stM = s.env.answers.stM ∧ t.txStream = s.txStream

section PutChar

variable {s s' t : State} {c : Byte} {n : Nat}

/-- The sequencer idle and `st_m` answered, after an update that left the environment's side. -/
theorem answers_of_done (ho : s.env.origin = .stM) (he : t.env = s.env) (r : Result) :
    ((t.withPutSeq .idle).respond r).env.answers.stM = s.env.answers.stM ++ [r] := by
  simp only [State.respond_env, State.withPutSeq_env, he, ho, Answers.push]

/-- A commit with room accepts the byte. -/
theorem PutCharOutcome.of_commit (hs : s.InvButIdle) (ho : s.env.origin = .stM)
    (hroom : s.st.tx.count < s.params.txCap) (h : commit c s = .ok t) :
    PutCharOutcome c n s ((t.withPutSeq .idle).respond .ok) :=
  .inl ⟨rfl, answers_of_done ho (commit_env h) .ok, commit_txStream (s' := t) hs.tx hroom hs.one_le_maxPkt h⟩

/-- What a submission before it moves to the hardware stays in the transmit stream. -/
theorem PutCharOutcome.of_submit (hs : s.InvButIdle) (hsub : submitIfReady s = .ok s')
    (h : PutCharOutcome c n s' t) : PutCharOutcome c n s t := by
  have hstream := submitIfReady_txStream hs.tx hs.one_le_maxPkt hsub
  rwa [PutCharOutcome, submitIfReady_env hsub, hstream] at h

/-- The issue phase: accepted, or waiting with the whole budget (R146). -/
theorem effect_stPutchar_outcome (hs : s.InvButIdle) (ho : s.env.origin = .stM) (h : Effect s t (.stPutchar c)) :
    PutCharOutcome c (s.params.putRetries + 1) s t := by
  obtain ⟨hroom, s', hcom, rfl⟩ | ⟨-, rfl⟩ := h
  · exact .of_commit hs ho hroom hcom
  · exact .inr (.inr ⟨_, Nat.lt_succ_self _, rfl, rfl, rfl⟩)

/-- The phase with `k` retries left: accepted, waiting with one retry less, or given up with none (R147, R148). -/
theorem putCharPhase_outcome {k : Nat} (hs : s.InvButIdle) (ho : s.env.origin = .stM)
    (h : putCharPhase c k s = .next t) : PutCharOutcome c k s t := by
  obtain ⟨s', s'', hsub, hcom, hretry, hlast, rfl⟩ | ⟨j, rfl, -, rfl⟩ | ⟨s', -, hsub, -, rfl⟩ := putCharPhase_cases h
  · have hroom : s'.InvButIdle → s'.st.tx.count < s'.params.txCap := by
      intro hs'
      obtain ⟨-, hle, -⟩ := hs'.tx
      by_cases hk : k = 0
      · exact Nat.lt_of_le_of_ne hle (hlast hk)
      · exact hretry hk
    obtain rfl | ⟨-, hsub⟩ := hsub
    · exact .of_commit hs ho (hroom hs) hcom
    · have hs' := (submitIfReady_inv hs hsub).butIdle
      exact .of_submit hs hsub (.of_commit hs' (submitIfReady_env hsub ▸ ho) (hroom hs') hcom)
  · exact .inr (.inr ⟨j, Nat.lt_succ_self j, rfl, rfl, rfl⟩)
  · have hstream := submitIfReady_txStream hs.tx hs.one_le_maxPkt hsub
    exact .inr (.inl ⟨rfl, answers_of_done ho (submitIfReady_env hsub) .saturated, hstream⟩)

/-- A turn of either channel of `M` while its `putChar` waits is the next phase, answered on `st_m` (log 8). -/
theorem step_of_wait {k : Nat} {ch : Channel} {turns : List Channel} (hs : s.env.schedule = ch :: turns)
    (ha : ch.agent = .mainLoop) (hp : s.st.putSeq = .wait c k) :
    step s = putCharPhase c k (s.popTurn.withOrigin .stM) := by
  simp only [step, nextTurn_of_schedule hs, turnOf_phase ha hp]

theorem step_outcome_of_wait {k : Nat} {ch : Channel} {turns : List Channel} (hs : s.Inv)
    (hsched : s.env.schedule = ch :: turns) (ha : ch.agent = .mainLoop) (hp : s.st.putSeq = .wait c k)
    (h : step s = .next t) : PutCharOutcome c k s t := by
  rw [step_of_wait hsched ha hp] at h
  have hsb : (s.popTurn.withOrigin .stM).InvButIdle := State.Inv.butIdle (s := s.popTurn.withOrigin .stM) hs
  exact putCharPhase_outcome (s := s.popTurn.withOrigin .stM) hsb rfl h

end PutChar

/-! ### O38 -/

/-- Within `n` steps the machine reaches a state with the sequencer idle and one more answer on `st_m`, `OK` or
`SATURATED`. -/
def State.PutCharEndsWithin (s : State) (n : Nat) : Prop :=
  ∃ j t, j ≤ n ∧ Sys2Proof.core.run j s = .next t ∧ t.st.putSeq = .idle ∧
    (t.env.answers.stM = s.env.answers.stM ++ [.ok] ∨ t.env.answers.stM = s.env.answers.stM ++ [.saturated])

section Bound

variable {s t : State} {n : Nat}

theorem State.PutCharEndsWithin.of_end (h : step s = .next t) (hidle : t.st.putSeq = .idle)
    (hans : t.env.answers.stM = s.env.answers.stM ++ [.ok] ∨ t.env.answers.stM = s.env.answers.stM ++ [.saturated]) :
    s.PutCharEndsWithin (n + 1) :=
  ⟨1, t, Nat.succ_pos n, core_run_succ h 0, hidle, hans⟩

/-- A step that answers nothing on `st_m` puts the end off by one step. -/
theorem State.PutCharEndsWithin.of_step (h : step s = .next t) (hans : t.env.answers.stM = s.env.answers.stM)
    (ht : t.PutCharEndsWithin n) : s.PutCharEndsWithin (n + 1) := by
  obtain ⟨j, u, hj, hrun, hidle, hend⟩ := ht
  rw [hans] at hend
  exact ⟨j + 1, u, Nat.succ_le_succ hj, (core_run_succ h j).trans hrun, hidle, hend⟩

end Bound

/-- The bound of R149 by induction on the schedule: a turn of `M` ends the `putChar` or uses a retry, and a turn of another
agent changes neither the sequencer nor what `st_m` has been answered. -/
theorem putChar_ends_within_schedule {c : Byte} (turns : List Channel) {s : State} {k : Nat} (hs : s.Inv)
    (hsched : s.env.schedule = turns) (hp : s.st.putSeq = .wait c k)
    (hk : k + 1 ≤ (turns.filter fun ch => ch.agent == .mainLoop).length) : s.PutCharEndsWithin turns.length := by
  induction turns generalizing s k with
  | nil => simp at hk
  | cons ch turns ih =>
    obtain ⟨t, ht⟩ := exists_step_of_inv hs
    have hst := stepKeepsInvariant s t hs ht
    obtain ⟨hsched', hother⟩ := step_answers hsched ht
    by_cases ha : ch.agent = .mainLoop
    · have hk' : k ≤ (turns.filter fun ch => ch.agent == .mainLoop).length := by simpa [ha] using hk
      obtain ⟨hidle, hans, -⟩ | ⟨hidle, hans, -⟩ | ⟨j, hj, hp', hans, -⟩ := step_outcome_of_wait hs hsched ha hp ht
      · exact .of_end ht hidle (.inl hans)
      · exact .of_end ht hidle (.inr hans)
      · exact .of_step ht hans (ih hst hsched' hp' (Nat.le_trans hj hk'))
    · have hk' : k + 1 ≤ (turns.filter fun ch => ch.agent == .mainLoop).length := by simpa [ha] using hk
      have hne : Channel.stM ≠ ch := by
        rintro rfl
        exact ha rfl
      have hans : t.env.answers.stM = s.env.answers.stM := hother .stM hne fun hm => absurd hm ha
      exact .of_step ht hans (ih hst hsched' ((step_putSeq_of_not_main hsched ha ht).trans hp) hk')

/-- Settles O38. -/
theorem putCharEndsInBoundedTurns : Obligations.PutCharEndsInBoundedTurns :=
  fun s _ _ hs hp hk => putChar_ends_within_schedule s.env.schedule hs rfl hp hk

/-! ### O39 -/

section Stream

variable {s t : State} {c : Byte}

/-- Only `ST.PUTCHAR`, `ST.SUBMIT` and `ST.TXDONE` write the transmit side (R141 to R146). -/
theorem effect_transmit_of_other {i : Instr} (ha : s.env.origin.accepts i = true) (hput : ∀ c, i ≠ .stPutchar c)
    (hsub : i ≠ .stSubmit) (hdone : i ≠ .stTxdone) (h : Effect s t i) :
    t.st.tx = s.st.tx ∧ t.st.txIdle = s.st.txIdle ∧ t.log = s.log := by
  have hkeep := (effect_footprint ha h).transmit
  cases i with
  | stPutchar c => exact absurd rfl (hput c)
  | stSubmit => exact absurd rfl hsub
  | stTxdone => exact absurd rfl hdone
  | stGetchar =>
    obtain ⟨q, x, -, rfl⟩ := h
    exact ⟨rfl, rfl, rfl⟩
  | rbPut v | rbGet | rbIsfull | rbIsempty | rbLength | stRxpkt pkt | fbTake | fbReset | fbSample v |
    fbFrame =>
    exact hkeep (by intro ho; simp [ho, Channel.accepts] at ha) (by intro ho; simp [ho, Channel.accepts] at ha)

/-- An operation that is no `putChar` leaves the transmit stream: what it takes from `tx` it hands to the hardware. -/
theorem effect_txStream {i : Instr} (hs : s.InvButIdle) (ha : s.env.origin.accepts i = true)
    (hi : ∀ c, i ≠ .stPutchar c) (h : Effect s t i) : t.txStream = s.txStream := by
  cases i with
  | stPutchar c => exact absurd rfl (hi c)
  | stSubmit =>
    obtain ⟨s', hsub, rfl⟩ := h
    exact submitIfReady_txStream (s' := s') hs.tx hs.one_le_maxPkt hsub
  | stTxdone => exact submitIfReady_txStream (s := s.withTxIdle true) hs.tx hs.one_le_maxPkt h
  | rbPut v | rbGet | rbIsfull | rbIsempty | rbLength | stGetchar | stRxpkt pkt | fbTake | fbReset | fbSample v |
    fbFrame =>
    obtain ⟨htx, -, hlog⟩ := effect_transmit_of_other ha (by simp) (by simp) (by simp) h
    rw [State.txStream, State.txStream, htx, hlog, (effect_footprint ha h).params]

/-- A step that is no phase and runs no `putChar` offers no byte. -/
theorem State.offeredByte_eq_none (hphase : ∀ c k s', nextTurn s ≠ .phase c k s')
    (hrun : ∀ c, ¬ s.runs (.stPutchar c)) : s.offeredByte = none := by
  unfold State.offeredByte
  split
  · next c k s' hn => exact absurd hn (hphase c k s')
  · next c s' hn => exact if_neg fun hl => hrun c ⟨s', hn, hl⟩
  · rfl

/-- Every step that gives a next state works on no `putChar` and leaves the transmit stream, or offers the byte of one and
has an outcome of it. -/
theorem step_putChar_cases (hs : s.Inv) (h : step s = .next t) :
    (s.offeredByte = none ∧ t.txStream = s.txStream) ∨ ∃ c n, s.offeredByte = some c ∧ PutCharOutcome c n s t := by
  obtain ⟨-, hn, rfl⟩ | ⟨ch, turns, hsched, ⟨c, k, ha, hp, hn, -⟩ | ⟨-, ⟨hn, rfl⟩ | ⟨rest, hn, rfl⟩ |
    ⟨i, rest, -, hn, ⟨hl, rfl⟩ | ⟨hl, he⟩⟩⟩⟩ := step_cases h
  · exact .inl ⟨by simp only [State.offeredByte, hn], rfl⟩
  · exact .inr ⟨c, k, State.offeredByte_of_phase hn, step_outcome_of_wait hs hsched ha hp h⟩
  · exact .inl ⟨by simp only [State.offeredByte, hn], rfl⟩
  · exact .inl ⟨by simp only [State.offeredByte, hn], rfl⟩
  · refine .inl ⟨State.offeredByte_eq_none (by simp [hn]) fun c hr => ?_, rfl⟩
    simp [((State.runs_iff_of_run hn).mp hr).2] at hl
  · have hacc := (State.legal_iff.mp hl).1
    have hsb : (s.accept ch rest).InvButIdle := State.Inv.butIdle (s := s.accept ch rest) hs
    by_cases hi : ∃ c, i = .stPutchar c
    · obtain ⟨c, rfl⟩ := hi
      have hout := effect_stPutchar_outcome (s := s.accept ch rest) hsb (eq_of_beq hacc) he
      exact .inr ⟨c, _, State.offeredByte_of_runs ⟨_, hn, hl⟩, hout⟩
    · have hne : ∀ c, i ≠ .stPutchar c := fun c e => hi ⟨c, e⟩
      have hstream := effect_txStream (s := s.accept ch rest) hsb hacc hne he
      refine .inl ⟨State.offeredByte_eq_none (by simp [hn]) fun c hr => ?_, hstream⟩
      exact hne c ((State.runs_iff_of_run hn).mp hr).1.symm

/-- The byte offered is accepted exactly when the step answers `OK` on `st_m`. -/
theorem State.acceptedByte_of_offered (ho : s.offeredByte = some c) (h : step s = .next t) :
    s.acceptedByte = if t.env.answers.stM = s.env.answers.stM ++ [.ok] then [c] else [] := by
  simp only [State.acceptedByte, ho, h]

/-- One step: the transmit stream grows by the byte accepted. -/
theorem step_txStream (hs : s.Inv) (h : step s = .next t) : t.txStream = s.txStream ++ s.acceptedByte := by
  obtain ⟨ho, hstream⟩ | ⟨c, n, ho, hout⟩ := step_putChar_cases hs h
  · simp [hstream, State.acceptedByte, ho]
  · rw [State.acceptedByte_of_offered ho h]
    obtain ⟨-, hans, hstream⟩ | ⟨-, hans, hstream⟩ | ⟨j, -, -, hans, hstream⟩ := hout <;> simp [hans, hstream]

end Stream

/-- Settles O39, by induction on the number of steps from `step_txStream`. -/
theorem transmitStreamIsTheAcceptedBytes : Obligations.TransmitStreamIsTheAcceptedBytes := by
  intro n
  induction n with
  | zero =>
    intro s t _ h
    cases h
    simp [State.acceptedBytes]
  | succ n ih =>
    intro s t hs h
    obtain ⟨s₁, h₁⟩ := exists_step_of_inv hs
    rw [core_run_succ h₁] at h
    rw [ih s₁ t (stepKeepsInvariant s s₁ hs h₁) h, step_txStream hs h₁]
    simp only [State.acceptedBytes, h₁, List.append_assoc]

end Sys2Proof.Machine
end

section
/-! PROOFS. What each step does to the transmit side's state and to the event log: O44 (41_serial_transport.md R140 to
R142). -/

namespace Sys2Proof.Machine

/-- From `s` to `t` the transport keeps its state and hands nothing to the hardware, or goes from `Idle` to `Sending` and
hands over one buffer of at least one byte (R140, R141). -/
def SubmitsAtMostOnce (s t : State) : Prop :=
  t.st.txIdle = s.st.txIdle ∧ t.log = s.log ∨
  s.st.txIdle = true ∧ t.st.txIdle = false ∧ ∃ buf, t.log.hwtx = s.log.hwtx ++ [buf] ∧ 1 ≤ buf.length

section Submits

variable {s t u : State} {c : Byte}

/-- There is no second submission: after the first the transport is `Sending`. -/
theorem SubmitsAtMostOnce.trans (h : SubmitsAtMostOnce s t) (h' : SubmitsAtMostOnce t u) : SubmitsAtMostOnce s u := by
  obtain ⟨hidle, hlog⟩ | ⟨hs, ht, hbuf⟩ := h
  · rwa [SubmitsAtMostOnce, hidle, hlog] at h'
  · obtain ⟨hidle, hlog⟩ | ⟨ht', -⟩ := h'
    · exact .inr ⟨hs, hidle.trans ht, by rwa [hlog]⟩
    · rw [ht] at ht'
      cases ht'

theorem submitIfReady_submits (h : submitIfReady s = .ok t) : SubmitsAtMostOnce s t := by
  unfold submitIfReady at h
  split at h
  · next hidle =>
    split at h
    · cases h
    · next q buf hd =>
      split at h <;> cases h
      · next hlen => exact .inr ⟨hidle, rfl, buf, rfl, hlen⟩
      · exact .inl ⟨rfl, rfl⟩
  · cases h
    exact .inl ⟨rfl, rfl⟩

theorem commit_submits (h : commit c s = .ok t) : SubmitsAtMostOnce s t := by
  unfold commit at h
  split at h
  · cases h
  · next q b hput =>
    split at h
    · exact submitIfReady_submits (s := s.withTx q) h
    · cases h
      exact .inl ⟨rfl, rfl⟩

theorem putCharPhase_submits {k : Nat} (h : putCharPhase c k s = .next t) : SubmitsAtMostOnce s t := by
  obtain ⟨s', s'', hsub, hcom, -, -, rfl⟩ | ⟨j, -, -, rfl⟩ | ⟨s', -, hsub, -, rfl⟩ := putCharPhase_cases h
  · have hs' : SubmitsAtMostOnce s s' := by
      obtain rfl | ⟨-, hsub⟩ := hsub
      · exact .inl ⟨rfl, rfl⟩
      · exact submitIfReady_submits hsub
    exact hs'.trans (commit_submits (t := s'') hcom)
  · exact .inl ⟨rfl, rfl⟩
  · exact submitIfReady_submits (t := s') hsub

/-- Every operation but `ST.TXDONE` submits only from `Idle`. -/
theorem effect_submits {i : Instr} (ha : s.env.origin.accepts i = true) (hi : i ≠ .stTxdone) (h : Effect s t i) :
    SubmitsAtMostOnce s t := by
  cases i with
  | stTxdone => exact absurd rfl hi
  | stPutchar c =>
    obtain ⟨-, s', hcom, rfl⟩ | ⟨-, rfl⟩ := h
    · exact commit_submits (t := s') hcom
    · exact .inl ⟨rfl, rfl⟩
  | stSubmit =>
    obtain ⟨s', hsub, rfl⟩ := h
    exact submitIfReady_submits (t := s') hsub
  | rbPut v | rbGet | rbIsfull | rbIsempty | rbLength | stGetchar | stRxpkt pkt | fbTake | fbReset | fbSample v |
    fbFrame =>
    obtain ⟨-, hidle, hlog⟩ := effect_transmit_of_other ha (by simp) (by simp) (by simp) h
    exact .inl ⟨hidle, hlog⟩

/-- Everything a step does to the transmit side's state and the log: at most one submission, from `Idle` or, on a
transmit-complete notification, after it has made the transport `Idle` (R142). -/
theorem step_submits (h : step s = .next t) :
    SubmitsAtMostOnce s t ∨ s.runs .stTxdone ∧ SubmitsAtMostOnce (s.withTxIdle true) t := by
  obtain ⟨-, e, rfl⟩ | ⟨ch, turns, c, k, -, -, -, -, ht⟩ | ⟨ch, turns, i, rest, -, -, hn, hl, he⟩ := step_kinds h
  · exact .inl (.inl ⟨rfl, rfl⟩)
  · exact .inl (putCharPhase_submits (s := s.popTurn.withOrigin .stM) ht)
  · by_cases hi : i = .stTxdone
    · subst hi
      exact .inr ⟨⟨_, hn, hl⟩, submitIfReady_submits (s := (s.accept ch rest).withTxIdle true) he⟩
    · exact .inl (effect_submits (s := s.accept ch rest) (State.legal_iff.mp hl).1 hi he)

end Submits

/-- Settles O44: each clause is read off the cases of `step_submits`. -/
theorem transmitStateMachine : Obligations.TransmitStateMachine := by
  refine ⟨fun p => rfl, fun s => rfl, fun s t h => ?_⟩
  obtain (⟨hidle, hlog⟩ | ⟨hs, ht, buf, hlog, hlen⟩) | ⟨hr, ⟨hidle, hlog⟩ | ⟨-, ht, buf, hlog, hlen⟩⟩ := step_submits h
  · exact ⟨fun hs ht => by simp [hidle, hs] at ht, fun hs ht => by simp [hidle, hs] at ht, .inl (congrArg _ hlog)⟩
  · exact ⟨fun _ _ => ⟨buf, hlog, hlen⟩, fun hs' _ => by simp [hs] at hs', .inr ⟨buf, hlog, ht, .inl hs⟩⟩
  · exact ⟨fun _ ht => by simp [hidle] at ht, fun _ _ => hr, .inl (congrArg _ hlog)⟩
  · exact ⟨fun _ _ => ⟨buf, hlog, hlen⟩, fun _ _ => hr, .inr ⟨buf, hlog, ht, .inr hr⟩⟩

end Sys2Proof.Machine
end

section
/-! PROOFS. The meanings of unit U2's operations and the phases of `putChar` as whole next states: O34 to O37, O40 to O43
(41_serial_transport.md R141 to R150; 60_exceptions.md R204, R206). -/

namespace Sys2Proof.Machine

variable {s s' t : State} {c : Byte}

/-! ### Updates on `st_m` -/

/-- The answer to agent `M`'s transport request: only the answers on `st_m` change. -/
theorem State.respond_of_stM (ho : s.env.origin = .stM) (r : Result) :
    s.respond r =
      { s with env := { s.env with answers := { s.env.answers with stM := s.env.answers.stM ++ [r] } } } := by
  simp only [State.respond, ho, Answers.push]

/-- `rx` written and agent `M` answered. -/
theorem State.withRx_respond_of_stM (ho : s.env.origin = .stM) (q : RingBuffer Byte) (r : Result) :
    (s.withRx q).respond r =
      { s with
        st := { s.st with rx := q },
        env := { s.env with answers := { s.env.answers with stM := s.env.answers.stM ++ [r] } } } := by
  simp only [State.respond, State.withRx, ho, Answers.push]

/-! ### `submitIfReady` and `commit`, one equation per case -/

/-- Nothing is submitted while a transfer is outstanding (R141). -/
theorem submitIfReady_sending (h : s.st.txIdle = false) : submitIfReady s = .ok s := by
  simp [submitIfReady, h]

/-- What the drain loop takes, when it takes anything, goes to the hardware and the transport is `Sending` (R141). -/
theorem submitIfReady_of_drain {q : RingBuffer Byte} {buf : List Byte} (h : s.st.txIdle = true)
    (hd : s.st.tx.drain s.params.txCap (min s.st.tx.count s.params.maxPkt) = .ok (q, buf)) (hb : 1 ≤ buf.length) :
    submitIfReady s = .ok (((s.withTx q).emitHwtx buf).withTxIdle false) := by
  simp only [submitIfReady, h, hd, hb, if_true]

/-- In a state with the invariant there is never anything to submit: `Idle` means that `tx` is empty (R34). -/
theorem submitIfReady_of_inv (hs : s.Inv) : submitIfReady s = .ok s := by
  obtain ⟨-, hempty⟩ := State.inv_iff.mp hs
  cases hidle : s.st.txIdle with
  | false => exact submitIfReady_sending hidle
  | true => exact submitIfReady_empty (hempty hidle)

/-- While `Sending` a committed byte joins the tail of `tx` (R145). -/
theorem commit_sending (h : s.st.txIdle = false) (hc : s.st.tx.count ≠ s.params.txCap)
    (hw : s.st.tx.writeCursor < s.params.txCap) :
    commit c s = .ok (s.withTx { s.st.tx with
      storage := Cells.write s.st.tx.storage s.st.tx.writeCursor c, count := s.st.tx.count + 1,
      writeCursor := (s.st.tx.writeCursor + 1) % s.params.txCap }) := by
  simp [commit, RingBuffer.put_ok c hc hw, h]

/-- While `Idle` a committed byte joins `tx` and the oldest bytes are submitted at once (R145, R141). -/
theorem commit_idle (h : s.st.txIdle = true) (hi : RingBuffer.Inv s.params.txCap s.st.tx)
    (hroom : s.st.tx.count < s.params.txCap) (hp : 1 ≤ s.params.maxPkt) :
    commit c s = .ok (((s.withTx {
      storage := Cells.write s.st.tx.storage s.st.tx.writeCursor c,
      count := s.st.tx.count + 1 - min (s.st.tx.count + 1) s.params.maxPkt,
      readCursor := (s.st.tx.readCursor + min (s.st.tx.count + 1) s.params.maxPkt) % s.params.txCap,
      writeCursor := (s.st.tx.writeCursor + 1) % s.params.txCap }).emitHwtx
        ((s.st.tx.held s.params.txCap ++ [c]).take s.params.maxPkt)).withTxIdle false) := by
  obtain ⟨-, -, -, hw, -⟩ := id hi
  have hput := RingBuffer.put_ok c (Nat.ne_of_lt hroom) hw
  simp only [commit, hput, h, if_true]
  rw [← RingBuffer.put_held hi hput]
  exact submitIfReady_idle (s := s.withTx _) (RingBuffer.put_inv hi hput) hp h (Nat.succ_ne_zero _)

/-- A value put on an empty queue is drained alone, through the cell at the write cursor. -/
theorem RingBuffer.drain_one_of_put {α : Type} {cap : Nat} {q : RingBuffer α} (v : α) (hc : q.count = 0)
    (hcur : q.readCursor = q.writeCursor) (hw : q.writeCursor < cap) :
    RingBuffer.drain cap 1 { q with storage := Cells.write q.storage q.writeCursor v,
                                    writeCursor := (q.writeCursor + 1) % cap, count := q.count + 1 } =
      .ok ({ storage := Cells.write q.storage q.writeCursor v, count := 0,
             readCursor := (q.readCursor + 1) % cap, writeCursor := (q.writeCursor + 1) % cap }, [v]) := by
  simp [RingBuffer.drain, RingBuffer.get, loadCell, advance, hc, hcur, hw]

/-- The kick: with `tx` empty the byte passes through the cell at the write cursor and goes out alone. The storage need not
be canonical (R145). -/
theorem commit_idle_empty (h : s.st.txIdle = true) (hc : s.st.tx.count = 0)
    (hcur : s.st.tx.readCursor = s.st.tx.writeCursor) (hw : s.st.tx.writeCursor < s.params.txCap)
    (hp : 1 ≤ s.params.maxPkt) :
    commit c s = .ok (((s.withTx {
      storage := Cells.write s.st.tx.storage s.st.tx.writeCursor c, count := 0,
      readCursor := (s.st.tx.readCursor + 1) % s.params.txCap,
      writeCursor := (s.st.tx.writeCursor + 1) % s.params.txCap }).emitHwtx [c]).withTxIdle false) := by
  have hput := RingBuffer.put_ok c (show s.st.tx.count ≠ s.params.txCap by omega) hw
  have hmin : min (s.st.tx.count + 1) s.params.maxPkt = 1 := by omega
  simp only [commit, hput, h, if_true]
  refine submitIfReady_of_drain (s := s.withTx _) h ?_ (Nat.le_refl 1)
  exact (congrArg (RingBuffer.drain _ · _) hmin).trans (RingBuffer.drain_one_of_put c hc hcur hw)

/-! ### `ST.PUTCHAR` and the phases, one equation per case -/

/-- `ST.PUTCHAR` from a free agent `M` with room in `tx` commits its byte and is answered `OK`; the sequencer stays
idle. -/
theorem exec_stPutchar_room (ho : s.env.origin = .stM) (hf : s.st.putSeq = .idle)
    (hroom : s.st.tx.count < s.params.txCap) (h : commit c s = .ok t) :
    exec (.stPutchar c) s =
      .next { t with env := { s.env with answers := { s.env.answers with stM := s.env.answers.stM ++ [.ok] } } } := by
  have hl : s.legal (.stPutchar c) = true := State.legal_of_accepts ho rfl rfl
  have henv := commit_env h
  obtain ⟨-, -, -, -, hseq, -⟩ := commit_frame h
  have hidle : t.withPutSeq .idle = t := by
    rw [← hf, ← hseq]
    rfl
  simp only [exec, execStPutchar, perform_legal hl hf, putCharIssue, hroom, if_true, h, putCharDone, hidle]
  rw [State.respond_of_stM (henv ▸ ho), henv]

/-- With `tx` full it starts to wait with the whole budget, unanswered. -/
theorem exec_stPutchar_full (ho : s.env.origin = .stM) (hf : s.st.putSeq = .idle)
    (hfull : s.params.txCap ≤ s.st.tx.count) :
    exec (.stPutchar c) s = .next (s.withPutSeq (.wait c s.params.putRetries)) := by
  have hl : s.legal (.stPutchar c) = true := State.legal_of_accepts ho rfl rfl
  simp only [exec, execStPutchar, perform_legal hl hf, putCharIssue, Nat.not_lt.mpr hfull, if_false]

theorem putCharPhase_retry_room {k : Nat} (hroom : s.st.tx.count < s.params.txCap) (h : commit c s = .ok t) :
    putCharPhase c (k + 1) s = .next ((t.withPutSeq .idle).respond .ok) := by
  simp only [putCharPhase, putCharRetry, hroom, if_true, h, putCharDone]

theorem putCharPhase_retry_full {k : Nat} (hfull : s.params.txCap ≤ s.st.tx.count) :
    putCharPhase c (k + 1) s = .next (s.withPutSeq (.wait c k)) :=
  if_neg (Nat.not_lt.mpr hfull)

theorem putCharPhase_exhausted_room (hsub : submitIfReady s = .ok s') (hc : s'.st.tx.count ≠ s'.params.txCap)
    (h : commit c s' = .ok t) : putCharPhase c 0 s = .next ((t.withPutSeq .idle).respond .ok) := by
  simp only [putCharPhase, putCharExhausted, hsub, hc, if_false, h, putCharDone]

theorem putCharPhase_exhausted_full (hsub : submitIfReady s = .ok s') (hc : s'.st.tx.count = s'.params.txCap) :
    putCharPhase c 0 s = .next ((s'.withPutSeq .idle).respond .saturated) := by
  simp only [putCharPhase, putCharExhausted, hsub, hc, if_true]

/-! ### The other operations -/

/-- `ST.GETCHAR` from a free agent `M` is `get` on `rx`, answered by what `get` answers. -/
theorem exec_stGetchar {q : RingBuffer Byte} {a : Option Byte} (ho : s.env.origin = .stM) (hf : s.st.putSeq = .idle)
    (h : s.st.rx.get s.params.rxCap = .ok (q, a)) :
    exec .stGetchar s = .next ((s.withRx q).respond (a.elim .empty fun b => .okValue b.toNat)) := by
  have hl : s.legal .stGetchar = true := State.legal_of_accepts ho rfl rfl
  cases a with
  | none => simp only [exec, execStGetchar, perform_legal hl hf, h, Option.elim_none]
  | some b => simp only [exec, execStGetchar, perform_legal hl hf, h, Option.elim_some]

theorem exec_stSubmit (ho : s.env.origin = .stM) (hf : s.st.putSeq = .idle) (h : submitIfReady s = .ok t) :
    exec .stSubmit s = .next (t.respond .ok) := by
  have hl : s.legal .stSubmit = true := State.legal_of_accepts ho rfl rfl
  simp only [exec, execStSubmit, perform_legal hl hf, h]

/-- `ST.TXDONE` makes the transport `Idle` and submits, whatever the sequencer holds. -/
theorem exec_stTxdone (ho : s.env.origin = .stTxdone) (h : submitIfReady (s.withTxIdle true) = .ok t) :
    exec .stTxdone s = .next t := by
  have hl : s.legal .stTxdone = true := State.legal_of_accepts ho rfl rfl
  have hm : s.env.origin.agent ≠ .mainLoop := by rw [ho]; decide
  simp only [exec, execStTxdone, perform_legal_of_not_main hl hm, h, settle]

/-- A packet of legal length is put on `rx` byte by byte, whatever the sequencer holds. -/
theorem exec_stRxpkt {pkt : List Byte} {q : RingBuffer Byte} (ho : s.env.origin = .stRx)
    (hlen : pkt.length ≤ s.params.maxPkt) (h : s.st.rx.putAll s.params.rxCap pkt = .ok q) :
    exec (.stRxpkt pkt) s = .next (s.withRx q) := by
  have hl : s.legal (.stRxpkt pkt) = true := State.legal_of_accepts ho rfl (decide_eq_true hlen)
  have hm : s.env.origin.agent ≠ .mainLoop := by rw [ho]; decide
  simp only [exec, execStRxpkt, perform_legal_of_not_main hl hm, h]

/-! ### The obligations -/

/-- Settles O36: full, `commit_sending` and `commit_idle`. -/
theorem putCharRetryPhase : Obligations.PutCharRetryPhase := by
  intro s ch turns c k hs ha hp
  obtain rfl : s.env.schedule.tail = turns := by rw [hs, List.tail_cons]
  rw [step_of_wait hs ha hp]
  refine ⟨fun hfull => ?_, fun hidle hroom hw => ?_, fun hidle hroom hi hmax => ?_⟩
  · exact putCharPhase_retry_full (s := s.popTurn.withOrigin .stM) hfull
  · exact putCharPhase_retry_room (s := s.popTurn.withOrigin .stM) hroom (commit_sending hidle (Nat.ne_of_lt hroom) hw)
  · exact putCharPhase_retry_room (s := s.popTurn.withOrigin .stM) hroom (commit_idle hidle hi hroom hmax)

/-- Settles O37: the forced submission does nothing in the first three cases; in the last it makes room, and the byte is
committed while `Sending`. -/
theorem putCharExhaustedPhase : Obligations.PutCharExhaustedPhase := by
  intro s ch turns c hs ha hp
  obtain rfl : s.env.schedule.tail = turns := by rw [hs, List.tail_cons]
  rw [step_of_wait hs ha hp]
  refine ⟨fun hidle hc => ?_, fun hidle hc hw => ?_, fun hidle hc hi hmax => ?_, fun hidle hc hi hmax => ?_⟩
  · exact putCharPhase_exhausted_full (submitIfReady_sending (s := s.popTurn.withOrigin .stM) hidle) hc
  · exact putCharPhase_exhausted_room (submitIfReady_sending (s := s.popTurn.withOrigin .stM) hidle) hc
      (commit_sending hidle hc hw)
  · obtain ⟨-, -, -, hw, -⟩ := id hi
    have hroom : s.st.tx.count ≠ s.params.txCap := by omega
    exact putCharPhase_exhausted_room (submitIfReady_empty (s := s.popTurn.withOrigin .stM) hc) hroom
      (commit_idle_empty hidle hc (RingBuffer.cursors_eq hi (.inr hc)) hw hmax)
  · obtain ⟨-, hle, -, hw, -⟩ := id hi
    have hroom : s.st.tx.count - min s.st.tx.count s.params.maxPkt ≠ s.params.txCap := by omega
    exact putCharPhase_exhausted_room (submitIfReady_idle (s := s.popTurn.withOrigin .stM) hi hmax hidle hc) hroom
      (commit_sending rfl hroom hw)

/-- Settles O41. -/
theorem submitChangesNothing : Obligations.SubmitChangesNothing := by
  intro s hs ho hf
  rw [exec_stSubmit ho hf (submitIfReady_of_inv hs), State.respond_of_stM ho]

/-- Settles O42: `submitIfReady` from `Idle`, with `tx` empty or not. -/
theorem txDoneSubmitsTheOldestBytes : Obligations.TxDoneSubmitsTheOldestBytes := by
  intro s ho hi hmax
  refine ⟨fun hc => ?_, fun hc => ?_⟩
  · exact exec_stTxdone ho (submitIfReady_empty (s := s.withTxIdle true) hc)
  · exact exec_stTxdone ho (submitIfReady_idle (s := s.withTxIdle true) hi hmax rfl hc)

/-- Settles O43 by `RingBuffer.putAll_spec`; a cell that changed would be one a stored byte has taken. -/
theorem rxPacketStoresWhatFits : Obligations.RxPacketStoresWhatFits := by
  intro s pkt ho hlen hi
  obtain ⟨q, hall, -, hheld, hcount, hr, hw⟩ := RingBuffer.putAll_spec pkt hi
  refine ⟨q, exec_stRxpkt ho hlen hall, hheld, hcount, hr, hw, fun a ha => ?_⟩
  by_contra hne
  obtain ⟨j, hj, haj, -⟩ := RingBuffer.putAll_changes hi hall hne
  exact ha j hj haj

/-- Settles O34: the byte is committed while `Idle` with `tx` empty. -/
theorem putCharWhileIdleKicks : Obligations.PutCharWhileIdleKicks := by
  intro s c ho hf hidle hc hcur hw hmax
  exact exec_stPutchar_room ho hf (by omega) (commit_idle_empty hidle hc hcur hw hmax)

/-- Settles O35: the byte is committed while `Sending`, or starts to wait. -/
theorem putCharWhileSending : Obligations.PutCharWhileSending := by
  intro s c ho hf hidle
  refine ⟨fun hroom hw => ?_, exec_stPutchar_full ho hf⟩
  exact exec_stPutchar_room ho hf hroom (commit_sending hidle (Nat.ne_of_lt hroom) hw)

/-- Settles O40: the two cases of `get`. -/
theorem getCharReturnsOldestByte : Obligations.GetCharReturnsOldestByte := by
  intro s ho hf
  refine ⟨fun hc => ?_, fun b hc hr hv => ?_⟩
  · rw [exec_stGetchar ho hf (RingBuffer.get_empty hc), State.withRx_respond_of_stM ho]
    rfl
  · rw [exec_stGetchar ho hf (RingBuffer.get_ok hc hr hv), State.withRx_respond_of_stM ho]
    rfl

end Sys2Proof.Machine
end

section
/-! PROOFS. The ring of frames: how many frames wait and which samples they have, over the operations of unit U3: O51, O52,
O55 (42_frame_buffer.md R170 to R177). -/

namespace Sys2Proof.Machine

variable {p : Params} {f f' : FrameBuffer}

/-! ### How many frames wait -/

theorem FrameBuffer.waitingCount_lt (hw : f.writeSlot < p.r) : f.waitingCount p < p.r :=
  Nat.mod_lt _ (Nat.zero_lt_of_lt hw)

/-- The frame in progress comes right after the frames that wait. -/
theorem FrameBuffer.readSlot_add_waitingCount (hw : f.writeSlot < p.r) (hr : f.readSlot < p.r) :
    (f.readSlot + f.waitingCount p) % p.r = f.writeSlot := by
  have hsum : f.readSlot + (f.writeSlot + p.r - f.readSlot) = f.writeSlot + p.r := by omega
  rw [FrameBuffer.waitingCount, Nat.add_mod_mod, hsum, Nat.add_mod_right, Nat.mod_eq_of_lt hw]

/-- Below `R` there is one number of slots from `readSlot` to `writeSlot`. -/
theorem FrameBuffer.waitingCount_eq {n : Nat} (hr : f.readSlot < p.r) (hn : n < p.r)
    (h : (f.readSlot + n) % p.r = f.writeSlot) : f.waitingCount p = n := by
  have hw : f.writeSlot < p.r := h ▸ Nat.mod_lt _ (Nat.zero_lt_of_lt hn)
  have hsum := FrameBuffer.readSlot_add_waitingCount hw hr
  obtain hlt | heq | hgt := Nat.lt_trichotomy (f.waitingCount p) n
  · exact absurd (hsum.trans h.symm) (mod_add_ne hlt hn)
  · exact heq
  · exact absurd (h.trans hsum.symm) (mod_add_ne hgt (FrameBuffer.waitingCount_lt hw))

/-- The slot after the one in progress, counted from `readSlot`. -/
theorem FrameBuffer.next_eq_readSlot_add (hw : f.writeSlot < p.r) (hr : f.readSlot < p.r) :
    (f.writeSlot + 1) % p.r = (f.readSlot + (f.waitingCount p + 1)) % p.r := by
  rw [← Nat.add_assoc, ← Nat.mod_add_mod (f.readSlot + _), FrameBuffer.readSlot_add_waitingCount hw hr]

/-- No slot is free exactly when `R - 1` frames wait (R172). -/
theorem FrameBuffer.next_eq_readSlot_iff (hw : f.writeSlot < p.r) (hr : f.readSlot < p.r) :
    (f.writeSlot + 1) % p.r = f.readSlot ↔ f.waitingCount p + 1 = p.r := by
  rw [FrameBuffer.next_eq_readSlot_add hw hr]
  have hlt := FrameBuffer.waitingCount_lt hw
  constructor
  · intro h
    by_contra hne
    refine mod_add_ne (a := f.readSlot) (Nat.succ_pos (f.waitingCount p)) (show _ < p.r by omega) ?_
    rw [h, Nat.add_zero, Nat.mod_eq_of_lt hr]
  · intro h
    rw [h, Nat.add_mod_right, Nat.mod_eq_of_lt hr]

/-- A slot that waits is not the one in progress (R170). -/
theorem FrameBuffer.waiting_ne_writeSlot {k : Nat} (hw : f.writeSlot < p.r) (hr : f.readSlot < p.r)
    (hk : k < f.waitingCount p) : (f.readSlot + k) % p.r ≠ f.writeSlot := by
  have h := mod_add_ne (a := f.readSlot) hk (FrameBuffer.waitingCount_lt hw)
  rwa [FrameBuffer.readSlot_add_waitingCount hw hr] at h

/-! ### The samples of the frames -/

theorem Slot.samples_length {sl : Slot} (h : Slot.Inv p sl) : sl.samples.length = sl.length := by
  obtain ⟨-, -, -, hwritten⟩ := h
  have hall : ∀ i ∈ List.range sl.length, (sl.data.read i).isSome = true := fun i hi => hwritten i (List.mem_range.mp hi)
  rw [Slot.samples, List.filterMap_length_eq_length.mpr hall, List.length_range]

/-- A change of the slot in progress alone touches no frame that waits (R42, R170). -/
theorem FrameBuffer.waiting_set_writeSlot {sl : Slot} (hf : FrameBuffer.Inv p f)
    (hs : f'.slots = f.slots.set f.writeSlot sl) (hw : f'.writeSlot = f.writeSlot) (hr : f'.readSlot = f.readSlot) :
    f'.inProgress = sl.samples ∧ f'.waiting p = f.waiting p := by
  obtain ⟨hlen, -, hwlt, hrlt, -⟩ := hf
  have hset := fun j => FrameBuffer.slotAt_set (j := j) f.slots (show f.writeSlot < f.slots.length by omega) hs
  have hcount : f'.waitingCount p = f.waitingCount p := by rw [FrameBuffer.waitingCount, hw, hr, FrameBuffer.waitingCount]
  refine ⟨by rw [FrameBuffer.inProgress, hset, hw, if_pos rfl], ?_⟩
  rw [FrameBuffer.waiting, FrameBuffer.waiting, hcount, hr]
  refine List.map_congr_left fun k hk => ?_
  rw [hset, if_neg (FrameBuffer.waiting_ne_writeSlot hwlt hrlt (List.mem_range.mp hk))]
  rfl

/-- A sample leaves the frames that wait and joins the frame in progress (R171). -/
theorem FrameBuffer.sample_waiting {v : Sample} (hf : FrameBuffer.Inv p f) (h : f.sample p v = .ok f') :
    f'.inProgress = f.inProgress ++ (if f.inProgress.length < p.maxPos then [v] else []) ∧
    f'.waiting p = f.waiting p := by
  rw [FrameBuffer.sample_ok v hf] at h
  have e := (Except.ok.inj h).symm
  obtain ⟨hprog, hwait⟩ := FrameBuffer.waiting_set_writeSlot hf (congrArg FrameBuffer.slots e) (by rw [e]) (by rw [e])
  refine ⟨hprog.trans ?_, hwait⟩
  obtain ⟨-, -, hw, -⟩ := id hf
  rw [FrameBuffer.inProgress, Slot.samples_length (FrameBuffer.slotAt_inv hf hw)]
  split
  · exact Slot.samples_store _ v
  · exact (List.append_nil _).symm

/-- A completed frame with no free slot is dropped (R172). -/
theorem FrameBuffer.frame_waiting_full (hf : FrameBuffer.Inv p f) (hn : (f.writeSlot + 1) % p.r = f.readSlot)
    (h : f.frame p = .ok f') : f'.inProgress = [] ∧ f'.waiting p = f.waiting p := by
  rw [FrameBuffer.frame_overrun hf hn] at h
  have e := (Except.ok.inj h).symm
  exact FrameBuffer.waiting_set_writeSlot hf (congrArg FrameBuffer.slots e) (by rw [e]) (by rw [e])

/-- With a free slot one frame more waits. -/
theorem FrameBuffer.frame_waitingCount_free (hf : FrameBuffer.Inv p f) (hn : (f.writeSlot + 1) % p.r ≠ f.readSlot)
    (h : f.frame p = .ok f') : f'.waitingCount p = f.waitingCount p + 1 := by
  rw [FrameBuffer.frame_advance hf hn] at h
  cases h
  obtain ⟨-, -, hw, hr, -⟩ := hf
  have hlt := FrameBuffer.waitingCount_lt hw
  have hne := mt (FrameBuffer.next_eq_readSlot_iff hw hr).mpr hn
  exact FrameBuffer.waitingCount_eq hr (by omega) (FrameBuffer.next_eq_readSlot_add hw hr).symm

/-- A completed frame with a free slot is the newest that waits (R172, R173). -/
theorem FrameBuffer.frame_waiting_free (hf : FrameBuffer.Inv p f) (hn : (f.writeSlot + 1) % p.r ≠ f.readSlot)
    (h : f.frame p = .ok f') : f'.waiting p = f.waiting p ++ [f.inProgress] := by
  have hcount := FrameBuffer.frame_waitingCount_free hf hn h
  rw [FrameBuffer.frame_advance hf hn] at h
  cases h
  obtain ⟨hlen, -, hw, hr, -⟩ := hf
  have hlt := FrameBuffer.waitingCount_lt hw
  have hne := mt (FrameBuffer.next_eq_readSlot_iff hw hr).mpr hn
  have hnext : (f.writeSlot + 1) % p.r < p.r := Nat.mod_lt _ (Nat.zero_lt_of_lt hw)
  have hkeep : ∀ k, k ≤ f.waitingCount p → (f.readSlot + k) % p.r ≠ (f.writeSlot + 1) % p.r := fun k hk => by
    rw [FrameBuffer.next_eq_readSlot_add hw hr]
    exact mod_add_ne (by omega) (by omega)
  rw [FrameBuffer.waiting, hcount, List.range_succ, List.map_append]
  congr 1
  · refine List.map_congr_left fun k hk => ?_
    rw [FrameBuffer.slotAt_set f.slots (by omega) rfl, if_neg (hkeep k (List.mem_range.mp hk).le)]
    rfl
  · rw [List.map_singleton, FrameBuffer.slotAt_set f.slots (by omega) rfl, if_neg (hkeep _ le_rfl),
      FrameBuffer.readSlot_add_waitingCount hw hr]
    rfl

/-- What `tryTake` delivers is the oldest frame that waited, and the others wait on (R174). -/
theorem FrameBuffer.take_waiting {r : Result} (hf : FrameBuffer.Inv p f) (h : f.take p = .ok (f', r)) :
    f.waiting p = framesOf [r] ++ f'.waiting p := by
  cases ho : f.overrun with
  | true => rw [FrameBuffer.take_overrun ho] at h; cases h; rfl
  | false =>
    by_cases he : f.readSlot = f.writeSlot
    · rw [FrameBuffer.take_none ho he] at h; cases h; rfl
    · rw [FrameBuffer.take_ok hf ho he] at h
      cases h
      obtain ⟨-, -, hw, hr, -⟩ := hf
      have hlt := FrameBuffer.waitingCount_lt hw
      have hsum := FrameBuffer.readSlot_add_waitingCount hw hr
      obtain ⟨n, hn⟩ : ∃ n, f.waitingCount p = n + 1 := by
        refine Nat.exists_eq_succ_of_ne_zero fun h0 => he ?_
        rwa [h0, Nat.add_zero, Nat.mod_eq_of_lt hr] at hsum
      have hcount : FrameBuffer.waitingCount p { f with readSlot := (f.readSlot + 1) % p.r } = n := by
        refine FrameBuffer.waitingCount_eq (Nat.mod_lt _ (by omega)) (by omega) ?_
        rw [Nat.mod_add_mod, Nat.add_assoc, Nat.add_comm 1, ← hn, hsum]
      rw [FrameBuffer.waiting, FrameBuffer.waiting, hn, hcount, List.range_succ_eq_map, List.map_cons, List.map_map,
        Nat.add_zero, Nat.mod_eq_of_lt hr]
      refine congrArg (_ :: ·) (List.map_congr_left fun k _ => ?_)
      simp only [Function.comp_apply, Nat.mod_add_mod, Nat.succ_eq_add_one, Nat.add_assoc, Nat.add_comm 1]
      rfl

/-! ### Frame cycles with no take -/

/-- A frame's samples leave the indices and the flag (R171). -/
theorem FrameBuffer.sampleAll_spec (vs : List Sample) (hv : ∀ v ∈ vs, v.toNat < 2 ^ p.sw) (hf : FrameBuffer.Inv p f) :
    ∃ f', f.sampleAll p vs = .ok f' ∧ FrameBuffer.Inv p f' ∧ f'.waitingCount p = f.waitingCount p ∧
      f'.overrun = f.overrun := by
  induction vs generalizing f with
  | nil => exact ⟨f, rfl, hf, rfl, rfl⟩
  | cons v vs ih =>
    obtain ⟨hv, hvs⟩ := List.forall_mem_cons.mp hv
    have hsample := FrameBuffer.sample_ok v hf
    obtain ⟨f', hall, hf', hcount, hover⟩ := ih hvs (FrameBuffer.sample_inv hf hv hsample)
    exact ⟨f', by rw [FrameBuffer.sampleAll, hsample]; exact hall, hf', hcount, hover⟩

/-- A frame-complete edge makes one frame more wait, or finds `R - 1` of them and sets `overrun` (R172). -/
theorem FrameBuffer.frame_waitingCount_cases (hf : FrameBuffer.Inv p f) (h : f.frame p = .ok f') :
    f.waitingCount p + 1 < p.r ∧ f'.waitingCount p = f.waitingCount p + 1 ∧ f'.overrun = f.overrun ∨
    f.waitingCount p + 1 = p.r ∧ f'.waitingCount p = f.waitingCount p ∧ f'.overrun = true := by
  have ⟨_, _, hw, hr, _⟩ := hf
  have hiff := FrameBuffer.next_eq_readSlot_iff hw hr
  by_cases hn : (f.writeSlot + 1) % p.r = f.readSlot
  · rw [FrameBuffer.frame_overrun hf hn] at h
    cases h
    exact .inr ⟨hiff.mp hn, rfl, rfl⟩
  · have hlt := FrameBuffer.waitingCount_lt hw
    have hne := mt hiff.mpr hn
    obtain ⟨-, ⟨hn', -⟩ | ⟨-, hover, -⟩⟩ := FrameBuffer.frame_flags h
    · exact absurd hn' hn
    · exact .inl ⟨by omega, FrameBuffer.frame_waitingCount_free hf hn h, hover⟩

/-- Frame cycles fill the ring up to `R - 1` waiting frames; one more sets `overrun`, and it stays set (R176, R177). -/
theorem FrameBuffer.cycles_spec (vss : List (List Sample)) (hv : ∀ vs ∈ vss, ∀ v ∈ vs, v.toNat < 2 ^ p.sw)
    (hf : FrameBuffer.Inv p f) :
    ∃ f', f.cycles p vss = .ok f' ∧
      (f.waitingCount p + vss.length < p.r →
        f'.overrun = f.overrun ∧ f'.waitingCount p = f.waitingCount p + vss.length) ∧
      (p.r ≤ f.waitingCount p + vss.length → f'.overrun = true) := by
  induction vss generalizing f with
  | nil =>
    obtain ⟨-, -, hw, -⟩ := hf
    have hlt := FrameBuffer.waitingCount_lt hw
    exact ⟨f, rfl, fun _ => ⟨rfl, rfl⟩, fun h => absurd hlt (Nat.not_lt.mpr h)⟩
  | cons vs vss ih =>
    obtain ⟨hvs, hvss⟩ := List.forall_mem_cons.mp hv
    obtain ⟨f₁, hall, hf₁, hcount₁, hover₁⟩ := FrameBuffer.sampleAll_spec vs hvs hf
    obtain ⟨f₂, hframe⟩ := FrameBuffer.frame_total hf₁
    obtain ⟨f', hcycles, hfree, hfull⟩ := ih hvss (FrameBuffer.frame_inv hf₁ hframe)
    refine ⟨f', by simp only [FrameBuffer.cycles, hall, hframe, hcycles], ?_⟩
    rw [← hcount₁, ← hover₁, List.length_cons]
    obtain ⟨hroom, hcount₂, hover₂⟩ | ⟨hlast, hcount₂, hover₂⟩ := FrameBuffer.frame_waitingCount_cases hf₁ hframe
    · rw [hcount₂, hover₂, Nat.add_right_comm, Nat.add_assoc] at hfree
      rw [hcount₂, Nat.add_right_comm, Nat.add_assoc] at hfull
      exact ⟨hfree, hfull⟩
    · refine ⟨fun h => by omega, fun _ => ?_⟩
      by_cases hnil : f₂.waitingCount p + vss.length < p.r
      · rw [(hfree hnil).1, hover₂]
      · exact hfull (Nat.le_of_not_lt hnil)

/-! ### The obligations -/

/-- Settles O55: `FrameBuffer.cycles_spec` from an empty ring. -/
theorem ringOfFramesOverrunsAtTheRthCycle : Obligations.RingOfFramesOverrunsAtTheRthCycle := by
  intro p f vss hf he ho hv
  have ⟨_, _, _, hr, _⟩ := hf
  have hzero : f.waitingCount p = 0 :=
    FrameBuffer.waitingCount_eq hr (Nat.zero_lt_of_lt hr) (by rw [Nat.add_zero, Nat.mod_eq_of_lt hr, he])
  obtain ⟨f', hcycles, hfree, hfull⟩ := FrameBuffer.cycles_spec vss hv hf
  rw [hzero, Nat.zero_add] at hfree hfull
  refine ⟨f', hcycles, fun hlen => ?_, fun hlen => hfull hlen.ge⟩
  obtain ⟨hover, hcount⟩ := hfree (by omega)
  exact ⟨hover.trans ho, by omega⟩

/-- Settles O51. -/
theorem samplesJoinTheFrameInProgress : Obligations.SamplesJoinTheFrameInProgress :=
  fun _ _ _ _ hf h => FrameBuffer.sample_waiting hf h

/-- Settles O52: by the invariant, `overrun` means that no slot is free. -/
theorem overrunDiscardsEveryFurtherFrame : Obligations.OverrunDiscardsEveryFurtherFrame := by
  intro p f f' hf ho h
  have ⟨_, _, _, _, _, hfull, _⟩ := hf
  have hn : (f.writeSlot + 1) % p.r = f.readSlot := hfull ho
  obtain ⟨hprog, hwait⟩ := FrameBuffer.frame_waiting_full hf hn h
  rw [FrameBuffer.frame_overrun hf hn] at h
  cases h
  exact ⟨rfl, rfl, rfl, hprog, hwait, rfl⟩

end Sys2Proof.Machine
end

section
/-! PROOFS. What a run delivers: O50 (42_frame_buffer.md R173, R174; 20_memory.md R75). -/

namespace Sys2Proof.Machine

section Delivery

variable {s t u : State} {kept kept' : List (List Sample)}

/-- From `s` to `t` the frames `kept` have joined the waiting ones, and the answers on `fb_m` have delivered the oldest of
them all. -/
def FramesPass (s t : State) (kept : List (List Sample)) : Prop :=
  ∃ results, t.env.answers.fbM = s.env.answers.fbM ++ results ∧
    s.fb.waiting s.params ++ kept = framesOf results ++ t.fb.waiting t.params

theorem FramesPass.refl (s : State) : FramesPass s s [] := ⟨[], by simp, by simp [framesOf]⟩

theorem FramesPass.trans (h : FramesPass s t kept) (h' : FramesPass t u kept') : FramesPass s u (kept ++ kept') := by
  obtain ⟨rs, hans, hframes⟩ := h
  obtain ⟨rs', hans', hframes'⟩ := h'
  refine ⟨rs ++ rs', by rw [hans', hans, List.append_assoc], ?_⟩
  rw [← List.append_assoc, hframes, List.append_assoc, hframes', framesOf, framesOf, framesOf, List.filterMap_append,
    List.append_assoc]

/-! ### The frame a step keeps -/

/-- A step runs at most one operation (R7). -/
theorem State.runs_unique {i j : Instr} (hi : s.runs i) (hj : s.runs j) : i = j := by
  obtain ⟨s', hn, -⟩ := hj
  exact ((State.runs_iff_of_run hn).mp hi).1

theorem State.keptFrame_of_runs (hr : s.runs .fbFrame) :
    s.keptFrame = if (s.fb.writeSlot + 1) % s.params.r = s.fb.readSlot then [] else [s.fb.inProgress] := by
  obtain ⟨s', hn, hl⟩ := hr
  by_cases hfull : (s.fb.writeSlot + 1) % s.params.r = s.fb.readSlot <;>
    simp [State.keptFrame, hn, hl, advance, hfull]

theorem State.keptFrame_of_not_runs (hr : ¬ s.runs .fbFrame) : s.keptFrame = [] := by
  unfold State.keptFrame
  split
  · next s' hn =>
    have hl : ¬ s'.legal .fbFrame = true := fun hl => hr ⟨s', hn, hl⟩
    simp [hl]
  · rfl

/-! ### The answers on `fb_m` -/

/-- From `s` to `t` no answer on `fb_m` has delivered a frame. -/
def DeliversNoFrame (s t : State) : Prop :=
  ∃ results, t.env.answers.fbM = s.env.answers.fbM ++ results ∧ framesOf results = []

theorem DeliversNoFrame.of_eq (h : t.env.answers.fbM = s.env.answers.fbM) : DeliversNoFrame s t :=
  ⟨[], h.trans (List.append_nil _).symm, rfl⟩

theorem DeliversNoFrame.illegal (s : State) (ch : Channel) (rest : List Word) :
    DeliversNoFrame s (s.accept ch rest).answerIllegal := by
  by_cases hch : ch = .fbM
  · subst hch
    exact ⟨[.illegal], rfl, rfl⟩
  · exact .of_eq (Answers.get_push_of_ne s.env.answers .illegal (Ne.symm hch))

/-- `FB.TAKE` alone delivers frames: of the other operations `fb_m` takes only `FB.RESET`. -/
theorem effect_delivers_no_frame {i : Instr} (ha : s.env.origin.accepts i = true) (hi : i ≠ .fbTake)
    (h : Effect s t i) : DeliversNoFrame s t := by
  by_cases ho : s.env.origin = .fbM
  · cases i with
    | fbTake => exact absurd rfl hi
    | fbReset =>
      cases h
      exact ⟨[.ok], by simp [ho, Answers.push], rfl⟩
    | rbPut v | rbGet | rbIsfull | rbIsempty | rbLength | stPutchar c | stGetchar |
      stSubmit | stTxdone | stRxpkt pkt | fbSample v | fbFrame => simp [ho, Channel.accepts] at ha
  · exact .of_eq ((effect_answers h).answers_of_ne (Ne.symm ho))

/-- A step that runs no `FB.TAKE` delivers no frame. -/
theorem step_delivers_no_frame (h : step s = .next t) (ht : ¬ s.runs .fbTake) : DeliversNoFrame s t := by
  obtain ⟨-, -, rfl⟩ | ⟨ch, turns, -, ⟨c, k, -, -, -, hphase⟩ | ⟨-, ⟨-, rfl⟩ | ⟨rest, -, rfl⟩ |
    ⟨i, rest, -, hn, ⟨-, rfl⟩ | ⟨hl, he⟩⟩⟩⟩ := step_cases h
  · exact .of_eq rfl
  · exact .of_eq ((putCharPhase_answers hphase).answers_of_ne (ch := .fbM) (by simp))
  · exact .of_eq rfl
  · exact .illegal s ch rest
  · exact .illegal s ch rest
  · refine effect_delivers_no_frame (s := s.accept ch rest) (State.legal_iff.mp hl).1 ?_ he
    rintro rfl
    exact ht ⟨_, hn, hl⟩

/-- A step that runs `FB.TAKE` answers what `tryTake` answers. -/
theorem take_of_runs (h : step s = .next t) (hr : s.runs .fbTake) :
    ∃ r, s.fb.take s.params = .ok (t.fb, r) ∧ t.env.answers.fbM = s.env.answers.fbM ++ [r] := by
  obtain ⟨ch, rest, hl, f, r, htake, rfl⟩ := effect_of_runs h hr
  obtain rfl : ch = .fbM := eq_of_beq (State.legal_iff.mp hl).1
  exact ⟨r, htake, rfl⟩

/-! ### One step -/

/-- A step that runs none of `FB.FRAME`, `FB.TAKE` and `FB.RESET` leaves the waiting frames. -/
theorem step_waiting_of_not_frame (hf : FrameBuffer.Inv s.params s.fb) (h : step s = .next t) (hr : ¬ s.runs .fbReset)
    (ht : ¬ s.runs .fbTake) (hk : ¬ s.runs .fbFrame) : t.fb.waiting s.params = s.fb.waiting s.params := by
  obtain ⟨hrun, -⟩ | ⟨hrun, -⟩ | ⟨hrun, -⟩ | ⟨v, -, hsample⟩ | hfb := step_fb_cases h
  · exact absurd hrun hk
  · exact absurd hrun hr
  · exact absurd hrun ht
  · exact (FrameBuffer.sample_waiting hf hsample).2
  · rw [hfb]

/-- Every step but `FB.RESET` passes the frames on: `FB.TAKE` delivers, and any other delivers none and keeps the frame that
an `FB.FRAME` with a free slot completes. -/
theorem step_framesPass (hs : s.Inv) (h : step s = .next t) (hr : ¬ s.runs .fbReset) : FramesPass s t s.keptFrame := by
  have hf := (State.Inv.butIdle hs).fb
  have hp := noStepWritesAParameter s t h
  by_cases ht : s.runs .fbTake
  · obtain ⟨r, htake, hans⟩ := take_of_runs h ht
    have hk : ¬ s.runs .fbFrame := fun hk => by cases State.runs_unique hk ht
    refine ⟨[r], hans, ?_⟩
    rw [hp, State.keptFrame_of_not_runs hk, List.append_nil, FrameBuffer.take_waiting hf htake]
  · obtain ⟨results, hans, hnone⟩ := step_delivers_no_frame h ht
    refine ⟨results, hans, ?_⟩
    rw [hp, hnone, List.nil_append]
    by_cases hk : s.runs .fbFrame
    · have hframe := frame_of_runs h hk
      rw [State.keptFrame_of_runs hk]
      split
      · next hfull => rw [List.append_nil, (FrameBuffer.frame_waiting_full hf hfull hframe).2]
      · next hfree => exact (FrameBuffer.frame_waiting_free hf hfree hframe).symm
    · rw [State.keptFrame_of_not_runs hk, List.append_nil, step_waiting_of_not_frame hf h hr ht hk]

end Delivery

/-- Settles O50, by induction on the number of steps from `step_framesPass`. -/
theorem framesAreTakenInCompletionOrder : Obligations.FramesAreTakenInCompletionOrder := by
  intro n
  induction n with
  | zero =>
    intro s t _ _ h
    cases h
    exact FramesPass.refl s
  | succ n ih =>
    intro s t hs hr h
    obtain ⟨s₁, h₁⟩ := exists_step_of_inv hs
    rw [core_run_succ h₁] at h
    simp only [State.noReset, h₁] at hr
    obtain ⟨hr, hrest⟩ := hr
    simp only [State.keptFrames, h₁]
    exact (step_framesPass hs h₁ hr).trans (ih s₁ t (stepKeepsInvariant s s₁ hs h₁) hrest h)

end Sys2Proof.Machine
end

section
/-! PROOFS. The meanings of unit U3's operations as whole next states, in any state: O45 to O49 (42_frame_buffer.md R171 to
R175; 60_exceptions.md R205, R207). -/

namespace Sys2Proof.Machine

/-! ### The unit's operations on a slot that is there -/

section Unit

variable {p : Params} {f : FrameBuffer} {sl : Slot}

theorem FrameBuffer.sample_of_slot (v : Sample) (hsl : f.slots[f.writeSlot]? = some sl) :
    f.sample p v = .ok { f with
      slots := f.slots.set f.writeSlot
        (if sl.length < p.maxPos then { data := Cells.write sl.data sl.length v, length := sl.length + 1 } else sl) } := by
  simp only [FrameBuffer.sample, hsl, storeSample_ok]

theorem FrameBuffer.frame_advance_of_slot (hn : (f.writeSlot + 1) % p.r ≠ f.readSlot)
    (hsl : f.slots[(f.writeSlot + 1) % p.r]? = some sl) :
    f.frame p = .ok { f with
      slots := f.slots.set ((f.writeSlot + 1) % p.r) sl.cleared, writeSlot := (f.writeSlot + 1) % p.r,
      frameCount := (f.frameCount + 1) % 2 ^ p.fcw } := by
  simp only [FrameBuffer.frame, advance, hn, if_false, clearSlot, hsl]

theorem FrameBuffer.frame_overrun_of_slot (hn : (f.writeSlot + 1) % p.r = f.readSlot)
    (hsl : f.slots[f.writeSlot]? = some sl) :
    f.frame p = .ok { f with
      slots := f.slots.set f.writeSlot sl.cleared, overrun := true, busy := f.busy || !p.continuous,
      frameCount := (f.frameCount + 1) % 2 ^ p.fcw } := by
  simp only [FrameBuffer.frame, advance, hn, if_true, clearSlot, hsl]

/-- `tryTake` with no overrun and a frame waiting in a slot whose samples are written (R174). -/
theorem FrameBuffer.take_of_slot (ho : f.overrun = false) (hne : f.readSlot ≠ f.writeSlot)
    (hsl : f.slots[f.readSlot]? = some sl) (hi : Slot.Inv p sl) :
    f.take p = .ok ({ f with readSlot := (f.readSlot + 1) % p.r }, .okFrame sl.samples) := by
  simp only [FrameBuffer.take, ho, hne, if_false, hsl, loadSamples_ok hi, advance, Bool.false_eq_true]

end Unit

/-! ### The operations on their channels -/

section Exec

variable {s : State} {f : FrameBuffer}

/-- Unit U3 written and agent `M` answered: beside the unit only the answers on `fb_m` change. -/
theorem State.withFb_respond_of_fbM (ho : s.env.origin = .fbM) (f : FrameBuffer) (r : Result) :
    (s.withFb f).respond r =
      { s with fb := f, env := { s.env with answers := { s.env.answers with fbM := s.env.answers.fbM ++ [r] } } } := by
  simp only [State.respond, State.withFb, ho, Answers.push]

/-- A sample in range from the sample handler, whatever the sequencer holds. -/
theorem exec_fbSample {v : Sample} (ho : s.env.origin = .fbSample) (hv : v.toNat < 2 ^ s.params.sw)
    (h : s.fb.sample s.params v = .ok f) : exec (.fbSample v) s = .next (s.withFb f) := by
  have hl : s.legal (.fbSample v) = true := State.legal_of_accepts ho rfl (decide_eq_true hv)
  have hm : s.env.origin.agent ≠ .mainLoop := by rw [ho]; decide
  simp only [exec, execFbSample, perform_legal_of_not_main hl hm, h]

/-- A frame-complete edge, whatever the sequencer holds. -/
theorem exec_fbFrame (ho : s.env.origin = .fbFrame) (h : s.fb.frame s.params = .ok f) :
    exec .fbFrame s = .next (s.withFb f) := by
  have hl : s.legal .fbFrame = true := State.legal_of_accepts ho rfl rfl
  have hm : s.env.origin.agent ≠ .mainLoop := by rw [ho]; decide
  simp only [exec, execFbFrame, perform_legal_of_not_main hl hm, h]

/-- `FB.TAKE` from a free agent `M` is `tryTake`, answered by what it answers. -/
theorem exec_fbTake {r : Result} (ho : s.env.origin = .fbM) (hf : s.st.putSeq = .idle)
    (h : s.fb.take s.params = .ok (f, r)) :
    exec .fbTake s = .next { s with
      fb := f, env := { s.env with answers := { s.env.answers with fbM := s.env.answers.fbM ++ [r] } } } := by
  have hl : s.legal .fbTake = true := State.legal_of_accepts ho rfl rfl
  simp only [exec, execFbTake, perform_legal hl hf, h, State.withFb_respond_of_fbM ho]

end Exec

/-! ### The obligations -/

/-- Settles O45: a slot with room is replaced by the longer one, a full slot by itself. -/
theorem sampleIsStoredByPosition : Obligations.SampleIsStoredByPosition := by
  intro s v sl ho hv hsl
  rw [exec_fbSample ho hv (FrameBuffer.sample_of_slot v hsl)]
  refine ⟨fun hroom => by rw [if_pos hroom]; rfl, fun hfull => ?_⟩
  obtain ⟨hlt, rfl⟩ := List.getElem?_eq_some_iff.mp hsl
  rw [if_neg (Nat.not_lt.mpr hfull), List.set_getElem_self]
  rfl

/-- Settles O46. -/
theorem frameAdvancesToAClearedSlot : Obligations.FrameAdvancesToAClearedSlot :=
  fun _ _ ho hn hsl => exec_fbFrame ho (FrameBuffer.frame_advance_of_slot hn hsl)

/-- Settles O47. -/
theorem frameOverrunsWithNoFreeSlot : Obligations.FrameOverrunsWithNoFreeSlot :=
  fun _ _ ho hn hsl => exec_fbFrame ho (FrameBuffer.frame_overrun_of_slot hn hsl)

/-- Settles O48: the three cases of `tryTake`. -/
theorem takeResults : Obligations.TakeResults := by
  intro s ho hf
  refine ⟨fun hover => ?_, fun hover he => ?_, fun sl hover hne hsl hi => ?_⟩
  · exact exec_fbTake ho hf (FrameBuffer.take_overrun hover)
  · exact exec_fbTake ho hf (FrameBuffer.take_none hover he)
  · exact exec_fbTake ho hf (FrameBuffer.take_of_slot hover hne hsl hi)

/-- Settles O49: `reset()` whatever the unit holds, answered `OK`. -/
theorem resetClearsTheFrameBuffer : Obligations.ResetClearsTheFrameBuffer := by
  intro s ho hf
  have hl : s.legal .fbReset = true := State.legal_of_accepts ho rfl rfl
  simp only [exec, execFbReset, perform_legal hl hf, State.withFb_respond_of_fbM ho]
  rfl

end Sys2Proof.Machine
end

section
/-! PROOFS. No operation stops the block: O14 (60_exceptions.md R200, 20_memory.md R65, R67). -/

namespace Sys2Proof.Machine

/-- Settles O14. The invariant rules out every fault, and the turn rule the refusal: `exec_total` and `putCharPhase_total`
say so for each operation and each phase, and `exists_step_of_inv` joins them over what a turn can serve. -/
theorem noStepStopsTheBlock : Obligations.NoStepStopsTheBlock := by
  intro s hs
  exact exists_step_of_inv hs

end Sys2Proof.Machine
end

section
/-! PROOFS. One `put` against one `get`, action by action: what each of the two has done to the queue, and that a pair that
has ended is one of the two orders of the whole operations: the first part of O59 (70_reset_and_hazards.md R238). -/

namespace Sys2Proof.Machine

variable {α : Type} {cap : Nat} {v : α} {q : RingBuffer α}

/-! ### What the two sides have done -/

/-- What a `put(v)` that began on `q` has done to the queue it works on, `ring`, where it stands now. Past its test it had
`room`; with its answer `FULL` it found `q` full. -/
def PutAction.HasDone (cap : Nat) (v : α) (q : RingBuffer α) (room : Prop) (ring : RingBuffer α) : PutAction → Prop
  | .test => ring.storage = q.storage ∧ ring.writeCursor = q.writeCursor
  | .store => room ∧ ring.storage = q.storage ∧ ring.writeCursor = q.writeCursor
  | .advance => room ∧ ring.storage = Cells.write q.storage q.writeCursor v ∧ ring.writeCursor = q.writeCursor
  | .increment | .done true =>
      room ∧ ring.storage = Cells.write q.storage q.writeCursor v ∧ ring.writeCursor = (q.writeCursor + 1) % cap
  | .done false => q.count = cap ∧ ring.storage = q.storage ∧ ring.writeCursor = q.writeCursor

/-- The value a `get` returns against a `put(v)`: the oldest element of `q`, or `v` where `q` holds none. -/
def RingBuffer.oldestOr (v : α) (q : RingBuffer α) : Option α :=
  if q.count = 0 then some v else Cells.read q.storage q.readCursor

/-- What a `get()` that began on `q` against a `put(v)` has done to the queue it works on, `ring`, where it stands now. Past
its test it had found `data`; with its answer `EMPTY` it found `q` empty. -/
def GetAction.HasDone (cap : Nat) (v : α) (q : RingBuffer α) (data : Prop) (ring : RingBuffer α) : GetAction α → Prop
  | .test => ring.readCursor = q.readCursor
  | .read => data ∧ ring.readCursor = q.readCursor
  | .advance u => data ∧ q.oldestOr v = some u ∧ ring.readCursor = q.readCursor
  | .decrement u | .done (some u) => data ∧ q.oldestOr v = some u ∧ ring.readCursor = (q.readCursor + 1) % cap
  | .done none => q.count = 0 ∧ ring.readCursor = q.readCursor

/-- A pair in progress that began on `q`. Each side owns its own cursor and the `put` the storage; each had what its test
asks for from `q` or from the other side's last action; `count` is exact (R238). -/
structure PutGet.BeganOn (cap : Nat) (v : α) (q : RingBuffer α) (x : PutGet α) : Prop where
  putHasDone : x.putAt.HasDone cap v q (q.count ≠ cap ∨ x.getAt.released = 1) x.ring
  getHasDone : x.getAt.HasDone cap v q (q.count ≠ 0 ∨ x.putAt.published = 1) x.ring
  count_exact : x.ring.count + x.getAt.released = q.count + x.putAt.published

theorem PutGet.beganOn_start : PutGet.BeganOn cap v q (PutGet.start q) := ⟨⟨rfl, rfl⟩, rfl, rfl⟩

theorem PutAction.published_le_one (a : PutAction) : a.published ≤ 1 := by
  cases a with
  | done b => cases b <;> decide
  | _ => exact Nat.zero_le 1

theorem GetAction.released_le_one (a : GetAction α) : a.released ≤ 1 := by
  cases a with
  | done b => cases b <;> simp [GetAction.released]
  | _ => exact Nat.zero_le 1

/-- What a `get` may claim to have found, it may claim for any reason that is implied. -/
theorem GetAction.HasDone.mono {data data' : Prop} {ring : RingBuffer α} {a : GetAction α} (hd : data → data')
    (h : a.HasDone cap v q data ring) : a.HasDone cap v q data' ring := by
  cases a with
  | test => exact h
  | read => exact h.imp_left hd
  | advance u => exact h.imp_left hd
  | decrement u => exact h.imp_left hd
  | done b =>
    cases b with
    | none => exact h
    | some u => exact h.imp_left hd

/-- What a `put` may claim to have found, it may claim for any reason that is implied. -/
theorem PutAction.HasDone.mono {room room' : Prop} {ring : RingBuffer α} {a : PutAction} (hr : room → room')
    (h : a.HasDone cap v q room ring) : a.HasDone cap v q room' ring := by
  cases a with
  | test => exact h
  | store => exact h.imp_left hr
  | advance => exact h.imp_left hr
  | increment => exact h.imp_left hr
  | done b =>
    cases b with
    | false => exact h
    | true => exact h.imp_left hr

/-- The storage is that of `q` while the `put` has published nothing, or has the value stored, for which there was room. -/
theorem PutAction.HasDone.storage_cases {room : Prop} {ring : RingBuffer α} {a : PutAction}
    (h : a.HasDone cap v q room ring) :
    a.published = 0 ∧ ring.storage = q.storage ∨ room ∧ ring.storage = Cells.write q.storage q.writeCursor v := by
  cases a with
  | test =>
    obtain ⟨hs, -⟩ := h
    exact .inl ⟨rfl, hs⟩
  | store =>
    obtain ⟨-, hs, -⟩ := h
    exact .inl ⟨rfl, hs⟩
  | advance =>
    obtain ⟨hroom, hs, -⟩ := h
    exact .inr ⟨hroom, hs⟩
  | increment =>
    obtain ⟨hroom, hs, -⟩ := h
    exact .inr ⟨hroom, hs⟩
  | done b =>
    cases b with
    | false =>
      obtain ⟨-, hs, -⟩ := h
      exact .inl ⟨rfl, hs⟩
    | true =>
      obtain ⟨hroom, hs, -⟩ := h
      exact .inr ⟨hroom, hs⟩

/-! ### The cells they touch -/

/-- A queue that is neither empty nor full has its cursors at different cells, so that `put` and `get` touch no cell in
common (R238). -/
theorem RingBuffer.readCursor_ne_writeCursor (hi : RingBuffer.Inv cap q) (h0 : q.count ≠ 0) (hc : q.count ≠ cap) :
    q.readCursor ≠ q.writeCursor := by
  obtain ⟨-, hle, hr, -, heq, -⟩ := hi
  have h := mod_add_ne (a := q.readCursor) (Nat.pos_of_ne_zero h0) (Nat.lt_of_le_of_ne hle hc)
  rwa [Nat.add_zero, Nat.mod_eq_of_lt hr, ← heq] at h

/-- A queue with the invariant that is not empty has its oldest element at the read cursor. -/
theorem RingBuffer.read_readCursor (hi : RingBuffer.Inv cap q) (h0 : q.count ≠ 0) :
    ∃ u, Cells.read q.storage q.readCursor = some u := by
  obtain ⟨-, -, hr, -, -, hheld⟩ := hi
  have h := hheld 0 (Nat.pos_of_ne_zero h0)
  rw [Nat.add_zero, Nat.mod_eq_of_lt hr] at h
  exact Option.isSome_iff_exists.mp h

/-- With `v` stored in a queue that has room, the cell at the read cursor holds what the `get` returns. -/
theorem RingBuffer.read_write_readCursor (hi : RingBuffer.Inv cap q) (hc : q.count ≠ cap) :
    (Cells.write q.storage q.writeCursor v).read q.readCursor = q.oldestOr v := by
  by_cases h0 : q.count = 0
  · rw [RingBuffer.oldestOr, if_pos h0, RingBuffer.cursors_eq hi (.inr h0), Cells.read_write_self]
  · rw [RingBuffer.oldestOr, if_neg h0,
      Cells.read_write_of_ne _ _ (RingBuffer.readCursor_ne_writeCursor hi h0 hc)]

theorem RingBuffer.oldestOr_isSome (v : α) (hi : RingBuffer.Inv cap q) : ∃ u, q.oldestOr v = some u := by
  by_cases h0 : q.count = 0
  · exact ⟨v, if_pos h0⟩
  · simpa only [RingBuffer.oldestOr, if_neg h0] using RingBuffer.read_readCursor hi h0

/-- Where a `get` that found data reads, before it has released anything, it reads what it is to return. -/
theorem PutAction.HasDone.read_readCursor {ring : RingBuffer α} {a : PutAction} (hi : RingBuffer.Inv cap q)
    (hput : a.HasDone cap v q (q.count ≠ cap) ring) (hdata : q.count ≠ 0 ∨ a.published = 1) :
    Cells.read ring.storage q.readCursor = q.oldestOr v := by
  obtain ⟨hp, hs⟩ | ⟨hroom, hs⟩ := hput.storage_cases
  · rw [hs, RingBuffer.oldestOr, if_neg (hdata.resolve_right (by omega))]
  · rw [hs, RingBuffer.read_write_readCursor hi hroom]

/-! ### The actions -/

/-- An action of the `put` does not fault, and keeps what both sides have done. -/
theorem PutGet.BeganOn.put_act {x : PutGet α} (hi : RingBuffer.Inv cap q) (h : PutGet.BeganOn cap v q x) :
    ∃ a ring, x.putAt.act cap v x.ring = .ok (a, ring) ∧
      PutGet.BeganOn cap v q { x with putAt := a, ring := ring } := by
  obtain ⟨-, hle, -, hw, -, -⟩ := hi
  obtain ⟨p, g, ring⟩ := x
  obtain ⟨hput, hget, hcount⟩ := h
  simp only at hput hget hcount
  have hg := g.released_le_one
  cases p with
  | test =>
    have hn : ring.count + g.released = q.count := hcount
    refine ⟨_, _, rfl, ?_⟩
    by_cases hfull : ring.count = cap
    · have hfull₀ : q.count = cap := by omega
      rw [if_pos hfull]
      exact ⟨⟨hfull₀, hput⟩, hget, hcount⟩
    · have hroom : q.count ≠ cap ∨ g.released = 1 := by omega
      rw [if_neg hfull]
      exact ⟨⟨hroom, hput⟩, hget, hcount⟩
  | store =>
    obtain ⟨hroom, hs, hwc⟩ := hput
    refine ⟨.advance, { ring with storage := Cells.write ring.storage ring.writeCursor v }, ?_,
      ⟨hroom, ?_, hwc⟩, hget, hcount⟩
    · simp only [PutAction.act, storeCell, hwc, hw, if_true]
    · simp only [hs, hwc]
  | advance =>
    obtain ⟨hroom, hs, hwc⟩ := hput
    exact ⟨_, _, rfl, ⟨hroom, hs, by simp only [advance, hwc]⟩, hget, hcount⟩
  | increment =>
    have hn : ring.count + g.released = q.count := hcount
    have hnext : ring.count + 1 + g.released = q.count + 1 := by omega
    exact ⟨_, _, rfl, hput, hget.mono fun _ => .inr rfl, hnext⟩
  | done b => exact ⟨_, _, rfl, hput, hget, hcount⟩

/-- An action of the `get` does not fault, and keeps what both sides have done. -/
theorem PutGet.BeganOn.get_act {x : PutGet α} (hi : RingBuffer.Inv cap q) (h : PutGet.BeganOn cap v q x) :
    ∃ a ring, x.getAt.act cap x.ring = .ok (a, ring) ∧
      PutGet.BeganOn cap v q { x with getAt := a, ring := ring } := by
  have ⟨_, _, hr, _⟩ := hi
  obtain ⟨p, g, ring⟩ := x
  obtain ⟨hput, hget, hcount⟩ := h
  simp only at hput hget hcount
  have hp := p.published_le_one
  cases g with
  | test =>
    have hn : ring.count = q.count + p.published := hcount
    refine ⟨_, _, rfl, ?_⟩
    by_cases hempty : ring.count = 0
    · have hempty₀ : q.count = 0 := by omega
      rw [if_pos hempty]
      exact ⟨hput, ⟨hempty₀, hget⟩, hcount⟩
    · have hdata : q.count ≠ 0 ∨ p.published = 1 := by omega
      rw [if_neg hempty]
      exact ⟨hput, ⟨hdata, hget⟩, hcount⟩
  | read =>
    obtain ⟨hdata, hrc⟩ := hget
    obtain ⟨u, hu⟩ := RingBuffer.oldestOr_isSome v hi
    have hroom : PutAction.HasDone cap v q (q.count ≠ cap) ring p := hput.mono fun h => h.resolve_right Nat.zero_ne_one
    have hread : loadCell cap ring.storage ring.readCursor = .ok u :=
      loadCell_eq_ok.mpr ⟨hrc ▸ hr, by rw [hrc, hroom.read_readCursor hi hdata, hu]⟩
    exact ⟨.advance u, ring, by simp only [GetAction.act, hread], hput, ⟨hdata, hu, hrc⟩, hcount⟩
  | advance u =>
    obtain ⟨hdata, hu, hrc⟩ := hget
    exact ⟨_, _, rfl, hput, ⟨hdata, hu, by simp only [advance, hrc]⟩, hcount⟩
  | decrement u =>
    have hdata : q.count ≠ 0 ∨ p.published = 1 := hget.1
    have hn : ring.count = q.count + p.published := hcount
    have hnext : ring.count - 1 + 1 = q.count + p.published := by omega
    exact ⟨_, _, rfl, hput.mono fun _ => .inr rfl, hget, hnext⟩
  | done b => exact ⟨_, _, rfl, hput, hget, hcount⟩

/-- Every order of the actions runs without a fault. -/
theorem PutGet.BeganOn.run (hi : RingBuffer.Inv cap q) (turns : List Bool) {x : PutGet α}
    (h : PutGet.BeganOn cap v q x) :
    ∃ y, PutGet.run cap v turns x = .ok y ∧ PutGet.BeganOn cap v q y := by
  induction turns generalizing x with
  | nil => exact ⟨x, rfl, h⟩
  | cons turn turns ih =>
    cases turn with
    | true =>
      obtain ⟨a, ring, hact, hnext⟩ := h.put_act hi
      simpa only [PutGet.run, hact] using ih hnext
    | false =>
      obtain ⟨a, ring, hact, hnext⟩ := h.get_act hi
      simpa only [PutGet.run, hact] using ih hnext

/-! ### Both at their ends -/

theorem putThenGet_eq {q' q'' : RingBuffer α} {stored : PutAnswer} {answer : Option α}
    (hput : q.put cap v = .ok (q', stored)) (hget : q'.get cap = .ok (q'', answer)) :
    putThenGet cap v q = .ok (stored, answer, q'') := by
  simp only [putThenGet, hput, hget]

theorem getThenPut_eq {q' q'' : RingBuffer α} {stored : PutAnswer} {answer : Option α}
    (hget : q.get cap = .ok (q', answer)) (hput : q'.put cap v = .ok (q'', stored)) :
    getThenPut cap v q = .ok (stored, answer, q'') := by
  simp only [getThenPut, hget, hput]

theorem RingBuffer.eq_mk {ring : RingBuffer α} {m : Cells α} {n r w : Nat} (hs : ring.storage = m) (hn : ring.count = n)
    (hr : ring.readCursor = r) (hw : ring.writeCursor = w) : ring = ⟨m, n, r, w⟩ := by
  subst hs hn hr hw
  rfl

/-- A `get` that found `q` empty came first; a `put` that found `q` full came first; where neither did, the `put` came first
unless it had to wait for the cell that the `get` released. -/
theorem PutGet.BeganOn.whole {x : PutGet α} {stored : PutAnswer} {answer : Option α} (hi : RingBuffer.Inv cap q)
    (h : PutGet.BeganOn cap v q x) (hp : x.putAt = .done stored) (hg : x.getAt = .done answer) :
    putThenGet cap v q = .ok (stored, answer, x.ring) ∨ getThenPut cap v q = .ok (stored, answer, x.ring) := by
  have ⟨_, _, hr, hw, _, _⟩ := hi
  obtain ⟨p, g, ring⟩ := x
  simp only at hp hg
  subst hp hg
  obtain ⟨hput, hget, hcount⟩ := h
  cases answer with
  | none =>
    obtain ⟨h0, hrc⟩ := hget
    cases stored with
    | true =>
      obtain ⟨-, hs, hwc⟩ := hput
      rw [RingBuffer.eq_mk hs hcount hrc hwc]
      exact .inr (getThenPut_eq (RingBuffer.get_empty h0) (RingBuffer.put_ok v (by omega) hw))
    | false =>
      have hfull : q.count = cap := hput.1
      omega
  | some u =>
    obtain ⟨-, hu, hrc⟩ := hget
    have hread : ∀ h0 : q.count ≠ 0, Cells.read q.storage q.readCursor = some u := fun h0 => by
      rwa [RingBuffer.oldestOr, if_neg h0] at hu
    cases stored with
    | true =>
      obtain ⟨-, hs, hwc⟩ := hput
      by_cases hfull : q.count = cap
      · have h0 : q.count ≠ 0 := by omega
        have hsum : ring.count + 1 = q.count + 1 := hcount
        have hn : ring.count = q.count - 1 + 1 := by omega
        rw [RingBuffer.eq_mk hs hn hrc hwc]
        exact .inr (getThenPut_eq (RingBuffer.get_ok h0 hr (hread h0)) (RingBuffer.put_ok v (by simp only; omega) hw))
      · have hn : ring.count = q.count + 1 - 1 := congrArg (· - 1) hcount
        rw [RingBuffer.eq_mk hs hn hrc hwc]
        refine .inl (putThenGet_eq (RingBuffer.put_ok v hfull hw) (RingBuffer.get_ok (Nat.succ_ne_zero _) hr ?_))
        rw [RingBuffer.read_write_readCursor hi hfull, hu]
    | false =>
      obtain ⟨hfull, hs, hwc⟩ := hput
      have h0 : q.count ≠ 0 := by omega
      have hn : ring.count = q.count - 1 := congrArg (· - 1) hcount
      rw [RingBuffer.eq_mk hs hn hrc hwc]
      exact .inl (putThenGet_eq (RingBuffer.put_full v hfull) (RingBuffer.get_ok h0 hr (hread h0)))

end Sys2Proof.Machine
end

section
/-! PROOFS. A `getChar` with whole packets between its actions, and the two orders of whole operations: the rest of O59
(70_reset_and_hazards.md R239; 41_serial_transport.md R150). -/

namespace Sys2Proof.Machine

variable {α : Type} {cap : Nat} {q q₁ ring : RingBuffer α} {a : GetAction α} {pkt : List α}

/-! ### What a `get` in progress looks like -/

/-- A `get` in progress on `ring` looks as if it had begun on `q`, of which it has changed at most the read cursor; once it
has ended it is the whole `get` on `q`. -/
def GetAction.SeemsBegunOn (cap : Nat) (q ring : RingBuffer α) : GetAction α → Prop
  | .test => ring = q
  | .read => ring = q ∧ q.count ≠ 0
  | .advance u => ring = q ∧ (q.held cap).head? = some u
  | .decrement u => ring = { q with readCursor := (q.readCursor + 1) % cap } ∧ (q.held cap).head? = some u
  | .done answer => q.get cap = .ok (ring, answer)

/-- How many actions a `get` that finds data has still to do. -/
def GetAction.left : GetAction α → Nat
  | .test => 4
  | .read => 3
  | .advance _ => 2
  | .decrement _ => 1
  | .done _ => 0

theorem GetAction.left_eq_zero : a.left = 0 ↔ ∃ answer, a = .done answer := by
  cases a <;> simp [GetAction.left]

/-! ### The actions and the packets -/

/-- A queue that holds an oldest element returns it: only the read cursor and the count move. -/
theorem RingBuffer.get_of_head {u : α} (hi : RingBuffer.Inv cap q) (hu : (q.held cap).head? = some u) :
    q.count ≠ 0 ∧
      q.get cap = .ok ({ q with readCursor := (q.readCursor + 1) % cap, count := q.count - 1 }, some u) := by
  obtain ⟨q', hget, -⟩ := RingBuffer.get_total hi
  rw [hu] at hget
  obtain ⟨-, -, hnone⟩ | ⟨w, h0, -, -, hw, rfl⟩ := RingBuffer.get_cases hget
  · cases hnone
  · cases hw
    exact ⟨h0, hget⟩

/-- An action of a `get` brings it nearer to its end: to the end at once on an empty queue, and otherwise by one. -/
theorem GetAction.SeemsBegunOn.act (hi : RingBuffer.Inv cap q) (h : a.SeemsBegunOn cap q ring) :
    ∃ a' ring', a.act cap ring = .ok (a', ring') ∧ a'.SeemsBegunOn cap q ring' ∧
      a'.left = if q.count = 0 then 0 else a.left - 1 := by
  cases a with
  | test =>
    cases h
    refine ⟨_, _, rfl, ?_⟩
    by_cases h0 : q.count = 0
    · simp only [h0, if_true]
      exact ⟨RingBuffer.get_empty h0, rfl⟩
    · simp only [h0, if_false]
      exact ⟨⟨rfl, h0⟩, rfl⟩
  | read =>
    obtain ⟨rfl, h0⟩ := h
    have ⟨_, _, hr, _⟩ := hi
    obtain ⟨u, hread⟩ := RingBuffer.read_readCursor hi h0
    have hload : loadCell cap ring.storage ring.readCursor = .ok u := loadCell_eq_ok.mpr ⟨hr, hread⟩
    have hheld := RingBuffer.get_held (RingBuffer.get_ok h0 hr hread)
    exact ⟨.advance u, ring, by simp only [GetAction.act, hload], ⟨rfl, by rw [hheld]; rfl⟩, by rw [if_neg h0]; rfl⟩
  | advance u =>
    obtain ⟨rfl, hu⟩ := h
    obtain ⟨h0, -⟩ := RingBuffer.get_of_head hi hu
    exact ⟨_, _, rfl, ⟨rfl, hu⟩, by rw [if_neg h0]; rfl⟩
  | decrement u =>
    obtain ⟨rfl, hu⟩ := h
    obtain ⟨h0, hget⟩ := RingBuffer.get_of_head hi hu
    exact ⟨_, _, rfl, hget, by rw [if_neg h0]; rfl⟩
  | done answer => exact ⟨_, _, rfl, h, by simp [GetAction.left]⟩

/-- The receive loop does not read the read cursor. -/
theorem RingBuffer.putAll_withReadCursor (r : Nat) (h : q.putAll cap pkt = .ok q₁) :
    RingBuffer.putAll cap pkt { q with readCursor := r } = .ok { q₁ with readCursor := r } := by
  induction pkt generalizing q with
  | nil =>
    cases h
    rfl
  | cons v pkt ih =>
    unfold RingBuffer.putAll at h ⊢
    split at h
    · cases h
    · next q₂ b hput =>
      obtain ⟨hc, rfl, -⟩ | ⟨hc, hw, -, rfl⟩ := RingBuffer.put_cases hput
      · simpa only [RingBuffer.put_full v (q := { q₂ with readCursor := r }) hc] using ih h
      · simpa only [RingBuffer.put_ok v (q := { q with readCursor := r }) hc hw] using ih h

/-- A packet keeps the oldest element. -/
theorem RingBuffer.putAll_head {u : α} (hi : RingBuffer.Inv cap q) (h : q.putAll cap pkt = .ok q₁)
    (hu : (q.held cap).head? = some u) : (q₁.held cap).head? = some u := by
  obtain ⟨q', hput, -, hheld, -⟩ := RingBuffer.putAll_spec pkt hi
  cases hput.symm.trans h
  rw [hheld, List.head?_append, hu]
  rfl

/-- A packet that falls on a `get` not yet at its end looks as if it had come before the `get` (R239). -/
theorem GetAction.SeemsBegunOn.packet (hi : RingBuffer.Inv cap q) (h : a.SeemsBegunOn cap q ring) (hl : a.left ≠ 0)
    (hput : q.putAll cap pkt = .ok q₁) :
    ∃ ring', ring.putAll cap pkt = .ok ring' ∧ a.SeemsBegunOn cap q₁ ring' := by
  cases a with
  | test =>
    cases h
    exact ⟨q₁, hput, rfl⟩
  | read =>
    obtain ⟨rfl, h0⟩ := h
    obtain ⟨q', hput', -, -, hcount, -⟩ := RingBuffer.putAll_spec pkt hi
    cases hput'.symm.trans hput
    exact ⟨q₁, hput, rfl, by omega⟩
  | advance u =>
    obtain ⟨rfl, hu⟩ := h
    exact ⟨q₁, hput, rfl, RingBuffer.putAll_head hi hput hu⟩
  | decrement u =>
    obtain ⟨rfl, hu⟩ := h
    obtain ⟨q', hput', -, -, -, hrc, -⟩ := RingBuffer.putAll_spec pkt hi
    cases hput'.symm.trans hput
    exact ⟨_, RingBuffer.putAll_withReadCursor _ hput, by rw [hrc], RingBuffer.putAll_head hi hput hu⟩
  | done answer => exact absurd rfl hl

/-! ### Any packets between the actions -/

theorem getBetweenPackets_eq {before after : List (List α)} {q₂ q₃ : RingBuffer α} {answer : Option α}
    (hbefore : q.putAll cap before.flatten = .ok q₁) (hget : q₁.get cap = .ok (q₂, answer))
    (hafter : q₂.putAll cap after.flatten = .ok q₃) :
    getBetweenPackets cap before after q = .ok (answer, q₃) := by
  simp only [getBetweenPackets, hbefore, hget, hafter]

/-- The packets after a list of packets. -/
theorem RingBuffer.putAll_flatten_concat {pkts : List (List α)} {q₂ : RingBuffer α}
    (h : q.putAll cap pkts.flatten = .ok q₁) (hput : q₁.putAll cap pkt = .ok q₂) :
    q.putAll cap (pkts ++ [pkt]).flatten = .ok q₂ := by
  rw [List.flatten_append, List.flatten_singleton, RingBuffer.putAll_append, h]
  exact hput

/-- A preempted `get` that began on `q` and has seen the packets `pkts`: it seems begun on `q` after the packets `before`;
the packets `after` fell behind its end. -/
def PreemptedGet.BeganOn (cap : Nat) (q : RingBuffer α) (pkts : List (List α)) (x : PreemptedGet α) : Prop :=
  ∃ before after q₁ ring, before ++ after = pkts ∧ q.putAll cap before.flatten = .ok q₁ ∧ RingBuffer.Inv cap q₁ ∧
    x.getAt.SeemsBegunOn cap q₁ ring ∧ ring.putAll cap after.flatten = .ok x.ring ∧ (x.getAt.left ≠ 0 → after = [])

theorem PreemptedGet.beganOn_start (hi : RingBuffer.Inv cap q) :
    PreemptedGet.BeganOn cap q [] (PreemptedGet.start q) :=
  ⟨[], [], q, q, rfl, rfl, hi, rfl, rfl, fun _ => rfl⟩

theorem PreemptedGet.BeganOn.act {pkts : List (List α)} {x : PreemptedGet α} (h : PreemptedGet.BeganOn cap q pkts x) :
    ∃ a ring, x.getAt.act cap x.ring = .ok (a, ring) ∧
      PreemptedGet.BeganOn cap q pkts { getAt := a, ring := ring } := by
  obtain ⟨before, after, q₁, ring, hpkts, hbefore, hi₁, hseems, hafter, hnone⟩ := h
  by_cases hl : x.getAt.left = 0
  · obtain ⟨answer, ha⟩ := GetAction.left_eq_zero.mp hl
    exact ⟨x.getAt, x.ring, by rw [ha]; rfl, before, after, q₁, ring, hpkts, hbefore, hi₁, hseems, hafter, hnone⟩
  · cases hnone hl
    cases hafter
    obtain ⟨a, ring', hact, hseems', -⟩ := hseems.act hi₁
    exact ⟨a, ring', hact, before, [], q₁, ring', hpkts, hbefore, hi₁, hseems', rfl, fun _ => rfl⟩

theorem PreemptedGet.BeganOn.packet {pkts : List (List α)} {x : PreemptedGet α} (pkt : List α)
    (h : PreemptedGet.BeganOn cap q pkts x) :
    ∃ ring, x.ring.putAll cap pkt = .ok ring ∧ PreemptedGet.BeganOn cap q (pkts ++ [pkt]) { x with ring := ring } := by
  obtain ⟨before, after, q₁, ring, rfl, hbefore, hi₁, hseems, hafter, hnone⟩ := h
  by_cases hl : x.getAt.left = 0
  · obtain ⟨answer, ha⟩ := GetAction.left_eq_zero.mp hl
    have hi : RingBuffer.Inv cap ring := RingBuffer.get_inv hi₁ (by rwa [ha] at hseems)
    obtain ⟨q₂, hafter', hi₂, -⟩ := RingBuffer.putAll_spec after.flatten hi
    cases hafter'.symm.trans hafter
    obtain ⟨q₃, hput, -⟩ := RingBuffer.putAll_spec pkt hi₂
    exact ⟨q₃, hput, before, after ++ [pkt], q₁, ring, (List.append_assoc ..).symm, hbefore, hi₁, hseems,
      RingBuffer.putAll_flatten_concat hafter hput, fun h => absurd hl h⟩
  · cases hnone hl
    cases hafter
    obtain ⟨q₂, hput, hi₂, -⟩ := RingBuffer.putAll_spec pkt hi₁
    obtain ⟨ring', hput', hseems'⟩ := hseems.packet hi₁ hl hput
    exact ⟨ring', hput', before ++ [pkt], [], q₂, ring', by simp, RingBuffer.putAll_flatten_concat hbefore hput, hi₂,
      hseems', rfl, fun _ => rfl⟩

/-- Actions and packets in any order run without a fault. -/
theorem PreemptedGet.BeganOn.run (turns : List (Option (List α))) {pkts : List (List α)} {x : PreemptedGet α}
    (h : PreemptedGet.BeganOn cap q pkts x) :
    ∃ y, PreemptedGet.run cap turns x = .ok y ∧ PreemptedGet.BeganOn cap q (pkts ++ turns.filterMap id) y := by
  induction turns generalizing pkts x with
  | nil => exact ⟨x, rfl, by simpa using h⟩
  | cons turn turns ih =>
    cases turn with
    | none =>
      obtain ⟨a, ring, hact, hnext⟩ := h.act
      simpa [PreemptedGet.run, hact] using ih hnext
    | some pkt =>
      obtain ⟨ring, hput, hnext⟩ := h.packet pkt
      simpa [PreemptedGet.run, hput] using ih hnext

/-- At its end a preempted `get` is a whole one between the packets before it and those after it. -/
theorem PreemptedGet.BeganOn.whole {pkts : List (List α)} {x : PreemptedGet α} {answer : Option α}
    (h : PreemptedGet.BeganOn cap q pkts x) (ha : x.getAt = .done answer) :
    ∃ before after, before ++ after = pkts ∧ getBetweenPackets cap before after q = .ok (answer, x.ring) := by
  obtain ⟨before, after, q₁, ring, hpkts, hbefore, -, hseems, hafter, -⟩ := h
  rw [ha] at hseems
  exact ⟨before, after, hpkts, getBetweenPackets_eq hbefore hseems hafter⟩

/-! ### One packet -/

theorem PreemptedGet.run_append (turns turns' : List (Option (List α))) (x : PreemptedGet α) :
    PreemptedGet.run cap (turns ++ turns') x = (PreemptedGet.run cap turns x).bind (PreemptedGet.run cap turns') := by
  induction turns generalizing x with
  | nil => rfl
  | cons turn turns ih =>
    cases turn with
    | none =>
      simp only [List.cons_append, PreemptedGet.run]
      cases x.getAt.act cap x.ring with
      | error e => rfl
      | ok y => exact ih _
    | some pkt =>
      simp only [List.cons_append, PreemptedGet.run]
      cases x.ring.putAll cap pkt with
      | error e => rfl
      | ok y => exact ih _

/-- Where `n` actions with nothing between them bring a `get`: after the first on an empty queue it has ended, and otherwise
it has `n` fewer to do. -/
theorem GetAction.SeemsBegunOn.run (n : Nat) (hi : RingBuffer.Inv cap q) (h : a.SeemsBegunOn cap q ring) :
    ∃ x, PreemptedGet.run cap (List.replicate n none) { getAt := a, ring := ring } = .ok x ∧
      x.getAt.SeemsBegunOn cap q x.ring ∧ x.getAt.left = if q.count = 0 ∧ 1 ≤ n then 0 else a.left - n := by
  induction n generalizing a ring with
  | zero => exact ⟨_, rfl, h, by simp⟩
  | succ n ih =>
    obtain ⟨a', ring', hact, hseems, hleft⟩ := h.act hi
    obtain ⟨x, hrun, hx, hxleft⟩ := ih hseems
    refine ⟨x, by simpa only [List.replicate_succ, PreemptedGet.run, hact] using hrun, hx, ?_⟩
    rw [hxleft, hleft]
    split_ifs <;> omega

/-- Four actions carry any `get` to its end. -/
theorem GetAction.SeemsBegunOn.run_to_end (hi : RingBuffer.Inv cap q) (h : a.SeemsBegunOn cap q ring) :
    ∃ answer q', PreemptedGet.run cap (List.replicate 4 none) { getAt := a, ring := ring } =
      .ok { getAt := .done answer, ring := q' } ∧ q.get cap = .ok (q', answer) := by
  obtain ⟨⟨a', q'⟩, hrun, hseems, hleft⟩ := h.run 4 hi
  have hmax : a.left ≤ 4 := by cases a <;> simp [GetAction.left]
  obtain ⟨answer, rfl⟩ := GetAction.left_eq_zero.mp (hleft.trans (by split_ifs <;> omega))
  exact ⟨answer, q', hrun, hseems⟩

/-- A `get` at its end does nothing more. -/
theorem PreemptedGet.run_done (n : Nat) (answer : Option α) (ring : RingBuffer α) :
    PreemptedGet.run cap (List.replicate n none) { getAt := .done answer, ring := ring } =
      .ok { getAt := .done answer, ring := ring } := by
  induction n with
  | zero => rfl
  | succ n ih => exact ih

theorem getAcrossPacket_eq {n : Nat} {x : PreemptedGet α} {ring' : RingBuffer α}
    (hrun : PreemptedGet.run cap (List.replicate n none) (PreemptedGet.start q) = .ok x)
    (hput : x.ring.putAll cap pkt = .ok ring') :
    getAcrossPacket cap pkt n q = PreemptedGet.run cap (List.replicate 4 none) { x with ring := ring' } := by
  rw [getAcrossPacket, PreemptedGet.run_append, hrun]
  simp only [Except.bind, PreemptedGet.run, hput]

/-- One packet after `n` actions: it comes last where the `get` had ended by then, and first where it had not. -/
theorem getAcrossPacket_cases (pkt : List α) (n : Nat) (hi : RingBuffer.Inv cap q) :
    ∃ answer q', getAcrossPacket cap pkt n q = .ok { getAt := .done answer, ring := q' } ∧
      (q.count = 0 ∧ 1 ≤ n ∨ 4 ≤ n → getBetweenPackets cap [] [pkt] q = .ok (answer, q')) ∧
      (¬ (q.count = 0 ∧ 1 ≤ n ∨ 4 ≤ n) → getBetweenPackets cap [pkt] [] q = .ok (answer, q')) := by
  have hstart : GetAction.SeemsBegunOn cap q q .test := rfl
  obtain ⟨⟨a, ring⟩, hrun, hseems, hleft⟩ := hstart.run n hi
  have hended : a.left = 0 ↔ q.count = 0 ∧ 1 ≤ n ∨ 4 ≤ n := by
    have htest : a.left = if q.count = 0 ∧ 1 ≤ n then 0 else 4 - n := hleft
    split_ifs at htest <;> omega
  rw [← hended]
  by_cases hl : a.left = 0
  · obtain ⟨answer, rfl⟩ := GetAction.left_eq_zero.mp hl
    obtain ⟨q', hput, -⟩ := RingBuffer.putAll_spec pkt (RingBuffer.get_inv hi hseems)
    refine ⟨answer, q', (getAcrossPacket_eq hrun hput).trans (PreemptedGet.run_done 4 answer q'), fun _ => ?_,
      fun h => absurd hl h⟩
    exact getBetweenPackets_eq rfl hseems (by simpa using hput)
  · obtain ⟨q₁, hput, hi₁, -⟩ := RingBuffer.putAll_spec pkt hi
    obtain ⟨ring', hput', hseems'⟩ := hseems.packet hi hl hput
    obtain ⟨answer, q', hrest, hget⟩ := hseems'.run_to_end hi₁
    exact ⟨answer, q', (getAcrossPacket_eq hrun hput').trans hrest, fun h => absurd h hl,
      fun _ => getBetweenPackets_eq (by simpa using hput) hget rfl⟩

/-- Settles O59: what the two sides of R238 have done to the queue is kept by every action (`PutGet.BeganOn`), and a `get` in
progress looks as if the packets that fell on it had come before it (`GetAction.SeemsBegunOn`). -/
theorem putAndGetInterleaveAsWholeOperations : Obligations.PutAndGetInterleaveAsWholeOperations := by
  refine ⟨fun α cap v q turns hi => ?_, fun α cap q turns hi => ?_, fun α cap q pkt n hi => ?_⟩
  · obtain ⟨x, hrun, hx⟩ := PutGet.beganOn_start.run (v := v) hi turns
    exact ⟨x, hrun, fun stored answer => hx.whole hi, hx.count_exact⟩
  · obtain ⟨x, hrun, hx⟩ := (PreemptedGet.beganOn_start hi).run turns
    exact ⟨x, hrun, fun answer => hx.whole⟩
  · obtain ⟨answer, q', hrun, hlast, hfirst⟩ := getAcrossPacket_cases pkt n hi
    exact ⟨answer, q', hrun, fun h => hfirst (by omega), fun h => hlast (by omega)⟩

end Sys2Proof.Machine
end

section
/-! PROOFS. A `tryTake` preempted by a frame-complete edge that finds no free slot: O60 (70_reset_and_hazards.md R240,
42_frame_buffer.md R172, R174). -/

namespace Sys2Proof.Machine

variable {p : Params} {f f' : FrameBuffer}

theorem FrameBuffer.takeTest_iff : f.takeTest = true ↔ f.overrun = false ∧ f.readSlot ≠ f.writeSlot := by
  simp [FrameBuffer.takeTest]

/-- The rest of a `tryTake` delivers the slot at the read index, whatever the flag says by now. -/
theorem FrameBuffer.takeFinish_ok (hf : FrameBuffer.Inv p f) :
    f.takeFinish p = .ok ({ f with readSlot := (f.readSlot + 1) % p.r }, .okFrame (f.slotAt f.readSlot).samples) := by
  have ⟨hlen, _, _, hr, _⟩ := hf
  simp only [FrameBuffer.takeFinish, FrameBuffer.slot_of_lt hlen hr, loadSamples_ok (FrameBuffer.slotAt_inv hf hr), advance]

/-- The edge that finds no free slot sets `overrun` and leaves the read index and the slot there, in which it writes
nothing. -/
theorem FrameBuffer.frame_full_keeps_readSlot (hf : FrameBuffer.Inv p f) (hn : (f.writeSlot + 1) % p.r = f.readSlot)
    (hne : f.readSlot ≠ f.writeSlot) (h : f.frame p = .ok f') :
    f'.overrun = true ∧ f'.readSlot = f.readSlot ∧ f'.slotAt f.readSlot = f.slotAt f.readSlot := by
  rw [FrameBuffer.frame_overrun hf hn] at h
  cases h
  have ⟨hlen, _, hw, _⟩ := hf
  refine ⟨rfl, rfl, ?_⟩
  rw [FrameBuffer.slotAt_set f.slots (by omega) rfl, if_neg hne]
  rfl

/-- Settles O60: both `takeFinish` after the edge and the whole `tryTake` deliver the slot at the read index. After the whole
`tryTake` the slot it has freed is there for the edge; after the whole edge `overrun` is set. -/
theorem preemptedTakeLeavesASpuriousOverrun : Obligations.PreemptedTakeLeavesASpuriousOverrun := by
  intro p f f₁ hf htest hn hframe
  obtain ⟨hover, hne⟩ := FrameBuffer.takeTest_iff.mp htest
  obtain ⟨hover₁, hread₁, hslot₁⟩ := FrameBuffer.frame_full_keeps_readSlot hf hn hne hframe
  have hfinish := FrameBuffer.takeFinish_ok (FrameBuffer.frame_inv hf hframe)
  rw [hread₁, hslot₁] at hfinish
  refine ⟨_, _, _, hfinish, hover₁, FrameBuffer.take_ok hf hover hne, hover, fun f₄ hframe₄ => ?_,
    FrameBuffer.take_overrun hover₁⟩
  obtain ⟨-, ⟨hfull, -⟩ | ⟨-, hkeep, -⟩⟩ := FrameBuffer.frame_flags hframe₄
  · have ⟨_, _, hw, hr, _⟩ := hf
    have hfreed : (f.readSlot + 0) % p.r ≠ (f.readSlot + 1) % p.r := mod_add_ne Nat.zero_lt_one (by omega)
    rw [Nat.add_zero, Nat.mod_eq_of_lt hr] at hfreed
    exact absurd (hn.symm.trans hfull) hfreed
  · exact hkeep.trans hover

end Sys2Proof.Machine
end
